-- ==== Sys2Proof/Word.lean ====
section
/-! DEFINITION. The widths of the engine's data (00_scope.md R5): names for the bit vectors that the spec
treats as bits. Everything in the hardware is unsigned (R6). -/

namespace Sys2Proof

/-- A 32-bit word, the native unit of the datapath (`WORD_BITS`, R5). -/
abbrev Word := BitVec 32

/-- A byte, 8 bits everywhere (R40). -/
abbrev Byte := BitVec 8

/-- A command word (`CMD_BITS`, R5, R61). -/
abbrev CmdWord := BitVec 12

/-- A code of the `PHASE` register (`PHASE_BITS`, R5, R15). -/
abbrev PhaseCode := BitVec 3

/-- An index of `M`, `W` or `K`, and the width of `T` and `BI` (R5, R40). -/
abbrev Index := BitVec 6

/-- The byte counter `LEN` (`LEN_BITS`, R5, R19). -/
abbrev Length := BitVec 61

/-- Eight words: the hash state `H`, or the working registers `V` (`STATE_WORDS`, R5). -/
abbrev Words8 := Vector Word 8

/-- The schedule store `W`, or a schedule (`SCHED_WORDS`, R5). -/
abbrev Schedule := Vector Word 64

/-- One block of 64 bytes (`BLOCK_BYTES`, R5). -/
abbrev Block := Vector Byte 64

end Sys2Proof
end

