-- ==== Sys2Proof/Machine/Fields.lean ====
section
/-! DEFINITION. The two fields of a command word (30_encoding.md R61). -/

namespace Sys2Proof

/-- The opcode field `op = c[11:8]` (R61). -/
def CmdWord.op (c : CmdWord) : BitVec 4 := c.extractLsb' 8 4

/-- The argument field `arg = c[7:0]` (R61). -/
def CmdWord.arg (c : CmdWord) : Byte := c.extractLsb' 0 8

end Sys2Proof
end

