-- ==== Sys2Proof/Syntax.lean ====
section
/-! DEFINITION. The instructions: one constructor per row of the opcode table, the eight commands and the illegal
word of format `CMD12` (R62) and the five engine steps of format `PHASE3` (R69). -/

namespace Sys2Proof

/-- One transition other than `Reset` (R47): the execution of a command word, or an engine step. Operands have the
widths of R63, so every operand value the encoding admits is here and no other. -/
inductive Instr where
  /-- `NOP` (R140). -/
  | nop
  /-- `INIT`: open a session (R141). -/
  | init
  /-- `DATA b`: append one message byte (R142). -/
  | data (b : Byte)
  /-- `FINAL`: end of message (R143). -/
  | final
  /-- `RDW i`: read digest word `i`, 0..7 (R145). -/
  | rdw (i : BitVec 3)
  /-- `RDB i`: read digest byte `i`, 0..31 (R146). -/
  | rdb (i : BitVec 5)
  /-- `RDX i`: read digest hexadecimal character `i`, 0..63 (R147). -/
  | rdx (i : BitVec 6)
  /-- `RDS`: read `STATUS` (R148). -/
  | rds
  /-- `ILLEGAL`: a word that spells no command (R67), kept because `ECMD` records it. -/
  | illegal (c : CmdWord)
  /-- Step `PAD` (R144). -/
  | pad
  /-- Step `LOAD` (R110). -/
  | load
  /-- Step `EXPAND` (R111). -/
  | expand
  /-- Step `ROUND` (R112). -/
  | round
  /-- Step `ACCUM` (R113). -/
  | accum
  deriving DecidableEq, Repr

/-- What selects an instruction: a word at the command port (R61) or the code in the `PHASE` register (R69). -/
inductive Code where
  | cmd12 (c : CmdWord)
  | phase3 (p : PhaseCode)
  deriving DecidableEq, Repr

end Sys2Proof
end

