-- ==== Sys2Proof/WellFormed.lean ====
section
/-! DEFINITION. Well-formed instructions. Operand ranges are in the types; what is left to check is that an
`illegal` term holds a word that really spells no command (R63, R67). The check is written from R67's own words,
by opcode and must-be-zero bits, and not from the decoder's patterns. -/

namespace Sys2Proof

/-- R67: a word is illegal when its opcode is `0x8..0xF`, or when a must-be-zero argument bit of R63 is 1. -/
def CmdWord.isIllegal (c : CmdWord) : Bool :=
  match (CmdWord.op c).toNat with
  | 0 | 1 | 3 | 7 => CmdWord.arg c != 0          -- NOP, INIT, FINAL, RDS: arg[7:0] must be 0
  | 2 => false                                   -- DATA: every argument is a byte
  | 4 => (CmdWord.arg c).extractLsb' 3 5 != 0    -- RDW: arg[7:3] must be 0
  | 5 => (CmdWord.arg c).extractLsb' 5 3 != 0    -- RDB: arg[7:5] must be 0
  | 6 => (CmdWord.arg c).extractLsb' 6 2 != 0    -- RDX: arg[7:6] must be 0
  | _ => true                                    -- reserved opcodes

/-- An instruction that stands for what the hardware can be given. -/
def Instr.wf : Instr → Bool
  | .illegal c => CmdWord.isIllegal c
  | .nop | .init | .data _ | .final | .rdw _ | .rdb _ | .rdx _ | .rds => true
  | .pad | .load | .expand | .round | .accum => true

end Sys2Proof
end

