-- ==== Sys2Proof/Decode.lean ====
section
/-! DEFINITION. The decoder, from the match and mask of each row (R63, R69), and after it the encoder, from the
assembler's rule `word = op * 256 + operand` (R70). -/

namespace Sys2Proof

/-- One row of R63's table: a word `c` spells the command iff `c and mask = value`. -/
structure Pattern where
  value : CmdWord
  mask : CmdWord
  deriving DecidableEq, Repr

/-- R63: a word `c` spells command X iff `c and mask_X = match_X`. -/
def Pattern.fits (p : Pattern) (c : CmdWord) : Bool := c &&& p.mask == p.value

def Pattern.nop   : Pattern := ⟨0x000, 0xfff⟩
def Pattern.init  : Pattern := ⟨0x100, 0xfff⟩
def Pattern.data  : Pattern := ⟨0x200, 0xf00⟩
def Pattern.final : Pattern := ⟨0x300, 0xfff⟩
def Pattern.rdw   : Pattern := ⟨0x400, 0xff8⟩
def Pattern.rdb   : Pattern := ⟨0x500, 0xfe0⟩
def Pattern.rdx   : Pattern := ⟨0x600, 0xfc0⟩
def Pattern.rds   : Pattern := ⟨0x700, 0xfff⟩

/-- The table's row for reserved opcodes (R67); the ill-formed words with opcodes `0x0..0x7` match no row. -/
def Pattern.reserved : Pattern := ⟨0x800, 0x800⟩

/-- The eight command rows of R63, in the table's order. -/
def Pattern.commands : List Pattern :=
  [.nop, .init, .data, .final, .rdw, .rdb, .rdx, .rds]

/-- `Decode(c)` (R64): total; the command whose pattern matches, and `ILLEGAL` when none does. -/
def decodeCmd (c : CmdWord) : Instr :=
  if Pattern.nop.fits c then .nop
  else if Pattern.init.fits c then .init
  else if Pattern.data.fits c then .data (c.extractLsb' 0 8)
  else if Pattern.final.fits c then .final
  else if Pattern.rdw.fits c then .rdw (c.extractLsb' 0 3)
  else if Pattern.rdb.fits c then .rdb (c.extractLsb' 0 5)
  else if Pattern.rdx.fits c then .rdx (c.extractLsb' 0 6)
  else if Pattern.rds.fits c then .rds
  else .illegal c

/-- Why bits select no instruction. -/
inductive Reject where
  /-- The phase code is `IDLE`, `ABSORB` or `DONE`, which select no step (R69). -/
  | noStepSelected
  /-- More bits are set than the format has (R61: 12 bits; R69: 3 bits). -/
  | tooWide
  deriving DecidableEq, Repr

/-- The step a code of the `PHASE` register selects (R69). -/
def decodePhase (p : PhaseCode) : Except Reject Instr :=
  match p.toNat with
  | 2 => .ok .pad
  | 3 => .ok .load
  | 4 => .ok .expand
  | 5 => .ok .round
  | 6 => .ok .accum
  | _ => .error .noStepSelected

/-- The decoder over both formats. -/
def decode : Code → Except Reject Instr
  | .cmd12 c => .ok (decodeCmd c)
  | .phase3 p => decodePhase p

/-- A code from plain bits as the opcode table numbers them: at most one byte of bits is a `PHASE3` row, more is a
`CMD12` row (log 16). -/
def codeOfBits (nbits w : Nat) : Except Reject Code :=
  if nbits ≤ 8 then
    if w < 2 ^ 3 then .ok (.phase3 (BitVec.ofNat 3 w)) else .error .tooWide
  else
    if w < 2 ^ 12 then .ok (.cmd12 (BitVec.ofNat 12 w)) else .error .tooWide

/-- Decoding plain bits: total, rejecting by name. -/
def decodeBits (nbits w : Nat) : Except Reject Instr :=
  match codeOfBits nbits w with
  | .ok code => decode code
  | .error r => .error r

/-- What the decoder reads from a row's bits (none where it rejects). -/
def decodeTableWord (nbits w : Nat) : Option Instr :=
  match decodeBits nbits w with
  | .ok i => some i
  | .error _ => none

/-! ### The encoder -/

/-- R70: `word = op * 256 + operand`; R61: `op` in bits 11:8, the argument in bits 7:0. -/
def commandWord (op : BitVec 4) (arg : Byte) : CmdWord := op ++ arg

def nopWord : CmdWord := commandWord 0x0 0
def initWord : CmdWord := commandWord 0x1 0
def dataWord (b : Byte) : CmdWord := commandWord 0x2 b
def finalWord : CmdWord := commandWord 0x3 0
def rdwWord (i : BitVec 3) : CmdWord := commandWord 0x4 (i.setWidth 8)
def rdbWord (i : BitVec 5) : CmdWord := commandWord 0x5 (i.setWidth 8)
def rdxWord (i : BitVec 6) : CmdWord := commandWord 0x6 (i.setWidth 8)
def rdsWord : CmdWord := commandWord 0x7 0

/-- The code that selects an instruction: R62 and R63 for commands, R69 for steps. -/
def encode : Instr → Code
  | .nop => .cmd12 nopWord
  | .init => .cmd12 initWord
  | .data b => .cmd12 (dataWord b)
  | .final => .cmd12 finalWord
  | .rdw i => .cmd12 (rdwWord i)
  | .rdb i => .cmd12 (rdbWord i)
  | .rdx i => .cmd12 (rdxWord i)
  | .rds => .cmd12 rdsWord
  | .illegal c => .cmd12 c
  | .pad => .phase3 2
  | .load => .phase3 3
  | .expand => .phase3 4
  | .round => .phase3 5
  | .accum => .phase3 6

end Sys2Proof
end

