-- ==== Sys2Proof/Config.lean ====
section
/-! DEFINITION. What is fixed for the machine and the values the spec leaves open. A free value is an opaque
constant: nothing evaluates it, so a claim that mentions it holds whatever it is. -/

namespace Sys2Proof.Config

/-- The longest message with a digest, `2^61 - 1` bytes (`MAX_MSG_BYTES`, R5; 90_conflicts.md C4). -/
def maxMsgBytes : Nat := 2 ^ 61 - 1

/-- The default of the open parameter `N_INST` (R5, 92_eei_decisions.md D20). -/
def defaultInstances : Nat := 1

/-- Which `Reset` event draws free values: of which engine instance, and how many it drew before. `engine` names the
instance for the free values alone; the hardware has no such register (R169), and nothing reads it but the draws
(log 5). -/
structure Draws where
  engine : Nat
  count : Nat
  deriving DecidableEq, Repr

/-- The next `Reset` of the same instance. -/
def Draws.next (d : Draws) : Draws := { d with count := d.count + 1 }

/-- FREE VALUE: what the `n`-th `Reset` of an instance leaves in `H` (R10, R180: unspecified; log 5). -/
opaque drawH : Draws → Fin 8 → Word

/-- FREE VALUE: what it leaves in `V` (R11, R180; log 5). -/
opaque drawV : Draws → Fin 8 → Word

/-- FREE VALUE: what it leaves in `W` (R12, R180; log 5). -/
opaque drawW : Draws → Fin 64 → Word

/-- FREE VALUE: what it leaves in `M` (R13, R180; log 5). -/
opaque drawM : Draws → Fin 64 → Byte

/-- FREE VALUE: what step `EXPAND` writes when `T < 16`, a state that no run reaches and to which R111 gives no
operands (log 7). A function of `T` and the schedule store. -/
opaque expandBelow16 : Index → Schedule → Word

end Sys2Proof.Config
end

