-- ==== Sys2Proof/Machine/State.lean ====
section
/-! DEFINITION. The state of one engine instance (10_state.md), as plain data, and the reasons a step can stop. -/

namespace Sys2Proof.Machine

/-- The eight codes of the `PHASE` register; all are used (R15). -/
inductive Phase where
  /-- 0: after reset, no session yet. -/
  | idle
  /-- 1: session open, taking message bytes. -/
  | absorb
  /-- 2: busy, about to build a padding block in `M`. -/
  | pad
  /-- 3: busy, about to copy `M` into `W[0..15]` and `H` into `V`. -/
  | load
  /-- 4: busy, computing `W[T]`. -/
  | expand
  /-- 5: busy, round `T`. -/
  | round
  /-- 6: busy, about to add `V` into `H`. -/
  | accum
  /-- 7: digest valid in `H`. -/
  | done
  deriving DecidableEq, Repr

/-- The three fault causes (R160); their codes are in Machine/Flags.lean. -/
inductive Cause where
  | illegal
  | phase
  | overflow
  deriving DecidableEq, Repr

/-- A response (R65): 32 data bits and the error bit. -/
structure Response where
  data : Word
  err : Bool
  deriving DecidableEq, Repr

/-- What the host does next (R47; log 1): present a command word, assert reset, or let one turn pass in which the
engine may take a step of its own. -/
inductive Input where
  | present (c : CmdWord)
  | reset
  | idle
  deriving DecidableEq, Repr

/-- A store of bytes, in one canonical form: addresses strictly rising, no entry equal to what an unlisted
address reads as (`Memory.wf`, Machine/Ops.lean). The engine has one, `M` (R13, R40). -/
abbrev Memory := List Host.Cell

/-- One engine instance. Every register of R10 to R21 under its own name, and three fields of the model's own. -/
structure State where
  /-- `H[0..7]`, the hash state (R10). -/
  h : Words8
  /-- `V[0..7]`, the working registers `a..h` (R11, R8). -/
  v : Words8
  /-- `W[0..63]`, the schedule store (R12). -/
  w : Schedule
  /-- `M[0..63]`, the block buffer (R13). -/
  m : Memory
  /-- `PHASE` (R15). -/
  phase : Phase
  /-- `T` (R17). -/
  t : Index
  /-- `BI` (R18). -/
  bi : Index
  /-- `LEN` (R19). -/
  len : Length
  /-- `MK` (R20). -/
  mark : Bool
  /-- `LW` (R20). -/
  lw : Bool
  /-- `ERR` (R21). -/
  err : Bool
  /-- `ECAUSE` (R21). -/
  ecause : BitVec 2
  /-- `ECMD` (R21). -/
  ecmd : CmdWord
  /-- `OVF` (R21). -/
  ovf : Bool
  /-- The MODEL's: the response of the transition just taken, none when it executed no command (R65; log 3). -/
  rsp : Option Response
  /-- The MODEL's: what the host does from now on, in order (R24, R47; log 1). -/
  inputs : List Input
  /-- The MODEL's: how many `Reset` events have drawn free values, and for which instance (log 5). -/
  draws : Config.Draws
  deriving DecidableEq, Repr

/-- The machine right after reset (R180, R10 to R21). `H`, `V`, `W`, `M` are unspecified there: the zeros are the
model's own (DESIGN CHOICE, unsafe, log 4). No input is waiting. -/
def State.reset : State where
  h := Vector.replicate 8 0
  v := Vector.replicate 8 0
  w := Vector.replicate 64 0
  m := []
  phase := .idle
  t := 0
  bi := 0
  len := 0
  mark := false
  lw := false
  err := false
  ecause := 0
  ecmd := 0
  ovf := false
  rsp := none
  inputs := []
  draws := ⟨0, 0⟩

/-- Reasons for the machine to stop with a fault: none. What the spec calls a fault is a next state (R162), a step
never faults (R160), and no index can leave its space (R41). Log 21. -/
inductive Fault where
  deriving DecidableEq, Repr

/-- Reasons for the model to give an instruction no meaning. -/
inductive Refusal where
  /-- Raised by `exec` for an instruction that has no meaning yet (safe); no arm raises it. -/
  | notModelled (mnemonic : String)
  deriving DecidableEq, Repr

end Sys2Proof.Machine
end

