-- ==== Sys2Proof/Machine/Flags.lean ====
section
/-! DEFINITION. Codes, derived signals and the status word (10_state.md section 4). -/

namespace Sys2Proof.Machine

/-- The code of a phase (R15). -/
def Phase.code : Phase → PhaseCode
  | .idle => 0
  | .absorb => 1
  | .pad => 2
  | .load => 3
  | .expand => 4
  | .round => 5
  | .accum => 6
  | .done => 7

/-- The phase of a code; every code has one (R15). -/
def Phase.ofCode (p : PhaseCode) : Phase :=
  match p.toNat with
  | 0 => .idle
  | 1 => .absorb
  | 2 => .pad
  | 3 => .load
  | 4 => .expand
  | 5 => .round
  | 6 => .accum
  | _ => .done

/-- Busy phases: `PAD`, `LOAD`, `EXPAND`, `ROUND`, `ACCUM` (R22). -/
def Phase.busy : Phase → Bool
  | .pad | .load | .expand | .round | .accum => true
  | .idle | .absorb | .done => false

/-- `BUSY` (R22), also the output `busy` (R166). -/
def State.busy (s : State) : Bool := s.phase.busy

/-- `DONE` (R22), also the output `done` (R166). -/
def State.done (s : State) : Bool := s.phase == .done

/-- The cause codes of R160; 0 means no fault recorded. -/
def Cause.code : Cause → BitVec 2
  | .illegal => 1
  | .phase => 2
  | .overflow => 3

/-- `STATUS` (R23): 31:28 reserved 0, 27:16 `ECMD`, 15:10 reserved 0, 9:8 `ECAUSE`, 7 reserved 0, 6 `OVF`, 5 `ERR`,
4 `DONE`, 3 `BUSY`, 2:0 `PHASE`. -/
def State.status (s : State) : Word :=
  0#4 ++ s.ecmd ++ 0#6 ++ s.ecause ++ 0#1 ++ BitVec.ofBool s.ovf ++ BitVec.ofBool s.err ++
    BitVec.ofBool s.done ++ BitVec.ofBool s.busy ++ s.phase.code

/-- `Ready(state, c)` (R66): opcode 0 or 7, or not busy. It depends only on `c[11:8]` and `BUSY`. -/
def State.ready (s : State) (c : CmdWord) : Bool :=
  CmdWord.op c == 0x0 || CmdWord.op c == 0x7 || !s.busy

end Sys2Proof.Machine
end

