-- ==== Sys2Proof/Machine/Bits.lean ====
section
/-! DEFINITION. The bit and byte functions of 40_bit_byte_functions.md section 1 and 2. Sums and shifts are computed
on natural numbers and narrowed once, as the rules write them. `and`, `xor`, `not` (R83) are `&&&`, `^^^`, `~~~`. -/

namespace Sys2Proof

/-- `add32(x1, ..., xn) = (x1 + ... + xn) mod 2^32` (R80): the only addition of the datapath. -/
def add32 (xs : List Word) : Word := BitVec.ofNat 32 (xs.map BitVec.toNat).sum

/-- `rotr(x, n) = ((x >> n) + (x << (32 - n))) mod 2^32`, `n` in `0..31` (R81). No other amount has a meaning, so
none can be written (log 25). -/
def rotr (x : Word) (n : Fin 32) : Word :=
  BitVec.ofNat 32 ((x.toNat >>> n.val) + (x.toNat <<< (32 - n.val)))

/-- `x >> n = x div 2^n`, the logical right shift (R82). -/
def shr (x : Word) (n : Fin 32) : Word := BitVec.ofNat 32 (x.toNat / 2 ^ n.val)

/-- `bytesToWord(b0, b1, b2, b3)`, big-endian (R84). -/
def bytesToWord (b0 b1 b2 b3 : Byte) : Word :=
  BitVec.ofNat 32 (b0.toNat * 2 ^ 24 + b1.toNat * 2 ^ 16 + b2.toNat * 2 ^ 8 + b3.toNat)

/-- `wordToBytes(x)`: the four bytes of `x`, most significant first (R85). -/
def wordToBytes (x : Word) : List Byte :=
  [x.extractLsb' 24 8, x.extractLsb' 16 8, x.extractLsb' 8 8, x.extractLsb' 0 8]

/-- Byte `k` of the `n`-byte big-endian image of `v`: `v[8(n-1-k)+7 : 8(n-1-k)]` (R7, `MemWrite`). -/
def imageByte (n v k : Nat) : Byte := BitVec.ofNat 8 (v >>> (8 * (n - 1 - k)))

/-- `be64(v)`: eight bytes, most significant first (R87). -/
def be64 (v : BitVec 64) : List Byte := (List.range 8).map (imageByte 8 v.toNat)

/-- The bit length `LEN * 8` as a 64-bit number (R19, R93). -/
def bitLength (len : Length) : BitVec 64 := BitVec.ofNat 64 (len.toNat * 8)

end Sys2Proof
end

