-- ==== Sys2Proof/Machine/Compression.lean ====
section
/-! DEFINITION. The mixing functions and the compression of one block as pure functions (41_compression_engine.md
sections 1 and 3). The engine steps of Machine/Engine.lean use the same mixing functions, one word or one round
at a time. -/

namespace Sys2Proof

/-- `s0` (R100); the third term is a shift. -/
def smallSigma0 (x : Word) : Word := rotr x 7 ^^^ rotr x 18 ^^^ shr x 3

/-- `s1` (R101); the third term is a shift. -/
def smallSigma1 (x : Word) : Word := rotr x 17 ^^^ rotr x 19 ^^^ shr x 10

/-- `S0` (R102). -/
def bigSigma0 (x : Word) : Word := rotr x 2 ^^^ rotr x 13 ^^^ rotr x 22

/-- `S1` (R103). -/
def bigSigma1 (x : Word) : Word := rotr x 6 ^^^ rotr x 11 ^^^ rotr x 25

/-- `ch` (R104). -/
def ch (x y z : Word) : Word := (x &&& y) ^^^ (~~~x &&& z)

/-- `maj` (R105). -/
def maj (x y z : Word) : Word := (x &&& y) ^^^ (x &&& z) ^^^ (y &&& z)

/-- Word `i` of a schedule store: an index is as wide as the space (R41). -/
def wordAt (w : Schedule) (i : Index) : Word := w[i.toNat]'i.isLt

/-- The store with word `i` replaced. -/
def setWord (w : Schedule) (i : Index) (x : Word) : Schedule := w.set i.toNat x i.isLt

/-- The schedule recurrence at `j`, `16 <= j` (R107, R111):
`add32(w[j-16], s0(w[j-15]), w[j-7], s1(w[j-2]))`. -/
def scheduleWord (w : Schedule) (j : Index) : Word :=
  add32 [wordAt w (j - 16), smallSigma0 (wordAt w (j - 15)), wordAt w (j - 7), smallSigma1 (wordAt w (j - 2))]

/-- The indices `16..63`, in order (R107). -/
def expandIndices : List Index := (List.range 48).map fun n => BitVec.ofNat 6 (16 + n)

/-- The indices `0..63`, in order (R109). -/
def roundIndices : List Index := (List.range 64).map fun n => BitVec.ofNat 6 n

/-- Word `j` of a block, big-endian (R91, R107). -/
def blockWord (b : Block) (j : Fin 16) : Word :=
  bytesToWord (b[4 * j.val]'(by omega)) (b[4 * j.val + 1]'(by omega)) (b[4 * j.val + 2]'(by omega))
    (b[4 * j.val + 3]'(by omega))

/-- The store before the recurrence: the sixteen words of the block, the rest not computed yet. -/
def scheduleStart (b : Block) : Schedule :=
  Vector.ofFn fun i => if h : i.val < 16 then blockWord b ⟨i.val, h⟩ else 0

/-- `Schedule(B)` (R107). -/
def schedule (b : Block) : Schedule :=
  expandIndices.foldl (fun w j => setWord w j (scheduleWord w j)) (scheduleStart b)

/-- `temp1` of R108. -/
def temp1 (v : Words8) (k w : Word) : Word := add32 [v[7], bigSigma1 v[4], ch v[4] v[5] v[6], k, w]

/-- `temp2` of R108. -/
def temp2 (v : Words8) : Word := add32 [bigSigma0 v[0], maj v[0] v[1] v[2]]

/-- `RoundFn(v, k, w)` (R108): all eight right-hand sides are read before any write. -/
def roundFn (v : Words8) (k w : Word) : Words8 :=
  #v[add32 [temp1 v k w, temp2 v], v[0], v[1], v[2], add32 [v[3], temp1 v k w], v[4], v[5], v[6]]

/-- `v_64` of R109: the sixty-four rounds. -/
def rounds (h : Words8) (w : Schedule) : Words8 :=
  roundIndices.foldl (fun v j => roundFn v (roundConstant j) (wordAt w j)) h

/-- The state update of R109 and R113: `add32(h[i], v[i])`, word by word. -/
def addWords (h v : Words8) : Words8 := Vector.ofFn fun i => add32 [h[i], v[i]]

/-- `Compress(h, B)` (R109). -/
def compress (h : Words8) (b : Block) : Words8 := addWords h (rounds h (schedule b))

end Sys2Proof
end

