-- ==== Sys2Proof/Machine/Digest.lean ====
section
/-! DEFINITION. Padding, partition, the whole hash and the forms of its result, as pure functions
(40_bit_byte_functions.md section 3, 42_digest_driver.md section 2). They fix the values; the engine computes them
block by block. -/

namespace Sys2Proof

/-- `k = (55 - L) mod 64`, the number of zero bytes of the padding (R88), without subtraction below zero. -/
def padZeros (len : Nat) : Nat := (55 + 63 * len) % 64

/-- The bytes of `Pad(m)` (R88): the message, `0x80`, `k` zero bytes, the bit length in eight bytes. -/
def padBytes (m : List Byte) : List Byte :=
  m ++ [0x80] ++ List.replicate (padZeros m.length) 0 ++ be64 (BitVec.ofNat 64 (8 * m.length))

/-- `Pad(m)`: not defined for a message of `2^61` bytes or more (R88, R92; log 17). -/
def pad (m : List Byte) : Option (List Byte) :=
  if m.length ≤ Config.maxMsgBytes then some (padBytes m) else none

/-- `NB(L)`, the number of blocks (R89). -/
def numBlocks (len : Nat) : Nat := (len + 8) / 64 + 1

/-- `B_i = p[64 i .. 64 i + 63]` (R91). -/
def blockAt (p : List Byte) (i : Nat) : Block := Vector.ofFn fun j => p.getD (64 * i + j.val) 0

/-- `Blocks(p)` for `p` of length `64 n` (R91). -/
def blocks (p : List Byte) : List Block := (List.range (p.length / 64)).map (blockAt p)

/-- The blocks of the padded message, compressed in order from `IV` (R131, R48). -/
def hashBlocks (bs : List Block) : Words8 := bs.foldl compress initialHash

/-- `Hash(m)` (R131): no value for a message too long to pad (R92; log 17). -/
def messageHash (m : List Byte) : Option Words8 := (pad m).map fun p => hashBlocks (blocks p)

/-- `DigestBytes(h)` (R132): the concatenation of `wordToBytes` of the eight words. -/
def digestBytes (h : Words8) : List Byte := h.toList.flatMap wordToBytes

/-- Code of the lowercase hexadecimal digit of a nibble (R133): `0x30 + n` for `n <= 9`, else `0x61 + (n - 10)`. -/
def hexCode (n : BitVec 4) : Byte :=
  if n.toNat ≤ 9 then BitVec.ofNat 8 (0x30 + n.toNat) else BitVec.ofNat 8 (0x61 + (n.toNat - 10))

/-- `HexChar(n)` (R133) as a character. -/
def hexChar (n : BitVec 4) : Char := Char.ofNat (hexCode n).toNat

/-- The eight nibbles of a word, most significant first (R134). -/
def wordNibbles (x : Word) : List (BitVec 4) := (List.range 8).map fun k => x.extractLsb' (28 - 4 * k) 4

/-- `DigestHex(h)` (R134) as the 64 character codes that `RDX` answers. -/
def digestHex (h : Words8) : List Byte := (h.toList.flatMap wordNibbles).map hexCode

/-- `DigestHex(h)` as a string of characters. -/
def digestHexString (h : Words8) : String := String.ofList ((h.toList.flatMap wordNibbles).map hexChar)

/-- `HashHex(m) = DigestHex(Hash(m))` (R134), the source's `hash(message)`. -/
def hashHex (m : List Byte) : Option (List Byte) := (messageHash m).map digestHex

end Sys2Proof
end

