-- ==== Sys2Proof/Machine/Operands.lean ====
section
/-! DEFINITION. The digest view of `H` (20_memory.md R40): the operands of `RDW`, `RDB`, `RDX` as bit fields of the
eight words. Every index is as wide as its view, so none is out of range (R41, R63). -/

namespace Sys2Proof.Machine

/-- Digest word `i` (R145). -/
def digestWord (h : Words8) (i : BitVec 3) : Word := h[i.toNat]'i.isLt

/-- Digest byte `i`: `h[i div 4][31 - 8 (i mod 4) : 24 - 8 (i mod 4)]` (R132, R146). -/
def digestByte (h : Words8) (i : BitVec 5) : Byte :=
  (h[i.toNat / 4]'(by have := i.isLt; omega)).extractLsb' (24 - 8 * (i.toNat % 4)) 8

/-- Digest nibble `i`: `h[i div 8][31 - 4 (i mod 8) : 28 - 4 (i mod 8)]` (R134). -/
def digestNibble (h : Words8) (i : BitVec 6) : BitVec 4 :=
  (h[i.toNat / 8]'(by have := i.isLt; omega)).extractLsb' (28 - 4 * (i.toNat % 8)) 4

/-- Code of digest character `i` (R133, R134, R147). -/
def digestCharCode (h : Words8) (i : BitVec 6) : Byte := hexCode (digestNibble h i)

/-- `zext_32` (R7). -/
def zext32 (b : Byte) : Word := b.setWidth 32

end Sys2Proof.Machine
end

