-- ==== Sys2Proof/Machine/Ops.lean ====
section
/-! DEFINITION. The named operations over memory and registers, the one fault entry (R162), reset (R180), and how a
command is accepted, held or refused (R66, R139). -/

namespace Sys2Proof.Machine

/-! ### The block buffer `M` -/

/-- What a byte of `M` that nothing has written reads as: the spec leaves it unspecified (R13), the model names 0
(DESIGN CHOICE, unsafe, log 6). -/
def unwrittenByte : Byte := 0

/-- The byte listed at key `a`, or the unwritten byte. -/
def lookupCell : List Host.Cell → Nat → Byte
  | [], _ => unwrittenByte
  | (k, x) :: rest, a => if k = a then x else lookupCell rest a

/-- Put byte `b` at key `a`, keeping the keys rising and listing no unwritten byte. -/
def insertCell : List Host.Cell → Nat → Byte → List Host.Cell
  | [], a, b => if b = unwrittenByte then [] else [(a, b)]
  | (k, x) :: rest, a, b =>
    if a < k then (if b = unwrittenByte then (k, x) :: rest else (a, b) :: (k, x) :: rest)
    else if a = k then (if b = unwrittenByte then rest else (a, b) :: rest)
    else (k, x) :: insertCell rest a b

/-- Keys are at least `lo`, rising and below 64, and no cell holds the unwritten byte. -/
def cellsFrom : Nat → List Host.Cell → Bool
  | _, [] => true
  | lo, (k, x) :: rest => lo ≤ k && k < 64 && x != unwrittenByte && cellsFrom (k + 1) rest

/-- The canonical form of a memory. -/
def Memory.wf (m : Memory) : Bool := cellsFrom 0 m

/-- `M[a]`. The index is as wide as the space, so it cannot leave it (R41). -/
def Memory.read (m : Memory) (a : Index) : Byte := lookupCell m a.toNat

/-- `M[a] <- b`. -/
def Memory.write (m : Memory) (a : Index) (b : Byte) : Memory := insertCell m a.toNat b

/-- `M[i] <- 0x00` for `i` in `lo .. hi`, an empty range when `hi < lo` (R144). -/
def Memory.fillZero (m : Memory) (lo hi : Nat) : Memory :=
  ((List.range 64).filter fun i => lo ≤ i && i ≤ hi).foldl (fun m i => m.write (BitVec.ofNat 6 i) 0) m

/-- `MemRead(addr, n)` (R7): the `n` bytes from `addr` on as one number, `M[addr]` most significant. Every use is in
range by construction (R44). -/
def Memory.memRead (m : Memory) (addr : Index) (n : Nat) : Nat :=
  (List.range n).foldl (fun acc k => acc * 256 + (m.read (addr + BitVec.ofNat 6 k)).toNat) 0

/-- `MemWrite(addr, n, v)` (R7): the `n`-byte big-endian image of `v` at `M[addr] .. M[addr+n-1]`. -/
def Memory.memWrite (m : Memory) (addr : Index) (n v : Nat) : Memory :=
  (List.range n).foldl (fun m k => m.write (addr + BitVec.ofNat 6 k) (imageByte n v k)) m

/-- The buffer as a block (R13, R115). -/
def Memory.block (m : Memory) : Block := Vector.ofFn fun i => m.read (BitVec.ofNat 6 i.val)

/-- The buffer that holds the given bytes. -/
def Memory.ofBytes (f : Fin 64 → Byte) : Memory :=
  (List.finRange 64).foldl (fun m i => m.write (BitVec.ofNat 6 i.val) (f i)) []

/-- One byte of the buffer, as claims read it. -/
def State.readM (s : State) (a : Index) : Byte := s.m.read a

/-- Step `PAD`'s length field: `MemWrite(56, 8, bitlen)` (R144). -/
def Memory.lengthField (m : Memory) (len : Length) : Memory := m.memWrite 56 8 (bitLength len).toNat

/-- `M[lo..63]` written in one transition, `M[a] <- f a`. -/
def Memory.writeFrom (m : Memory) (lo : Nat) (f : Index → Byte) : Memory :=
  ((List.range 64).filter (lo ≤ ·)).foldl (fun m i => m.write (BitVec.ofNat 6 i) (f (BitVec.ofNat 6 i))) m

/-- How many bytes of `M`, the last ones, a step `PAD` moves: 9 to 64 (20_memory.md R45), all of `M[BI..63]`, or of `M` in
the second padding block (R144). DEDUCED: with `MK = 0` and `BI >= 56`, where R144 gives a new value to `64 - BI` bytes only,
the nine of R45 are `M[55..63]`, those below `BI` keeping the value R144 leaves them (log 26). -/
def padWidth (bi : Index) (mark : Bool) : Nat := if mark then 64 else max 9 (64 - bi.toNat)

/-- The contents of `M` that step `PAD` leaves (R144 line 1). It is one write of the last `padWidth` bytes, as R45 has
it: `padMemory_eq_writeFrom` in Laws/Memory.lean. -/
def padMemory (m : Memory) (bi : Index) (len : Length) (mark : Bool) : Memory :=
  if mark = false then
    if bi.toNat ≤ 55 then ((m.write bi 0x80).fillZero (bi.toNat + 1) 55).lengthField len
    else (m.write bi 0x80).fillZero (bi.toNat + 1) 63
  else (m.fillZero 0 55).lengthField len

/-! ### The schedule store and the hash state -/

/-- The schedule store that step `LOAD` leaves: `W[i] <- MemRead(4*i, 4)` for `i` in `0..15` (R110 line 1). -/
def loadWords (m : Memory) (w : Schedule) : Schedule :=
  Vector.ofFn fun i => if i.val < 16 then BitVec.ofNat 32 (m.memRead (BitVec.ofNat 6 (4 * i.val)) 4) else w[i]

/-- What step `EXPAND` writes at `W[j]`: the recurrence for `16 <= j` (R111); below that no run goes and the value is
free (log 7). -/
def expandValue (w : Schedule) (j : Index) : Word :=
  if 16 ≤ j.toNat then scheduleWord w j else Config.expandBelow16 j w

/-! ### Responses and the fault entry -/

/-- `rsp <- (d, 0)` (R65). -/
def State.respond (s : State) (d : Word) : State := { s with rsp := some ⟨d, false⟩ }

/-- A transition that executes no command answers nothing (R65; log 3). -/
def State.silent (s : State) : State := { s with rsp := none }

/-- Fault entry `Fault(cause, c)` (R162). The cause and the word are recorded for the first fault since the last
`INIT` or reset; cause 3 sets `OVF` always; the response is (0, 1); nothing else is written, and there is no handler
to go to and nothing to return from (R165). -/
def State.raiseFault (s : State) (cause : Cause) (c : CmdWord) : State :=
  { s with
    err := true
    ecause := if s.err then s.ecause else cause.code
    ecmd := if s.err then s.ecmd else c
    ovf := s.ovf || cause == .overflow
    rsp := some ⟨0, true⟩ }

/-- What clears a recorded fault: `ERR`, `ECAUSE`, `ECMD`, `OVF` all to 0 (R21, R141, R165). -/
def State.clearFaults (s : State) : State := { s with err := false, ecause := 0, ecmd := 0, ovf := false }

/-! ### Acceptance (R66) and legality (R139) -/

/-- A command whose ready condition is false is held: it stays presented and nothing happens (R9, R66; log 9). -/
def State.hold (s : State) (c : CmdWord) : State := { s.silent with inputs := .present c :: s.inputs }

/-- R66: an accepted command is executed, any other is held. -/
def whenReady (s : State) (c : CmdWord) (executed : State) : Host.Outcome State Fault Refusal :=
  if s.ready c then .next executed else .next (s.hold c)

/-- R139 line 3: a well-formed command that is not legal in the current phase raises `Fault(2, c)`. -/
def whenLegal (s : State) (legal : Phase → Bool) (c : CmdWord) (performed : State) : State :=
  if legal s.phase then performed else s.raiseFault .phase c

/-- The phases in which a session can be opened (R141). -/
def opensSession : Phase → Bool
  | .idle | .absorb | .done => true
  | .pad | .load | .expand | .round | .accum => false

/-- The one phase that takes message bytes (R142, R143). -/
def takesMessage (p : Phase) : Bool := p == .absorb

/-- The one phase in which the digest can be read (R145 to R147). -/
def showsDigest (p : Phase) : Bool := p == .done

/-- A digest read: `rsp <- (d, 0)` in `DONE`, a fault elsewhere, no state written (R145 to R147). -/
def readDigest (s : State) (c : CmdWord) (d : Word) : Host.Outcome State Fault Refusal :=
  whenReady s c (whenLegal s showsDigest c (s.respond d))

/-! ### Reset -/

/-- The `Reset` event (R180): control and fault registers to their reset values, no response, and `H`, `V`, `W`, `M`
to values the spec leaves unspecified: free values, fresh at each reset and unrelated between instances (log 5). -/
def State.resetEvent (s : State) : State :=
  { State.reset with
    h := Vector.ofFn (Config.drawH s.draws)
    v := Vector.ofFn (Config.drawV s.draws)
    w := Vector.ofFn (Config.drawW s.draws)
    m := Memory.ofBytes (Config.drawM s.draws)
    inputs := s.inputs
    draws := s.draws.next }

end Sys2Proof.Machine
end

