-- ==== Sys2Proof/Machine/Commands.lean ====
section
/-! DEFINITION. The meanings of the commands that drive a session, of `NOP`, and of an illegal word
(42_digest_driver.md section 3, 30_encoding.md R67). Each checks readiness, then its legal phases, then overflow, in
the order of R139. -/

namespace Sys2Proof.Machine

/-- `NOP` (R140): responds (0, 0), always ready, legal in every phase. -/
def execNop (s : State) : Host.Outcome State Fault Refusal :=
  whenReady s nopWord (s.respond 0)

/-- The effect of `INIT` (R141): `V`, `W`, `M` stay. -/
def openSession (s : State) : State :=
  { s.clearFaults with h := initialHash, len := 0, bi := 0, t := 0, mark := false, lw := false, phase := .absorb }

/-- `INIT` (R141). -/
def execInit (s : State) : Host.Outcome State Fault Refusal :=
  whenReady s initWord (whenLegal s opensSession initWord ((openSession s).respond 0))

/-- The effect of `DATA b` (R142 lines 1 to 3). -/
def appendByte (b : Byte) (s : State) : State :=
  { s with
    m := s.m.write s.bi b
    len := s.len + 1
    bi := if s.bi.toNat = 63 then 0 else s.bi + 1
    phase := if s.bi.toNat = 63 then .load else s.phase }

/-- `DATA b` (R142): at `LEN = 2^61 - 1` the byte is refused with cause 3. -/
def execData (b : Byte) (s : State) : Host.Outcome State Fault Refusal :=
  whenReady s (dataWord b) (whenLegal s takesMessage (dataWord b)
    (if s.len.toNat = Config.maxMsgBytes then s.raiseFault .overflow (dataWord b) else (appendByte b s).respond 0))

/-- `FINAL` (R143): to `PAD`, nothing else written. -/
def execFinal (s : State) : Host.Outcome State Fault Refusal :=
  whenReady s finalWord (whenLegal s takesMessage finalWord (({ s with phase := .pad } : State).respond 0))

/-- An illegal word (R67): `Fault(1, c)`, checked before the phase. -/
def execIllegal (c : CmdWord) (s : State) : Host.Outcome State Fault Refusal :=
  whenReady s c (s.raiseFault .illegal c)

end Sys2Proof.Machine
end

