-- ==== Sys2Proof/Machine/Engine.lean ====
section
/-! DEFINITION. The meanings of the five engine steps (42_digest_driver.md R144, 41_compression_engine.md R110 to
R113). Which one is taken is selected by `PHASE` (R69, Machine/Fetch.lean), as an opcode selects an instruction, so a
meaning does not look at `PHASE` again (log 20). A step raises no fault and answers nothing. -/

namespace Sys2Proof.Machine

/-- Step `PAD` (R144). The `else` of line 1 is taken whenever `MK = 1` (log 8). -/
def execPad (s : State) : Host.Outcome State Fault Refusal :=
  .next { s.silent with
    m := padMemory s.m s.bi s.len s.mark
    mark := true
    lw := if s.mark = false ∧ 55 < s.bi.toNat then s.lw else true
    bi := 0
    phase := .load }

/-- Step `LOAD` (R110). -/
def execLoad (s : State) : Host.Outcome State Fault Refusal :=
  .next { s.silent with w := loadWords s.m s.w, v := s.h, t := 16, phase := .expand }

/-- Step `EXPAND` (R111). -/
def execExpand (s : State) : Host.Outcome State Fault Refusal :=
  .next { s.silent with
    w := setWord s.w s.t (expandValue s.w s.t)
    t := if s.t.toNat = 63 then 0 else s.t + 1
    phase := if s.t.toNat = 63 then .round else s.phase }

/-- Step `ROUND` (R112). -/
def execRound (s : State) : Host.Outcome State Fault Refusal :=
  .next { s.silent with
    v := roundFn s.v (roundConstant s.t) (wordAt s.w s.t)
    t := if s.t.toNat = 63 then 0 else s.t + 1
    phase := if s.t.toNat = 63 then .accum else s.phase }

/-- Where step `ACCUM` goes (R113 line 2, R20). -/
def afterAccum (mark lw : Bool) : Phase :=
  if mark = false then .absorb else if lw = false then .pad else .done

/-- Step `ACCUM` (R113). -/
def execAccum (s : State) : Host.Outcome State Fault Refusal :=
  .next { s.silent with h := addWords s.h s.v, phase := afterAccum s.mark s.lw }

end Sys2Proof.Machine
end

