-- ==== Sys2Proof/Machine/Reads.lean ====
section
/-! DEFINITION. The meanings of the commands that read the result and the status (42_digest_driver.md R145 to
R148). None writes state other than the response. -/

namespace Sys2Proof.Machine

/-- `RDW i` (R145): `rsp <- (H[i], 0)`. -/
def execRdw (i : BitVec 3) (s : State) : Host.Outcome State Fault Refusal :=
  readDigest s (rdwWord i) (digestWord s.h i)

/-- `RDB i` (R146): byte `i` of the digest, zero-extended. -/
def execRdb (i : BitVec 5) (s : State) : Host.Outcome State Fault Refusal :=
  readDigest s (rdbWord i) (zext32 (digestByte s.h i))

/-- `RDX i` (R147): the code of hexadecimal character `i` of the digest, zero-extended. -/
def execRdx (i : BitVec 6) (s : State) : Host.Outcome State Fault Refusal :=
  readDigest s (rdxWord i) (zext32 (digestCharCode s.h i))

/-- `RDS` (R148): `STATUS` of the state before the transition, always ready, legal in every phase. -/
def execRds (s : State) : Host.Outcome State Fault Refusal :=
  whenReady s rdsWord (s.respond s.status)

end Sys2Proof.Machine
end

