-- ==== Sys2Proof/Machine/Dispatch.lean ====
section
/-! DEFINITION. One arm per instruction. -/

namespace Sys2Proof.Machine

def exec (i : Instr) (s : State) : Host.Outcome State Fault Refusal :=
  match i with
  | .nop => Sys2Proof.Machine.execNop s
  | .init => Sys2Proof.Machine.execInit s
  | .data b => Sys2Proof.Machine.execData b s
  | .final => Sys2Proof.Machine.execFinal s
  | .rdw k => Sys2Proof.Machine.execRdw k s
  | .rdb k => Sys2Proof.Machine.execRdb k s
  | .rdx k => Sys2Proof.Machine.execRdx k s
  | .rds => Sys2Proof.Machine.execRds s
  | .illegal c => Sys2Proof.Machine.execIllegal c s
  | .pad => Sys2Proof.Machine.execPad s
  | .load => Sys2Proof.Machine.execLoad s
  | .expand => Sys2Proof.Machine.execExpand s
  | .round => Sys2Proof.Machine.execRound s
  | .accum => Sys2Proof.Machine.execAccum s

end Sys2Proof.Machine
end

