-- ==== Sys2Proof/Machine/Fetch.lean ====
section
/-! DEFINITION. What comes next: the choice of the next transition from the host's inputs and the sequencer
(20_memory.md R47, 30_encoding.md R66, R69, 41_compression_engine.md R114), and how one instruction is put where the
next step takes it from. -/

namespace Sys2Proof.Machine

/-- The engine step that `PHASE` selects, none when the engine is not busy (R69, R114). -/
def stepSelected (p : Phase) : Option Instr :=
  match decodePhase p.code with
  | .ok i => some i
  | .error _ => none

/-- The engine's own turn: the step `PHASE` selects, or, when it selects none, a wait that changes nothing (R114,
R167). -/
def engineTurn (s : State) : Option Instr × State :=
  match stepSelected s.phase with
  | some i => (some i, s)
  | none => (none, s.silent)

/-- The next transition: the instruction to run and the state to run it in, or no instruction and the next state.
A reset comes before everything (R163); a ready command is accepted (R66); a held command stays presented, blocks
what is behind it, and the engine steps (R47); without input the engine steps by itself (R189; log 2). -/
def fetch (s : State) : Option Instr × State :=
  match s.inputs with
  | [] => engineTurn s
  | .idle :: rest => engineTurn { s with inputs := rest }
  | .reset :: rest => (none, State.resetEvent { s with inputs := rest })
  | .present c :: rest => if s.ready c then (some (decodeCmd c), { s with inputs := rest }) else engineTurn s

/-- Present `c` next. If the engine is busy and would hold `c`, the sequencer is put to rest first, so that the very
next step accepts it (log 10). -/
def presentCommand (c : CmdWord) (s : State) : State :=
  let s' := if s.ready c then s else { s with phase := .idle, t := 0 }
  { s' with inputs := .present c :: s.inputs }

/-- Put the sequencer where it selects the step with code `p`, and let the engine have the next turn. `EXPAND` is at a
position `T` of `16..63` (R16, R111). -/
def selectStep (p : PhaseCode) (s : State) : State :=
  { s with
    phase := Phase.ofCode p
    t := if p = 4 ∧ s.t < 16 then 16 else s.t
    inputs := .idle :: s.inputs }

/-- An opcode-table row's bits, put where the next step takes its instruction from. -/
def presentBits (nbits w : Nat) (s : State) : State :=
  match codeOfBits nbits w with
  | .ok (.cmd12 c) => presentCommand c s
  | .ok (.phase3 p) => selectStep p s
  | .error _ => s

end Sys2Proof.Machine
end

