-- ==== Sys2Proof/Machine/Step.lean ====
section
/-! DEFINITION. One step: one transition of the sequence of 20_memory.md R47. -/

namespace Sys2Proof.Machine

/-- One transition: `Reset`, `Cmd(c)` or `Step`, or a wait (Machine/Fetch.lean says which). -/
def step (s : State) : Host.Outcome State Fault Refusal :=
  match fetch s with
  | (some i, s') => exec i s'
  | (none, s') => .next s'

/-- `s` with an opcode-table row's bits where the next step takes its instruction from (log 10, 16). -/
def State.withFetchWord (s : State) (nbits w : Nat) : State := presentBits nbits w s

end Sys2Proof.Machine
end

