-- ==== Sys2Proof/Machine/Assembler.lean ====
section
/-! DEFINITION. The assembler of command streams (30_encoding.md R70, R71): text to command words. A tool of the
host's, no part of the engine; nothing in the step uses it. Its conventions where the spec is silent are log 15. -/

namespace Sys2Proof.Asm

/-- One line of a program: a command, or a pseudo-command (R71). -/
inductive Item where
  | command (c : CmdWord)
  | msg (text : List Byte)
  | bytes (bs : List Byte)
  | fill (b : Byte) (n : Nat)
  | digest
  | digestb
  | hex
  | hash (text : List Byte)
  | word (c : CmdWord)
  deriving DecidableEq, Repr

/-- Why a line is no program text. -/
inductive Error where
  /-- The mnemonic is none of R62 and R71. -/
  | unknownMnemonic
  /-- An operand is missing, extra, or no numeral or string. -/
  | badOperand
  /-- An operand is out of its range: an assembly error, not an `ILLEGAL` word (R70). -/
  | outOfRange
  /-- A string does not end on its line. -/
  | openString
  /-- A character has no 7-bit ASCII code (R71). -/
  | notAscii
  deriving DecidableEq, Repr

/-- `DIGEST`: `RDW 0 .. RDW 7` (R71). -/
def digestWords : List CmdWord := (List.range 8).map fun i => rdwWord (BitVec.ofNat 3 i)

/-- `DIGESTB`: `RDB 0 .. RDB 31` (R71). -/
def digestByteWords : List CmdWord := (List.range 32).map fun i => rdbWord (BitVec.ofNat 5 i)

/-- `HEX`: `RDX 0 .. RDX 63` (R71). -/
def hexWords : List CmdWord := (List.range 64).map fun i => rdxWord (BitVec.ofNat 6 i)

/-- The expansion of an item (R71): one 12-bit word per command. -/
def Item.expand : Item → List CmdWord
  | .command c => [c]
  | .msg text => text.map dataWord
  | .bytes bs => bs.map dataWord
  | .fill b n => List.replicate n (dataWord b)
  | .digest => digestWords
  | .digestb => digestByteWords
  | .hex => hexWords
  | .hash text => [initWord] ++ text.map dataWord ++ [finalWord] ++ hexWords
  | .word c => [c]

/-- A token of a line: bare text, or the text of a quoted string. -/
inductive Token where
  | bare (cs : List Char)
  | str (cs : List Char)
  deriving DecidableEq, Repr

/-- White space and commas separate tokens (R71 writes `FILL b, n`). -/
def isSeparator (c : Char) : Bool := c == ' ' || c == '\t' || c == '\r' || c == ','

/-- Close a bare token that has characters (kept last first). -/
def flush (cur : List Char) (ts : List Token) : List Token :=
  if cur.isEmpty then ts else .bare cur.reverse :: ts

/-- The tokens of a line, last first; `;` outside a string starts a comment (R70). The second argument is the string
being read, if any. -/
def scan : List Char → Option (List Char) → List Char → List Token → Except Error (List Token)
  | [], none, cur, ts => .ok (flush cur ts)
  | [], some _, _, _ => .error .openString
  | c :: rest, some text, cur, ts =>
    if c == '"' then scan rest none cur (.str text.reverse :: ts) else scan rest (some (c :: text)) cur ts
  | c :: rest, none, cur, ts =>
    if c == ';' then .ok (flush cur ts)
    else if c == '"' then scan rest (some []) [] (flush cur ts)
    else if isSeparator c then scan rest none [] (flush cur ts)
    else scan rest none (c :: cur) ts

/-- The tokens of a line, in order. -/
def tokens (line : List Char) : Except Error (List Token) := (scan line none [] []).map List.reverse

/-- The sixteen digits of a listing (R70), each at the place of its value. -/
def digitChars : List Char := "0123456789abcdef".toList

/-- The value of a digit, a letter in either case (log 15). -/
def digitValue (c : Char) : Option Nat := digitChars.idxOf? c.toLower

/-- The value of digits in a base, none when one is no digit of the base. -/
def digits (base : Nat) (cs : List Char) : Option Nat :=
  cs.foldlM (fun n c => ((digitValue c).filter (· < base)).map (n * base + ·)) 0

/-- A numeral: decimal, or hexadecimal after `0x` (R70). -/
def numeral : List Char → Option Nat
  | [] => none
  | '0' :: 'x' :: [] => none
  | '0' :: 'x' :: cs => digits 16 cs
  | cs => digits 10 cs

/-- An operand below `2^w`; out of range it is an assembly error (R70). -/
def operand (w : Nat) : Token → Except Error (BitVec w)
  | .bare cs =>
    match numeral cs with
    | some n => if n < 2 ^ w then .ok (BitVec.ofNat w n) else .error .outOfRange
    | none => .error .badOperand
  | .str _ => .error .badOperand

/-- The ASCII codes of a string (R71). -/
def ascii : List Char → Except Error (List Byte)
  | [] => .ok []
  | c :: rest => if c.toNat < 128 then (ascii rest).map (BitVec.ofNat 8 c.toNat :: ·) else .error .notAscii

/-- A list of byte operands (`BYTES`, R71). -/
def byteOperands : List Token → Except Error (List Byte)
  | [] => .ok []
  | t :: rest =>
    match operand 8 t with
    | .ok b => (byteOperands rest).map (b :: ·)
    | .error e => .error e

/-- A count: any numeral (`FILL b, n`, `n >= 0`, R71). -/
def count : Token → Except Error Nat
  | .bare cs =>
    match numeral cs with
    | some n => .ok n
    | none => .error .badOperand
  | .str _ => .error .badOperand

/-- The commands and pseudo-commands without operands (R62, R71). -/
def plainItem (name : List Char) : Option Item :=
  if name == "NOP".toList then some (.command nopWord)
  else if name == "INIT".toList then some (.command initWord)
  else if name == "FINAL".toList then some (.command finalWord)
  else if name == "RDS".toList then some (.command rdsWord)
  else if name == "DIGEST".toList then some .digest
  else if name == "DIGESTB".toList then some .digestb
  else if name == "HEX".toList then some .hex
  else none

/-- The commands and pseudo-commands with operands (R62, R71). -/
def operandItem (name : List Char) (args : List Token) : Except Error Item :=
  if name == "DATA".toList then
    match args with
    | [t] => (operand 8 t).map (Item.command ∘ dataWord)
    | _ => .error .badOperand
  else if name == "RDW".toList then
    match args with
    | [t] => (operand 3 t).map (Item.command ∘ rdwWord)
    | _ => .error .badOperand
  else if name == "RDB".toList then
    match args with
    | [t] => (operand 5 t).map (Item.command ∘ rdbWord)
    | _ => .error .badOperand
  else if name == "RDX".toList then
    match args with
    | [t] => (operand 6 t).map (Item.command ∘ rdxWord)
    | _ => .error .badOperand
  else if name == ".word".toList then
    match args with
    | [t] => (operand 12 t).map Item.word
    | _ => .error .badOperand
  else if name == "BYTES".toList then
    match args with
    | [] => .error .badOperand
    | ts => (byteOperands ts).map Item.bytes
  else if name == "FILL".toList then
    match args with
    | [t, u] =>
      match operand 8 t, count u with
      | .ok b, .ok n => .ok (.fill b n)
      | .error e, _ => .error e
      | _, .error e => .error e
    | _ => .error .badOperand
  else if name == "MSG".toList then
    match args with
    | [.str text] => (ascii text).map Item.msg
    | _ => .error .badOperand
  else if name == "HASH".toList then
    match args with
    | [.str text] => (ascii text).map Item.hash
    | _ => .error .badOperand
  else .error .unknownMnemonic

/-- One line (R70): blank and comment lines give nothing. -/
def line (cs : List Char) : Except Error (Option Item) :=
  match tokens cs with
  | .error e => .error e
  | .ok [] => .ok none
  | .ok (.str _ :: _) => .error .unknownMnemonic
  | .ok (.bare name :: args) =>
    match plainItem name with
    | some item => if args.isEmpty then .ok (some item) else .error .badOperand
    | none => (operandItem name args).map some

/-- Text cut into lines. -/
def lines : List Char → List Char → List (List Char)
  | [], cur => [cur.reverse]
  | '\n' :: rest, cur => cur.reverse :: lines rest []
  | c :: rest, cur => lines rest (c :: cur)

/-- The words of some lines, in order. -/
def assembleLines : List (List Char) → Except Error (List CmdWord)
  | [] => .ok []
  | cs :: rest =>
    match line cs with
    | .error e => .error e
    | .ok none => assembleLines rest
    | .ok (some item) => (assembleLines rest).map (item.expand ++ ·)

/-- Program text to the 12-bit words it stands for (R70). -/
def assemble (text : List Char) : Except Error (List CmdWord) := assembleLines (lines text [])

/-- A word as listings show it: three hexadecimal digits (R70). -/
def listing (c : CmdWord) : List Char :=
  (List.range 3).map fun k => digitChars.getD (c.extractLsb' (8 - 4 * k) 4).toNat '0'

end Sys2Proof.Asm
end

