-- ==== Sys2Proof/Machine/Platform.lean ====
section
/-! DEFINITION. A platform of `N_INST` instances (60_exceptions.md R169, 20_memory.md R51): the product of that many
one-instance machines, any of which may move at any time. They share only the ROMs, which no transition writes. -/

namespace Sys2Proof.Machine

/-- `n` instances, each with its complete state and its own port (R169). -/
abbrev Platform (n : Nat) := Vector State n

/-- Instance `i` right after a `Reset` event of its own. `H`, `V`, `W`, `M` hold free values that are drawn under the
instance's number, so that nothing relates those of two instances, after this reset or a later one (R180; log 5, 13). -/
def Platform.engine (i : Nat) : State := { State.reset with draws := ⟨i, 0⟩ }.resetEvent

/-- Every instance right after reset; `n` is the open parameter `N_INST`, by default `Config.defaultInstances`. -/
def Platform.reset (n : Nat := Config.defaultInstances) : Platform n := Vector.ofFn fun i => Platform.engine i.val

/-- Instance `i` moves; nothing else does (R51). -/
def Platform.move {n : Nat} (p : Platform n) (i : Fin n) : Host.Outcome (Platform n) Fault Refusal :=
  match step p[i] with
  | .next t => .next (p.set i.val t i.isLt)
  | .fault r => .fault r
  | .refused r => .refused r

/-- A run in which the instances move in the given order. -/
def Platform.run {n : Nat} : List (Fin n) → Platform n → Host.Outcome (Platform n) Fault Refusal
  | [], p => .next p
  | i :: rest, p =>
    match p.move i with
    | .next q => Platform.run rest q
    | .fault r => .fault r
    | .refused r => .refused r

end Sys2Proof.Machine
end

