-- ==== Sys2Proof/Machine/Port.lean ====
section
/-! DEFINITION. The pins of one instance (30_encoding.md R60) and the reference clock binding (70_reset_and_hazards.md
R188). The binding is one admissible schedule of the machine of Machine/Step.lean and is not built into it (R188,
R190; log 14). -/

namespace Sys2Proof.Machine

/-- What the pins `rst`, `cmd_valid`, `cmd` carry at a rising edge of `clk`. -/
structure PinsIn where
  rst : Bool
  cmdValid : Bool
  cmd : CmdWord
  deriving DecidableEq, Repr

/-- What the engine drives. `rsp` is none when `rsp_valid = 0`; `rsp_err` and `rsp_data` then mean nothing (R60, R65;
log 14). -/
structure PinsOut where
  cmdReady : Bool
  rsp : Option Response
  busy : Bool
  done : Bool
  err : Bool
  deriving DecidableEq, Repr

/-- `rsp_valid` (R60). -/
def PinsOut.rspValid (p : PinsOut) : Bool := p.rsp.isSome

/-- The outputs (R60, R166): functions of the state, and `cmd_ready` also of the presented word. -/
def State.pins (s : State) (p : PinsIn) : PinsOut :=
  { cmdReady := s.ready p.cmd, rsp := s.rsp, busy := s.busy, done := s.done, err := s.err }

/-- A command is accepted at an edge with `rst = 0`, `cmd_valid = 1` and `cmd_ready = 1` (R60). -/
def PinsIn.accepts (p : PinsIn) (s : State) : Bool := !p.rst && p.cmdValid && s.ready p.cmd

/-- `EngineStep(state)` (R114): the step `PHASE` selects; a wait when there is none. -/
def engineStep (s : State) : Host.Outcome State Fault Refusal :=
  match engineTurn s with
  | (some i, s') => exec i s'
  | (none, s') => .next s'

/-- The first half of an edge (R188): the command, if one is accepted. -/
def commandHalf (p : PinsIn) (s : State) : Host.Outcome State Fault Refusal :=
  if p.accepts s then exec (decodeCmd p.cmd) s else .next s.silent

/-- The second half of an edge (R188): the engine's step, if the engine was busy before the edge. The response of the
command of the same edge stays on the pins (R65). -/
def stepHalf (wasBusy : Bool) (s : State) : Host.Outcome State Fault Refusal :=
  if wasBusy then
    match engineStep s with
    | .next t => .next { t with rsp := s.rsp }
    | .fault r => .fault r
    | .refused r => .refused r
  else .next s

/-- One rising edge (R188, R181, R163): `rst` wins over everything; else the command first, then the step, `busy`
judged on the state before the edge. -/
def clockEdge (p : PinsIn) (s : State) : Host.Outcome State Fault Refusal :=
  if p.rst then .next s.resetEvent
  else
    match commandHalf p s with
    | .next s' => stepHalf s.busy s'
    | .fault r => .fault r
    | .refused r => .refused r

end Sys2Proof.Machine
end

