-- ==== Sys2Proof/Safety.lean ====
section
/-! DEFINITION. The terms claims are stated in: runs, the invariants of 10_state.md section 6, sessions
(42_digest_driver.md section 4), and frames. -/

namespace Sys2Proof.Machine

/-! ### Runs -/

/-- `n` steps of the machine lead from `s` to `t`. -/
def runsTo (n : Nat) (s t : State) : Prop := Host.Core.run Sys2Proof.core n s = .next t

/-- The state with another plan of the host's. -/
def State.withInputs (s : State) (is : List Input) : State := { s with inputs := is }

/-- States reachable from reset (R30): by steps, and by the host deciding anew what it does next. -/
inductive Reachable : State → Prop
  | reset : Reachable State.reset
  | host {s : State} (is : List Input) : Reachable s → Reachable (s.withInputs is)
  | step {s t : State} : Reachable s → step s = .next t → Reachable t

/-- The transition that comes next is the execution of `i`. -/
def nextIs (s : State) (i : Instr) : Prop := (fetch s).1 = some i

/-- The transition that comes next is `Reset`. -/
def nextIsReset (s : State) : Prop := ∃ rest, s.inputs = .reset :: rest

/-- The blocks in `M` at the `LOAD` steps among the next `n` transitions (R152). -/
def blocksLoaded : Nat → State → List Block
  | 0, _ => []
  | n + 1, s =>
    (if (fetch s).1 = some .load then [s.m.block] else []) ++
      match step s with
      | .next t => blocksLoaded n t
      | .fault _ => []
      | .refused _ => []

/-- An engine step (R69), as against a command. -/
def isStep : Instr → Bool
  | .pad | .load | .expand | .round | .accum => true
  | .nop | .init | .data _ | .final | .rdw _ | .rdb _ | .rdx _ | .rds | .illegal _ => false

/-- The engine steps among the next `n` transitions, in order (R186, R187). -/
def engineSteps : Nat → State → List Instr
  | 0, _ => []
  | n + 1, s =>
    ((fetch s).1.toList.filter isStep) ++
      match step s with
      | .next t => engineSteps n t
      | .fault _ => []
      | .refused _ => []

/-- The host asserts no reset. -/
def noReset (is : List Input) : Prop := ∀ i ∈ is, i ≠ .reset

/-- The responses given during the next `n` transitions, in order (R65). -/
def responses : Nat → State → List Response
  | 0, _ => []
  | n + 1, s =>
    match step s with
    | .next t => t.rsp.toList ++ responses n t
    | .fault _ => []
    | .refused _ => []

/-! ### Invariants (R30) -/

/-- Items 1 to 11 of R30, one field each. -/
structure State.Consistent (s : State) : Prop where
  /-- Item 1. -/
  idle : s.phase = .idle → s.t = 0 ∧ s.bi = 0 ∧ s.len = 0 ∧ s.mark = false ∧ s.lw = false ∧ s.ovf = false
  /-- Item 2. -/
  absorb : s.phase = .absorb → s.t = 0 ∧ s.mark = false ∧ s.lw = false ∧ s.bi.toNat = s.len.toNat % 64
  /-- Item 3. -/
  pad : s.phase = .pad → s.t = 0 ∧ ((s.mark = false ∧ s.lw = false ∧ s.bi.toNat = s.len.toNat % 64) ∨
    (s.mark = true ∧ s.lw = false ∧ s.bi = 0))
  /-- Item 4. -/
  load : s.phase = .load → s.t = 0 ∧ s.bi = 0
  /-- Item 5. -/
  expand : s.phase = .expand → 16 ≤ s.t.toNat ∧ s.t.toNat ≤ 63 ∧ s.bi = 0
  /-- Item 6. -/
  round : s.phase = .round → 0 ≤ s.t.toNat ∧ s.t.toNat ≤ 63 ∧ s.bi = 0
  /-- Item 7. -/
  accum : s.phase = .accum → s.t = 0 ∧ s.bi = 0
  /-- Item 8. -/
  done : s.phase = .done → s.t = 0 ∧ s.bi = 0 ∧ s.mark = true ∧ s.lw = true
  /-- Item 9. -/
  lengthAfterMark : s.lw = true → s.mark = true
  /-- Item 10. -/
  fault : (s.err = false ↔ s.ecause = 0) ∧ (s.err = false → s.ecmd = 0) ∧ (s.ovf = true → s.err = true)
  /-- Item 11. -/
  length : s.len.toNat ≤ Config.maxMsgBytes

/-- The phases in which a complete block is being compressed. -/
def Phase.compressing : Phase → Bool
  | .load | .expand | .round | .accum => true
  | .idle | .absorb | .pad | .done => false

/-- The invariant that every step keeps: R30, the canonical form of `M`, and what R30 leaves implicit (a block that
is compressed before the marker is written ends at a block boundary of the message). -/
structure State.Inv (s : State) : Prop where
  consistent : s.Consistent
  blockEnd : s.phase.compressing = true → s.mark = false → s.len.toNat % 64 = 0
  memory : s.m.wf = true

/-! ### Sessions (R151, R153, R191) -/

/-- What a host sends for the message `m` (R153): `INIT`, the bytes, `FINAL`. -/
def script (m : List Byte) : List Input :=
  [.present initWord] ++ m.map (fun b => .present (dataWord b)) ++ [.present finalWord]

/-- An input that R153 lets the host interleave: `NOP`, `RDS`, or a turn in which it does nothing. -/
def Input.harmless : Input → Bool
  | .present c => c == nopWord || c == rdsWord
  | .reset => false
  | .idle => true

/-- `is` is the script of `m`, interleaved with any number of `NOP` and `RDS` and no other command (R153). -/
def carries (is : List Input) (m : List Byte) : Prop := is.filter (fun i => !i.harmless) = script m

/-- An input that decides what message a session hashes: `INIT`, `DATA`, `FINAL`, or a reset. -/
def Input.drivesSession : Input → Bool
  | .present c =>
    match decodeCmd c with
    | .init | .data _ | .final => true
    | _ => false
  | .reset => true
  | .idle => false

/-- `is` is the script of `m`, interleaved with any words that are not `INIT`, `DATA` or `FINAL`: reads out of time and
illegal words among them (R164). -/
def carriesWithFaults (is : List Input) (m : List Byte) : Prop := is.filter Input.drivesSession = script m

/-- Two inputs that differ at most in the value of a message byte (R190). -/
def Input.sameShape (i j : Input) : Prop := i = j ∨ ∃ a b, i = .present (dataWord a) ∧ j = .present (dataWord b)

/-- The `p` of R153 (b): padding steps of a session of `len` bytes. -/
def padSteps (len : Nat) : Nat := if len % 64 ≤ 55 then 1 else 2

/-- Engine steps of a session of `len` bytes (R153 (b), R187). -/
def sessionSteps (len : Nat) : Nat := 114 * numBlocks len + padSteps len

/-- R191: the result is final. -/
def State.final (s : State) : Prop := s.phase = .done

/-- A faulted session (R161, 93_implementation_defined.md U1; log 18): no claim about the digest of the message the
host meant to send holds of it. -/
def State.sessionFaulted (s : State) : Prop := s.ovf = true

/-! ### Frames -/

/-- Every byte of `M` reads as before. -/
def sameMemory (s t : State) : Prop := ∀ a : Index, t.readM a = s.readM a

/-- `H`, `V`, `W` as before. -/
def sameDatapath (s t : State) : Prop := t.h = s.h ∧ t.v = s.v ∧ t.w = s.w

/-- `T`, `BI`, `LEN`, `MK`, `LW` as before. -/
def sameCounters (s t : State) : Prop :=
  t.t = s.t ∧ t.bi = s.bi ∧ t.len = s.len ∧ t.mark = s.mark ∧ t.lw = s.lw

/-- `ERR`, `ECAUSE`, `ECMD`, `OVF` as before. -/
def sameFaults (s t : State) : Prop :=
  t.err = s.err ∧ t.ecause = s.ecause ∧ t.ecmd = s.ecmd ∧ t.ovf = s.ovf

/-- The host's plan and the count of resets as before. -/
def sameHost (s t : State) : Prop := t.inputs = s.inputs ∧ t.draws = s.draws

/-- The registers that R154 says depend on the commands since `INIT` alone. -/
def sameSession (s t : State) : Prop :=
  t.h = s.h ∧ t.phase = s.phase ∧ sameCounters s t ∧ sameFaults s t

/-- Everything but the fault registers and the response (R21, R164). -/
def sameButFaults (s t : State) : Prop :=
  sameDatapath s t ∧ t.m = s.m ∧ t.phase = s.phase ∧ sameCounters s t ∧ sameHost s t

/-- Everything but the response. -/
def sameButResponse (s t : State) : Prop := sameButFaults s t ∧ sameFaults s t

/-! ### The transition graph of the sequencer (R116) -/

/-- `PHASE` and `T` after a transition. -/
def goesTo (t : State) (p : Phase) (n : Index) : Prop := t.phase = p ∧ t.t = n

/-- A transition of R116's table, with its event, its condition and where it leads. -/
inductive PhaseEdge (s t : State) : Prop
  | reset : nextIsReset s → goesTo t .idle 0 → PhaseEdge s t
  | init : nextIs s .init → s.phase = .idle ∨ s.phase = .absorb ∨ s.phase = .done → goesTo t .absorb 0 → PhaseEdge s t
  | data (b : Byte) : nextIs s (.data b) → s.phase = .absorb → s.bi.toNat < 63 → s.len.toNat < Config.maxMsgBytes →
      goesTo t .absorb 0 → PhaseEdge s t
  | dataFull (b : Byte) : nextIs s (.data b) → s.phase = .absorb → s.bi.toNat = 63 → s.len.toNat < Config.maxMsgBytes →
      goesTo t .load 0 → PhaseEdge s t
  | final : nextIs s .final → s.phase = .absorb → goesTo t .pad 0 → PhaseEdge s t
  | pad : nextIs s .pad → s.phase = .pad → goesTo t .load 0 → PhaseEdge s t
  | load : nextIs s .load → s.phase = .load → goesTo t .expand 16 → PhaseEdge s t
  | expand : nextIs s .expand → s.phase = .expand → s.t.toNat < 63 → goesTo t .expand (s.t + 1) → PhaseEdge s t
  | expandLast : nextIs s .expand → s.phase = .expand → s.t.toNat = 63 → goesTo t .round 0 → PhaseEdge s t
  | round : nextIs s .round → s.phase = .round → s.t.toNat < 63 → goesTo t .round (s.t + 1) → PhaseEdge s t
  | roundLast : nextIs s .round → s.phase = .round → s.t.toNat = 63 → goesTo t .accum 0 → PhaseEdge s t
  | accumMore : nextIs s .accum → s.phase = .accum → s.mark = false → goesTo t .absorb 0 → PhaseEdge s t
  | accumPad : nextIs s .accum → s.phase = .accum → s.mark = true → s.lw = false → goesTo t .pad 0 → PhaseEdge s t
  | accumDone : nextIs s .accum → s.phase = .accum → s.mark = true → s.lw = true → goesTo t .done 0 → PhaseEdge s t
  /-- Any other accepted command. -/
  | other (i : Instr) : nextIs s i → i = .nop ∨ i = .rds ∨ (∃ k, i = .rdw k) ∨ (∃ k, i = .rdb k) ∨ (∃ k, i = .rdx k) →
      goesTo t s.phase s.t → PhaseEdge s t
  /-- Any faulting command. -/
  | fault : (∃ i, nextIs s i) → (∃ r, t.rsp = some r ∧ r.err = true) → goesTo t s.phase s.t → PhaseEdge s t
  /-- No event: the engine waits for the host (R114, R167). -/
  | wait : (fetch s).1 = none → ¬ nextIsReset s → s.busy = false → goesTo t s.phase s.t → PhaseEdge s t

end Sys2Proof.Machine
end

