-- ==== Sys2Proof/Certificates/Slice0/Obligations.lean ====
section
/-! DEFINITION. What is to be proved of the model: one Prop a statement, each with the rule of the spec it comes
from. Rules are R<n> of spec/; log entries are notes/assumptions/<n>.md. -/

open Sys2Proof Sys2Proof.Machine

/-! ### Encoding -/

/-- Decoding the encoding of any well-formed instruction gives it back, with every operand at every value the
encoding admits (R63, R64, R69). -/
def Obligations.DecodeOfEncodeIsTheInstruction : Prop :=
  ∀ i : Instr, i.wf = true → decode (encode i) = .ok i

/-- Every word and every phase code has exactly one meaning (R64, R69): decoding and encoding again gives the same
bits back, and the phase codes that select no step are `IDLE`, `ABSORB`, `DONE`. 364 of the 4096 words spell a command
(R64 derives the number). -/
def Obligations.EveryCodeHasOneMeaning : Prop :=
  (∀ c : CmdWord, (decodeCmd c).wf = true ∧ encode (decodeCmd c) = .cmd12 c) ∧
  (∀ p : PhaseCode,
    (∀ i, decodePhase p = .ok i → i.wf = true ∧ encode i = .phase3 p) ∧
    (decodePhase p = .error .noStepSelected ↔ p = 0 ∨ p = 1 ∨ p = 7)) ∧
  (List.range 4096).countP (fun n => CmdWord.isIllegal (BitVec.ofNat 12 n)) = 3732

/-- R64, with R63: `Decode(c)` is the command whose pattern of R63 matches (`c and mask = match`, written out here) and
`ILLEGAL` when none does; at most one matches. -/
def Obligations.DecodeFollowsThePatterns : Prop :=
  Pattern.commands.map (fun p => (p.value, p.mask)) =
    [(0x000, 0xfff), (0x100, 0xfff), (0x200, 0xf00), (0x300, 0xfff), (0x400, 0xff8), (0x500, 0xfe0), (0x600, 0xfc0),
      (0x700, 0xfff)] ∧
  ∀ c : CmdWord,
    (decodeCmd c = .nop ↔ c &&& 0xfff = 0x000) ∧
    (decodeCmd c = .init ↔ c &&& 0xfff = 0x100) ∧
    (∀ b, decodeCmd c = .data b ↔ c &&& 0xf00 = 0x200 ∧ b = c.extractLsb' 0 8) ∧
    (decodeCmd c = .final ↔ c &&& 0xfff = 0x300) ∧
    (∀ i, decodeCmd c = .rdw i ↔ c &&& 0xff8 = 0x400 ∧ i = c.extractLsb' 0 3) ∧
    (∀ i, decodeCmd c = .rdb i ↔ c &&& 0xfe0 = 0x500 ∧ i = c.extractLsb' 0 5) ∧
    (∀ i, decodeCmd c = .rdx i ↔ c &&& 0xfc0 = 0x600 ∧ i = c.extractLsb' 0 6) ∧
    (decodeCmd c = .rds ↔ c &&& 0xfff = 0x700) ∧
    (decodeCmd c = .illegal c ↔ ∀ p ∈ Pattern.commands, p.fits c = false) ∧
    (∀ p ∈ Pattern.commands, ∀ q ∈ Pattern.commands, p.fits c = true → q.fits c = true → p = q) ∧
    ∀ p ∈ Pattern.commands, (p.fits c = true ↔ c &&& p.mask = p.value)

/-- Words written out from R63, R67 and R70, and the phase codes of R69. -/
def Obligations.SpecWordsDecode : Prop :=
  decodeCmd 0b000000000000 = .nop ∧ decodeCmd 0b000100000000 = .init ∧
  decodeCmd 0b001001100001 = .data 0x61 ∧ decodeCmd 0b001100000000 = .final ∧
  decodeCmd 0b010000000111 = .rdw 7 ∧ decodeCmd 0b010100011111 = .rdb 31 ∧
  decodeCmd 0b011000111111 = .rdx 63 ∧ decodeCmd 0b011100000000 = .rds ∧
  decodeCmd 0b100000000000 = .illegal 0x800 ∧ decodeCmd 0b001100000001 = .illegal 0x301 ∧
  decodePhase 0b010 = .ok .pad ∧ decodePhase 0b011 = .ok .load ∧ decodePhase 0b100 = .ok .expand ∧
  decodePhase 0b101 = .ok .round ∧ decodePhase 0b110 = .ok .accum

/-! ### The step -/

/-- One step is the execution of the decoded instruction (R47, R66, R69, R114, R163): a ready word at the head of the
host's inputs is accepted; for a held one, and when the host does nothing, the engine takes the step its `PHASE`
selects; reset is the Reset event; with no event the engine waits. The list of inputs is the model's (log 1). -/
def Obligations.StepRunsTheSelectedTransition : Prop :=
  ∀ s : State,
    (∀ c rest, s.inputs = .present c :: rest → s.ready c = true →
      step s = exec (decodeCmd c) (s.withInputs rest)) ∧
    (∀ c rest i, s.inputs = .present c :: rest → s.ready c = false → decodePhase s.phase.code = .ok i →
      step s = exec i s) ∧
    (∀ i, s.inputs = [] → decodePhase s.phase.code = .ok i → step s = exec i s) ∧
    (∀ i rest, s.inputs = .idle :: rest → decodePhase s.phase.code = .ok i → step s = exec i (s.withInputs rest)) ∧
    (∀ rest, s.inputs = .reset :: rest → step s = .next (s.withInputs rest).resetEvent) ∧
    (∀ r, s.inputs = [] → decodePhase s.phase.code = .error r → step s = .next s.silent) ∧
    (∀ r rest, s.inputs = .idle :: rest → decodePhase s.phase.code = .error r →
      step s = .next (s.withInputs rest).silent) ∧
    (∀ c, s.ready c = false → ∃ i, decodePhase s.phase.code = .ok i)

/-- The machine never stops (R160, R167; that no rule stops it is the model's reading, log 21): every instruction, from
every state, leads to a next state, and so does every step. That `exec` answers a next state where no rule of the spec
runs the instruction is the model's choice: for a word that is not ready (log 9; R139 speaks of ready words), for
`EXPAND` at `T < 16` (log 7), for a step outside its phase (log 20). That a wait is a step is too (log 23). -/
def Obligations.MachineNeverStops : Prop :=
  (∀ (i : Instr) (s : State), ∃ t, exec i s = .next t) ∧ ∀ s : State, ∃ t, step s = .next t

/-- R66: which words are ready, and what becomes of a held one: it leaves no trace and is ready after at most 230 engine
steps, still presented, no fault recorded and nothing answered meanwhile. -/
def Obligations.HeldCommandBecomesReady : Prop :=
  (∀ (s : State) (c : CmdWord), s.ready c = true ↔ CmdWord.op c = 0x0 ∨ CmdWord.op c = 0x7 ∨ s.busy = false) ∧
  ∀ (s : State) (c : CmdWord) (rest : List Input), s.Inv → s.inputs = .present c :: rest → s.ready c = false →
    ∃ n t, n ≤ 230 ∧ runsTo n s t ∧ t.inputs = s.inputs ∧ t.ready c = true ∧ t.busy = false ∧ sameFaults s t ∧
      responses n s = []

/-- R186: from any busy state, with no Reset, the engine is not busy after at most 230 engine steps, whatever commands
the host presents. -/
def Obligations.BusyEndsWithin230Steps : Prop :=
  ∀ s : State, s.Inv → s.busy = true → noReset s.inputs →
    ∃ n t, runsTo n s t ∧ t.busy = false ∧ (engineSteps n s).length ≤ 230

/-- Every accepted command answers exactly once (R65), with the error bit set exactly when it faulted, and then with
data 0; an engine step answers nothing. -/
def Obligations.EveryAcceptedCommandAnswersOnce : Prop :=
  (∀ (s : State) (c : CmdWord), s.ready c = true →
    ∃ t r, exec (decodeCmd c) s = .next t ∧ t.rsp = some r ∧
      (r.err = true → r.data = 0) ∧
      (r.err = true ↔
        CmdWord.isIllegal c = true ∨
        (((∃ b, decodeCmd c = .data b) ∨ decodeCmd c = .final) ∧ s.phase ≠ .absorb) ∨
        (((∃ i, decodeCmd c = .rdw i) ∨ (∃ i, decodeCmd c = .rdb i) ∨ (∃ i, decodeCmd c = .rdx i)) ∧ s.phase ≠ .done) ∨
        ((∃ b, decodeCmd c = .data b) ∧ s.len.toNat = Config.maxMsgBytes)) ∧
      ((decodeCmd c = .nop ∨ decodeCmd c = .init ∨ (∃ b, decodeCmd c = .data b) ∨ decodeCmd c = .final) → r.data = 0)) ∧
  ∀ (s t : State) (i : Instr), isStep i = true → exec i s = .next t → t.rsp = none

/-! ### Faults -/

/-- R162: the fault entry writes the cause and the word if no fault was recorded, `OVF` for cause 3, the response
(0, 1), and nothing else. -/
def Obligations.FaultEntryRecordsTheFirstFault : Prop :=
  ∀ (s : State) (k : Cause) (c : CmdWord),
    (s.raiseFault k c).err = true ∧
    (s.err = false → (s.raiseFault k c).ecause = k.code ∧ (s.raiseFault k c).ecmd = c) ∧
    (s.err = true → (s.raiseFault k c).ecause = s.ecause ∧ (s.raiseFault k c).ecmd = s.ecmd) ∧
    (k = .overflow → (s.raiseFault k c).ovf = true) ∧
    (k ≠ .overflow → (s.raiseFault k c).ovf = s.ovf) ∧
    (s.raiseFault k c).rsp = some ⟨0, true⟩ ∧
    sameButFaults s (s.raiseFault k c)

/-- R67: a word is `ILLEGAL` when its opcode is `0x8..0xF` or a must-be-zero bit is 1; accepted in any phase it raises
`Fault(1, c)`, and that is all it does. -/
def Obligations.IllegalWordsFault : Prop :=
  ∀ c : CmdWord,
    (decodeCmd c = .illegal c ↔
      8 ≤ (CmdWord.op c).toNat ∨
      ((CmdWord.op c = 0x0 ∨ CmdWord.op c = 0x1 ∨ CmdWord.op c = 0x3 ∨ CmdWord.op c = 0x7) ∧ CmdWord.arg c ≠ 0) ∨
      (CmdWord.op c = 0x4 ∧ 8 ≤ (CmdWord.arg c).toNat) ∨ (CmdWord.op c = 0x5 ∧ 32 ≤ (CmdWord.arg c).toNat) ∨
      (CmdWord.op c = 0x6 ∧ 64 ≤ (CmdWord.arg c).toNat)) ∧
    ∀ s : State, decodeCmd c = .illegal c → s.ready c = true →
      exec (.illegal c) s = .next (s.raiseFault .illegal c)

/-- What an accepted command does with its legality and its faults, in the order of R139: an illegal word first, then
the phase, then the length. `NOP` and `RDS` leave the fault registers as they were, and after `INIT` `ERR` is 0; that
the three answer with error bit 0, so never fault, is said by EveryAcceptedCommandAnswersOnce. -/
def Obligations.FaultChecksAreOrdered : Prop :=
  ∀ (s : State) (c : CmdWord), s.ready c = true → ∃ t, exec (decodeCmd c) s = .next t ∧
    (CmdWord.isIllegal c = true → t = s.raiseFault .illegal c) ∧
    (CmdWord.op c = 0x2 ∨ c = finalWord → s.phase ≠ .absorb → t = s.raiseFault .phase c) ∧
    (CmdWord.isIllegal c = false → CmdWord.op c = 0x4 ∨ CmdWord.op c = 0x5 ∨ CmdWord.op c = 0x6 → s.phase ≠ .done →
      t = s.raiseFault .phase c) ∧
    (CmdWord.op c = 0x2 → s.phase = .absorb → s.len.toNat = 2 ^ 61 - 1 → t = s.raiseFault .overflow c) ∧
    (c = nopWord ∨ c = initWord ∨ c = rdsWord → sameFaults s t ∨ c = initWord) ∧
    (c = initWord → t.err = false)

/-- In `ABSORB` at `LEN = 2^61 - 1` a byte is refused with `Fault(3, c)`; `OVF` is set even when an earlier fault stays
recorded, and the byte is not stored (R142, R160, R161). -/
def Obligations.OverflowRefusesTheByte : Prop :=
  ∀ (s : State) (b : Byte), s.phase = .absorb → s.len.toNat = 2 ^ 61 - 1 →
    ∃ t, exec (.data b) s = .next t ∧ t.ovf = true ∧ t.err = true ∧ t.rsp = some ⟨0, true⟩ ∧
      (s.err = false → t.ecause = 3 ∧ t.ecmd = dataWord b) ∧
      (s.err = true → t.ecause = s.ecause ∧ t.ecmd = s.ecmd) ∧ sameButFaults s t

/-- R165: a recorded fault stays until an accepted `INIT` or a Reset, which clear it; nothing else does, and a fault
while `ERR = 1` changes nothing but that a refused byte sets `OVF`. -/
def Obligations.FaultsStickUntilInitOrReset : Prop :=
  ∀ s t : State, step s = .next t →
    (s.err = true → ¬ nextIs s .init → ¬ nextIsReset s →
      t.err = true ∧ t.ecause = s.ecause ∧ t.ecmd = s.ecmd ∧ (s.ovf = true → t.ovf = true)) ∧
    (nextIs s .init ∨ nextIsReset s → t.err = false ∧ t.ecause = 0 ∧ t.ecmd = 0 ∧ t.ovf = false) ∧
    (s.ovf = false → t.ovf = true →
      (∃ b, nextIs s (.data b)) ∧ s.phase = .absorb ∧ s.len.toNat = 2 ^ 61 - 1 ∧ t.rsp = some ⟨0, true⟩)

/-- Nothing but the answer of `RDS` depends on the fault registers (R21, R164): from two states that differ in them
alone the machine takes the same transition. -/
def Obligations.FaultRegistersDoNotInfluence : Prop :=
  ∀ s s' t : State, sameButFaults s s' → step s = .next t →
    ∃ t', step s' = .next t' ∧ sameButFaults t t' ∧ (¬ nextIs s .rds → t'.rsp = t.rsp)

/-! ### The commands -/

/-- R140: `NOP` is the word `0x000`, ready always; it answers (0, 0) in every state and writes nothing; a word of opcode
0 with an argument is not `NOP` but illegal. -/
def Obligations.NopChangesNothing : Prop :=
  decodeCmd 0x000 = .nop ∧
  (∀ s : State, s.ready 0x000 = true ∧ exec .nop s = .next { s with rsp := some ⟨0, false⟩ }) ∧
  ∀ c : CmdWord, CmdWord.op c = 0 → CmdWord.arg c ≠ 0 → decodeCmd c = .illegal c

/-- R141: `INIT` is the word `0x100`, ready when the engine is not busy; in any such phase it opens a session: `H = IV`
(the values are R130's, from general knowledge, log 12), counters, flags and fault registers 0, `ABSORB`; `V`, `W`, `M`
stay. -/
def Obligations.InitOpensASession : Prop :=
  decodeCmd 0x100 = .init ∧
  (∀ s : State, s.ready 0x100 = !s.busy) ∧
  ∀ s : State, s.phase = .idle ∨ s.phase = .absorb ∨ s.phase = .done →
    ∃ t, exec .init s = .next t ∧ t.h = initialHash ∧
      t.len = 0 ∧ t.bi = 0 ∧ t.t = 0 ∧ t.mark = false ∧ t.lw = false ∧
      t.err = false ∧ t.ecause = 0 ∧ t.ecmd = 0 ∧ t.ovf = false ∧ t.phase = .absorb ∧
      t.rsp = some ⟨0, false⟩ ∧ t.v = s.v ∧ t.w = s.w ∧ t.m = s.m ∧ sameHost s t

/-- R142: `DATA b` is the word `0x200 + b`, ready when the engine is not busy. In `ABSORB` below the length limit it
stores the byte at `M[BI]` and counts it; the 64th byte of a block starts a compression; nothing else changes. In `IDLE`
and `DONE` it raises `Fault(2, c)`, at `LEN = 2^61 - 1` `Fault(3, c)`. -/
def Obligations.DataAppendsAByte : Prop :=
  ∀ b : Byte,
    (dataWord b).toNat = 0x200 + b.toNat ∧ decodeCmd (dataWord b) = .data b ∧
    (∀ s : State, s.ready (dataWord b) = !s.busy) ∧
    (∀ s : State, s.phase = .absorb → s.len.toNat < 2 ^ 61 - 1 → s.m.wf = true →
      ∃ t, exec (.data b) s = .next t ∧
        (∀ a : Index, t.readM a = if a = s.bi then b else s.readM a) ∧
        t.len.toNat = s.len.toNat + 1 ∧
        (s.bi.toNat = 63 → t.bi = 0 ∧ t.phase = .load) ∧
        (s.bi.toNat < 63 → t.bi.toNat = s.bi.toNat + 1 ∧ t.phase = .absorb) ∧
        t.rsp = some ⟨0, false⟩ ∧ t.t = s.t ∧ t.mark = s.mark ∧ t.lw = s.lw ∧
        sameDatapath s t ∧ sameFaults s t ∧ sameHost s t) ∧
    (∀ s : State, s.phase = .idle ∨ s.phase = .done → exec (.data b) s = .next (s.raiseFault .phase (dataWord b))) ∧
    ∀ s : State, s.phase = .absorb → s.len.toNat = 2 ^ 61 - 1 →
      exec (.data b) s = .next (s.raiseFault .overflow (dataWord b))

/-- R143: `FINAL` is the word `0x300`, ready when the engine is not busy; in `ABSORB` it goes to `PAD` and writes nothing
else; in `IDLE` and `DONE` it raises `Fault(2, c)`. -/
def Obligations.FinalStartsPadding : Prop :=
  decodeCmd 0x300 = .final ∧
  ∀ s : State, s.ready 0x300 = (!s.busy) ∧
    (s.phase = .absorb → exec .final s = .next { s with phase := .pad, rsp := some ⟨0, false⟩ }) ∧
    (s.phase = .idle ∨ s.phase = .done → exec .final s = .next (s.raiseFault .phase 0x300))

/-- R145: `RDW i` is the word `0x400 + i`, ready when the engine is not busy; in `DONE` it answers `H[i]` and writes
nothing; in `IDLE` and `ABSORB` it raises `Fault(2, c)`. -/
def Obligations.RdwAnswersADigestWord : Prop :=
  ∀ (s : State) (i : BitVec 3),
    (rdwWord i).toNat = 0x400 + i.toNat ∧ decodeCmd (rdwWord i) = .rdw i ∧ s.ready (rdwWord i) = (!s.busy) ∧
    (s.phase = .done →
      ∃ x, s.h.toList[i.toNat]? = some x ∧ exec (.rdw i) s = .next { s with rsp := some ⟨x, false⟩ }) ∧
    (s.phase = .idle ∨ s.phase = .absorb → exec (.rdw i) s = .next (s.raiseFault .phase (rdwWord i)))

/-- R146: `RDB i` is the word `0x500 + i`, ready when the engine is not busy; in `DONE` it answers byte `i` of
`DigestBytes(H)`, zero-extended, and writes nothing; in `IDLE` and `ABSORB` it raises `Fault(2, c)`. -/
def Obligations.RdbAnswersADigestByte : Prop :=
  ∀ (s : State) (i : BitVec 5),
    (rdbWord i).toNat = 0x500 + i.toNat ∧ decodeCmd (rdbWord i) = .rdb i ∧ s.ready (rdbWord i) = (!s.busy) ∧
    (s.phase = .done →
      ∃ b, (digestBytes s.h)[i.toNat]? = some b ∧
        exec (.rdb i) s = .next { s with rsp := some ⟨BitVec.ofNat 32 b.toNat, false⟩ }) ∧
    (s.phase = .idle ∨ s.phase = .absorb → exec (.rdb i) s = .next (s.raiseFault .phase (rdbWord i)))

/-- R147: `RDX i` is the word `0x600 + i`, ready when the engine is not busy; in `DONE` it answers the code of character
`i` of `DigestHex(H)`, zero-extended, and writes nothing; in `IDLE` and `ABSORB` it raises `Fault(2, c)`. -/
def Obligations.RdxAnswersADigestCharacter : Prop :=
  ∀ (s : State) (i : BitVec 6),
    (rdxWord i).toNat = 0x600 + i.toNat ∧ decodeCmd (rdxWord i) = .rdx i ∧ s.ready (rdxWord i) = (!s.busy) ∧
    (s.phase = .done →
      ∃ b, (digestHex s.h)[i.toNat]? = some b ∧
        exec (.rdx i) s = .next { s with rsp := some ⟨BitVec.ofNat 32 b.toNat, false⟩ }) ∧
    (s.phase = .idle ∨ s.phase = .absorb → exec (.rdx i) s = .next (s.raiseFault .phase (rdxWord i)))

/-- `RDS` answers the status word in every state and writes nothing (R148); the word's fields are those of R23, its
reserved bits read 0, and with `ERR = 0` it takes R23's value for each phase. -/
def Obligations.RdsAnswersTheStatusWord : Prop :=
  decodeCmd 0x700 = .rds ∧
  ∀ s : State, s.ready 0x700 = true ∧ ∃ d : Word, exec .rds s = .next { s with rsp := some ⟨d, false⟩ } ∧
    d.extractLsb' 0 3 = s.phase.code ∧
    (d.getLsbD 3 = true ↔ s.phase = .pad ∨ s.phase = .load ∨ s.phase = .expand ∨ s.phase = .round ∨ s.phase = .accum) ∧
    (d.getLsbD 4 = true ↔ s.phase = .done) ∧
    d.getLsbD 5 = s.err ∧ d.getLsbD 6 = s.ovf ∧ d.getLsbD 7 = false ∧
    d.extractLsb' 8 2 = s.ecause ∧ d.extractLsb' 10 6 = 0 ∧ d.extractLsb' 16 12 = s.ecmd ∧ d.extractLsb' 28 4 = 0 ∧
    (s.Consistent → s.err = false →
      d = match s.phase with
        | .idle => 0x00000000
        | .absorb => 0x00000001
        | .pad => 0x0000000a
        | .load => 0x0000000b
        | .expand => 0x0000000c
        | .round => 0x0000000d
        | .accum => 0x0000000e
        | .done => 0x00000017)

/-! ### The engine steps

Each completes in every state: a meaning does not look at `PHASE` again, and each statement says in which phase the
machine runs it (log 20). -/

/-- R144: step `PAD`, byte by byte, in its three cases: marker, zeros and length; marker and zeros; zeros and length.
The length field is `8 * LEN` in eight bytes, most significant first. Everything else is as before. The step completes
in every state; of `MK = 1`, `LW = 1`, which R144 says cannot occur, no contents are claimed. How R45's count of
the bytes moved agrees with this is log 26. -/
def Obligations.PadBuildsThePadding : Prop :=
  ∀ s : State, s.m.wf = true → (nextIs s .pad → s.phase = .pad) ∧
    ∃ t, exec .pad s = .next t ∧
      (s.mark = false → s.bi.toNat ≤ 55 → t.lw = true ∧ ∀ a : Index,
        (a.toNat < s.bi.toNat → t.readM a = s.readM a) ∧
        (a.toNat = s.bi.toNat → t.readM a = 0x80) ∧
        (s.bi.toNat < a.toNat → a.toNat ≤ 55 → t.readM a = 0) ∧
        (56 ≤ a.toNat → (t.readM a).toNat = s.len.toNat * 8 / 2 ^ (8 * (63 - a.toNat)) % 256)) ∧
      (s.mark = false → 56 ≤ s.bi.toNat → t.lw = s.lw ∧ ∀ a : Index,
        (a.toNat < s.bi.toNat → t.readM a = s.readM a) ∧
        (a.toNat = s.bi.toNat → t.readM a = 0x80) ∧
        (s.bi.toNat < a.toNat → t.readM a = 0)) ∧
      (s.mark = true → s.lw = false → t.lw = true ∧ ∀ a : Index,
        (a.toNat ≤ 55 → t.readM a = 0) ∧
        (56 ≤ a.toNat → (t.readM a).toNat = s.len.toNat * 8 / 2 ^ (8 * (63 - a.toNat)) % 256)) ∧
      t.mark = true ∧ t.bi = 0 ∧ t.phase = .load ∧ t.rsp = none ∧ t.t = s.t ∧ t.len = s.len ∧
      sameDatapath s t ∧ sameFaults s t ∧ sameHost s t

/-- Step `LOAD` (R110): `W[0..15]` are the block's big-endian words, `V = H`, `T = 16`, to `EXPAND`; `W[16..63]` and
everything else are as before. -/
def Obligations.LoadReadsTheBlock : Prop :=
  ∀ s : State, (nextIs s .load → s.phase = .load) ∧ ∃ t, exec .load s = .next t ∧
    (∀ i : Index, i.toNat < 16 →
      wordAt t.w i = bytesToWord (s.readM (4 * i)) (s.readM (4 * i + 1)) (s.readM (4 * i + 2)) (s.readM (4 * i + 3))) ∧
    (∀ i : Index, 16 ≤ i.toNat → wordAt t.w i = wordAt s.w i) ∧
    t.v = s.h ∧ t.t = 16 ∧ t.phase = .expand ∧ t.rsp = none ∧
    t.h = s.h ∧ t.m = s.m ∧ t.bi = s.bi ∧ t.len = s.len ∧ t.mark = s.mark ∧ t.lw = s.lw ∧
    sameFaults s t ∧ sameHost s t

/-- R111: step `EXPAND` writes `W[T]` by the recurrence, for every `T` of `16..63`; `T` counts on, and after 63 the rounds
begin. It completes in the states with `T < 16` too, to which the rule gives no operands (log 7); of those only the
frame is claimed. -/
def Obligations.ExpandExtendsTheSchedule : Prop :=
  ∀ s : State, (nextIs s .expand → s.phase = .expand) ∧ ∃ t, exec .expand s = .next t ∧
    (∀ j : Nat, s.t.toNat = j → ∀ _ : 16 ≤ j, ∀ _ : j < 64,
      t.w[j] = add32 [s.w[j - 16], smallSigma0 s.w[j - 15], s.w[j - 7], smallSigma1 s.w[j - 2]] ∧
      (j = 63 → t.t = 0 ∧ t.phase = .round) ∧
      (j < 63 → t.t.toNat = j + 1 ∧ t.phase = s.phase)) ∧
    (∀ i : Index, i ≠ s.t → wordAt t.w i = wordAt s.w i) ∧
    t.rsp = none ∧ t.h = s.h ∧ t.v = s.v ∧ t.m = s.m ∧
    t.bi = s.bi ∧ t.len = s.len ∧ t.mark = s.mark ∧ t.lw = s.lw ∧ sameFaults s t ∧ sameHost s t

/-- Step `ROUND` (R112 with R108 written out): the eight working registers `a..h` after round `T`; `T` counts on, and
after 63 the accumulation begins. -/
def Obligations.RoundMixesTheWorkingRegisters : Prop :=
  ∀ (s : State) (a b c d e f g h : Word), s.v = #v[a, b, c, d, e, f, g, h] →
    (nextIs s .round → s.phase = .round) ∧
    ∃ (t : State) (k w temp1 temp2 : Word), exec .round s = .next t ∧
      kTable[s.t.toNat]? = some k ∧ s.w.toList[s.t.toNat]? = some w ∧
      temp1 = h + (e.rotateRight 6 ^^^ e.rotateRight 11 ^^^ e.rotateRight 25) + ((e &&& f) ^^^ (~~~e &&& g)) + k + w ∧
      temp2 = (a.rotateRight 2 ^^^ a.rotateRight 13 ^^^ a.rotateRight 22) + ((a &&& b) ^^^ (a &&& c) ^^^ (b &&& c)) ∧
      t.v = #v[temp1 + temp2, a, b, c, d + temp1, e, f, g] ∧
      (s.t.toNat = 63 → t.t = 0 ∧ t.phase = .accum) ∧
      (s.t.toNat < 63 → t.t.toNat = s.t.toNat + 1 ∧ t.phase = s.phase) ∧
      t.rsp = none ∧ t.h = s.h ∧ t.w = s.w ∧ t.m = s.m ∧
      t.bi = s.bi ∧ t.len = s.len ∧ t.mark = s.mark ∧ t.lw = s.lw ∧ sameFaults s t ∧ sameHost s t

/-- Step `ACCUM` (R113): each `V[i]` is added into `H[i]`; next comes `ABSORB`, `PAD` or `DONE` as `MK` and `LW` say. -/
def Obligations.AccumAddsIntoTheHashState : Prop :=
  ∀ s : State, (nextIs s .accum → s.phase = .accum) ∧ ∃ t, exec .accum s = .next t ∧
    (∀ i : Fin 8, t.h[i] = add32 [s.h[i], s.v[i]]) ∧
    (s.mark = false → t.phase = .absorb) ∧
    (s.mark = true → s.lw = false → t.phase = .pad) ∧
    (s.mark = true → s.lw = true → t.phase = .done) ∧
    t.rsp = none ∧ t.v = s.v ∧ t.w = s.w ∧ t.m = s.m ∧ sameCounters s t ∧ sameFaults s t ∧ sameHost s t

/-! ### Frames -/

/-- The commands that open, feed or end no session write nothing but the response and, when they fault, the fault
registers (R140, R145 to R148, R162), in every state; a command that is not ready stays presented (R9, R66; log 9). -/
def Obligations.FrameOfReadingCommands : Prop :=
  ∀ (s t : State) (c : CmdWord),
    (∀ b, decodeCmd c ≠ .data b) → decodeCmd c ≠ .init → decodeCmd c ≠ .final →
    exec (decodeCmd c) s = .next t →
      sameDatapath s t ∧ t.m = s.m ∧ t.phase = s.phase ∧ sameCounters s t ∧ t.draws = s.draws ∧
      (s.ready c = true → t.inputs = s.inputs) ∧
      (s.ready c = false → t.inputs = .present c :: s.inputs ∧ t.rsp = none) ∧
      ((∀ r, t.rsp = some r → r.err = false) → sameFaults s t)

/-- What `INIT`, `DATA` and `FINAL` leave unchanged, in every state (R141 to R143, R162): `INIT` leaves `V`, `W`, `M`;
`DATA` stores at the address `BI` or nowhere; `FINAL` writes `PHASE` alone. A recorded fault changes only when the
command faults or is `INIT`. In a busy state these words are not ready, and what `exec` leaves there is the model's
reading (log 9): every register and all of `M`; of the inputs and the response this statement says nothing then. -/
def Obligations.FrameOfSessionCommands : Prop :=
  (∀ s t : State, exec .init s = .next t → t.v = s.v ∧ t.w = s.w ∧ t.m = s.m ∧ t.draws = s.draws ∧
    (s.busy = true → t.h = s.h ∧ t.phase = s.phase ∧ sameCounters s t ∧ sameFaults s t)) ∧
  (∀ (s t : State) (b : Byte), s.m.wf = true → exec (.data b) s = .next t →
    sameDatapath s t ∧ t.t = s.t ∧ t.mark = s.mark ∧ t.lw = s.lw ∧ t.draws = s.draws ∧
    (∀ a : Index, a ≠ s.bi → t.readM a = s.readM a) ∧
    (s.phase ≠ .absorb ∨ s.len.toNat = Config.maxMsgBytes →
      sameMemory s t ∧ t.phase = s.phase ∧ t.bi = s.bi ∧ t.len = s.len) ∧
    ((∀ r, t.rsp = some r → r.err = false) → sameFaults s t)) ∧
  ∀ s t : State, exec .final s = .next t →
    sameDatapath s t ∧ t.m = s.m ∧ sameCounters s t ∧ t.draws = s.draws ∧
    (s.phase ≠ .absorb → t.phase = s.phase) ∧
    ((∀ r, t.rsp = some r → r.err = false) → sameFaults s t)

/-- An engine step raises no fault, answers nothing, writes no fault register and not `LEN`, and writes only the stores
its rule names (R110 to R113, R144), in whatever phase it is executed (log 20). -/
def Obligations.FrameOfEngineSteps : Prop :=
  ∀ (s t : State) (i : Instr), isStep i = true → exec i s = .next t →
    sameFaults s t ∧ sameHost s t ∧ t.len = s.len ∧ t.rsp = none ∧
    (i ≠ .pad → t.m = s.m ∧ t.bi = s.bi ∧ t.mark = s.mark ∧ t.lw = s.lw) ∧
    (i ≠ .accum → t.h = s.h) ∧
    (i ≠ .load → i ≠ .round → t.v = s.v) ∧
    (i ≠ .load → i ≠ .expand → t.w = s.w) ∧
    (i = .pad ∨ i = .accum → t.t = s.t)

/-- Which transitions write which store (R10 to R13, R19): all others leave it. -/
def Obligations.OnlyTheseTransitionsWriteTheStores : Prop :=
  ∀ s t : State, step s = .next t →
    (t.h ≠ s.h → nextIs s .init ∨ nextIs s .accum ∨ nextIsReset s) ∧
    (t.v ≠ s.v → nextIs s .load ∨ nextIs s .round ∨ nextIsReset s) ∧
    (t.w ≠ s.w → nextIs s .load ∨ nextIs s .expand ∨ nextIsReset s) ∧
    (t.m ≠ s.m → (∃ b, nextIs s (.data b)) ∨ nextIs s .pad ∨ nextIsReset s) ∧
    (t.len ≠ s.len → nextIs s .init ∨ (∃ b, nextIs s (.data b)) ∨ nextIsReset s)

/-! ### Invariants and the whole machine -/

/-- The invariant holds right after reset, with the model's values for the unspecified registers (R180; log 4). -/
def Obligations.InvariantHoldsAtReset : Prop := State.reset.Inv

/-- The invariant (R30 and the canonical form of `M`) is kept by every step, from every state that has it, whatever
the host does. -/
def Obligations.StepKeepsTheInvariant : Prop :=
  ∀ s t : State, s.Inv → step s = .next t → t.Inv

/-- R30: every reachable state satisfies items 1 to 11, and (item 12) while it is busy no accepted command changes
`H`, `V`, `W`, `M`, `T`, `BI`, `LEN`, `MK`, `LW` or `PHASE`. -/
def Obligations.ReachableStatesAreConsistent : Prop :=
  ∀ s : State, Reachable s →
    s.Consistent ∧
    (s.busy = true → ∀ (c : CmdWord) (t : State), s.ready c = true → exec (decodeCmd c) s = .next t →
      sameDatapath s t ∧ t.m = s.m ∧ sameCounters s t ∧ t.phase = s.phase)

/-- R116: every transition from a consistent state is a row of the transition graph, with its event, its condition,
and the `PHASE` and `T` it leads to. -/
def Obligations.EveryTransitionIsInTheGraph : Prop :=
  ∀ s t : State, s.Inv → step s = .next t → PhaseEdge s t

/-- The Reset event (R180, R163): whatever the state, control and fault registers are at their reset values, `STATUS`
reads 0, every word is ready, no response is produced; nothing is said of `H`, `V`, `W`, `M`. `State.reset` has the
same control values. -/
def Obligations.ResetClearsTheControlState : Prop :=
  (∀ (s : State) (rest : List Input), s.inputs = .reset :: rest →
    ∃ t, step s = .next t ∧ t.phase = .idle ∧ t.t = 0 ∧ t.bi = 0 ∧ t.len = 0 ∧ t.mark = false ∧ t.lw = false ∧
      t.err = false ∧ t.ecause = 0 ∧ t.ecmd = 0 ∧ t.ovf = false ∧ t.rsp = none ∧ t.inputs = rest ∧
      t.status = 0 ∧ t.busy = false ∧ t.done = false ∧ ∀ c, t.ready c = true) ∧
  State.reset.phase = .idle ∧ sameCounters State.reset State.reset.resetEvent ∧
  sameFaults State.reset State.reset.resetEvent ∧ State.reset.status = 0

/-- The result is final (R191, R153 (d)): in `DONE`, whatever the host does but `INIT` and reset, `H` and the phase
stay, so every digest read keeps answering the same. -/
def Obligations.DigestStaysUntilInitOrReset : Prop :=
  ∀ (n : Nat) (s t : State), s.phase = .done → noReset s.inputs → Input.present initWord ∉ s.inputs → runsTo n s t →
    t.phase = .done ∧ t.h = s.h ∧
    (∀ i, exec (.rdw i) t = .next (t.respond (digestWord s.h i))) ∧
    (∀ i, exec (.rdb i) t = .next (t.respond (zext32 (digestByte s.h i)))) ∧
    ∀ i, exec (.rdx i) t = .next (t.respond (zext32 (digestCharCode s.h i)))

/-- A command accepted while busy and the engine step of the same moment commute but for the response (R163 (4),
R140). -/
def Obligations.BusyCommandsAndStepsCommute : Prop :=
  ∀ (s a b t u : State) (c : CmdWord) (i : Instr),
    s.busy = true → s.ready c = true → decodePhase s.phase.code = .ok i →
    exec (decodeCmd c) s = .next a → exec i a = .next t →
    exec i s = .next b → exec (decodeCmd c) b = .next u → sameButResponse t u

/-- The reference clock binding (R188, R181) is one admissible schedule: an edge is a run of the machine whose inputs
are the reset, or the accepted command and then, if the engine was busy, a turn of its own. -/
def Obligations.ClockEdgeIsAnAdmissibleSchedule : Prop :=
  ∀ (p : PinsIn) (s : State), ∃ t u es, clockEdge p s = .next t ∧
    es = (if p.rst then [Input.reset]
      else (if p.accepts s then [Input.present p.cmd] else []) ++ (if s.busy then [Input.idle] else [])) ∧
    runsTo es.length (s.withInputs es) u ∧ u.inputs = [] ∧ sameButResponse u (t.withInputs []) ∧
    (p.accepts s = true → ∀ a, exec (decodeCmd p.cmd) s = .next a → t.rsp = a.rsp) ∧
    (p.accepts s = false → t.rsp = none)

/-- Instances do not touch each other, and the order in which two of them move does not matter (R51, R169). -/
def Obligations.InstancesAreIndependent : Prop :=
  ∀ (n : Nat) (p : Platform n) (i j : Fin n), i ≠ j →
    ∃ q r u, p.move i = .next q ∧ p.move j = .next r ∧ q.move j = .next u ∧ r.move i = .next u ∧
      (∀ k : Fin n, k ≠ i → q[k] = p[k]) ∧ step p[i] = .next q[i]

/-! ### What the machine computes -/

/-- R115: from `LOAD` with `M = B` and `H = h`, whatever ready commands come (none but words of opcode 0 and 7 are), after
exactly 114 engine steps (1 `LOAD`, 48 `EXPAND`, 64 `ROUND`, 1 `ACCUM`) `H = Compress(h, B)`, `W = Schedule(B)`, `T = 0`,
and the next phase is as R113 says. The spec derives it from R107 to R113. -/
def Obligations.OneBlockIsCompressed : Prop :=
  (∀ (s : State) (c : CmdWord), s.busy = true → s.ready c = true → CmdWord.op c = 0x0 ∨ CmdWord.op c = 0x7) ∧
  ∀ s : State, s.phase = .load → noReset s.inputs →
    ∃ n t, runsTo n s t ∧
      engineSteps n s = [.load] ++ List.replicate 48 .expand ++ List.replicate 64 .round ++ [.accum] ∧
      t.h = compress s.h s.m.block ∧ t.w = schedule s.m.block ∧ t.t = 0 ∧
      t.m = s.m ∧ t.bi = s.bi ∧ t.len = s.len ∧ t.mark = s.mark ∧ t.lw = s.lw ∧
      (s.mark = false → t.phase = .absorb) ∧
      (s.mark = true → s.lw = false → t.phase = .pad) ∧
      (s.mark = true → s.lw = true → t.phase = .done)

/-- R152: in a session with message `m`, the blocks in `M` at the `LOAD` steps are the blocks of `Pad(m)`, in order. The
session is one of `INIT`, `DATA`, `FINAL` with `NOP` and `RDS` between; other words are left out here. -/
def Obligations.BlocksAreThoseOfThePaddedMessage : Prop :=
  ∀ (s : State) (m p : List Byte) (is : List Input), s.Inv → s.busy = false → pad m = some p → carries is m →
    ∃ n t, runsTo n (s.withInputs is) t ∧ t.inputs = [] ∧ t.phase = .done ∧
      blocksLoaded n (s.withInputs is) = blocks p ∧ (blocks p).length = numBlocks m.length

/-- R153 (a) to (c): from any state, after `INIT`, the bytes of `m` and `FINAL`, interleaved with `NOP` and `RDS` in
any way, no command faults and the engine reaches `DONE` with `H = Hash(m)`, in `114 NB(L) + p` engine steps when it
was not busy at the start. -/
def Obligations.SessionComputesTheHash : Prop :=
  ∀ (s : State) (m : List Byte) (is : List Input), s.Inv → m.length ≤ 2 ^ 61 - 1 → carries is m →
    ∃ n t, runsTo n (s.withInputs is) t ∧ t.inputs = [] ∧ t.phase = .done ∧
      messageHash m = some t.h ∧ t.err = false ∧ t.ovf = false ∧ t.status = 0x00000017 ∧
      (∀ r ∈ responses n (s.withInputs is), r.err = false) ∧
      (s.busy = false → (engineSteps n (s.withInputs is)).length = sessionSteps m.length)

/-- R164: a session in which reads out of time and illegal words fault still ends with `H = Hash(m)`, `m` being the
bytes of the `DATA` commands. A `DATA` or `FINAL` that itself faults is left out here: before the `INIT` it leaves a
state from which this statement and SessionComputesTheHash start, after the session DigestStaysUntilInitOrReset
says that it leaves `H`. -/
def Obligations.FaultsDoNotSpoilTheDigest : Prop :=
  ∀ (s : State) (m : List Byte) (is : List Input), s.Inv → m.length ≤ 2 ^ 61 - 1 → carriesWithFaults is m →
    ∃ n t, runsTo n (s.withInputs is) t ∧ t.inputs = [] ∧ t.phase = .done ∧ messageHash m = some t.h ∧ t.ovf = false

/-- R154: sessions do not leak into each other. Two engines in any states that are not busy, given the same commands
from an `INIT` on, answer the same and agree on every register R154 lists. `V`, `W`, `M` may keep old content, and of
them nothing is said. -/
def Obligations.SessionsDoNotLeak : Prop :=
  ∀ (s s' t t' : State) (is : List Input) (n : Nat),
    s.Inv → s'.Inv → s.busy = false → s'.busy = false → noReset is → 1 ≤ n →
    runsTo n (s.withInputs (.present initWord :: is)) t → runsTo n (s'.withInputs (.present initWord :: is)) t' →
      sameSession t t' ∧ t'.inputs = t.inputs ∧
      responses n (s.withInputs (.present initWord :: is)) = responses n (s'.withInputs (.present initWord :: is))

/-- R190, R116: timing depends on nothing but the length. Two engines in the same position, given the same commands up to
the values of the message bytes, go through the same phases, whatever the data they hold. -/
def Obligations.TimingDependsOnTheLengthAlone : Prop :=
  ∀ (n : Nat) (s s' t t' : State), s'.phase = s.phase → sameCounters s s' →
    List.Forall₂ Input.sameShape s.inputs s'.inputs → runsTo n s t → runsTo n s' t' →
      t'.phase = t.phase ∧ sameCounters t t' ∧ List.Forall₂ Input.sameShape t.inputs t'.inputs ∧
      (engineSteps n s).length = (engineSteps n s').length

/-- R32: what a response can show. It depends on the command, `PHASE`, the fault registers, whether the length is at
its limit, and, in `DONE` alone, `H`; not on `V`, `W`, `M`, `T`, `BI`, `MK`, `LW`, nor on a running hash state. -/
def Obligations.ResponsesShowNoWorkingState : Prop :=
  ∀ (s s' t t' : State) (c : CmdWord), s'.phase = s.phase → sameFaults s s' → s'.len = s.len →
    (s.phase = .done → s'.h = s.h) → exec (decodeCmd c) s = .next t → exec (decodeCmd c) s' = .next t' →
      t'.rsp = t.rsp ∧ sameFaults t t'

/-! ### The functions -/

/-- R80: a sum modulo `2^32` whatever the order and grouping of its operands. -/
def Obligations.AdditionIsModular : Prop :=
  (∀ xs : List Word, (add32 xs).toNat = (xs.map BitVec.toNat).sum % 2 ^ 32) ∧
  (∀ xs ys : List Word, xs.Perm ys → add32 xs = add32 ys) ∧
  (∀ xs ys : List Word, add32 (add32 xs :: ys) = add32 (xs ++ ys)) ∧
  ∀ x : Word, add32 [x, 0] = x

/-- R81 and R82, by value and bit by bit: `rotr` moves bit `(i + n) mod 32` to bit `i`; the logical shift divides by `2^n`
and lets zeros in. -/
def Obligations.RotateAndShiftMoveBits : Prop :=
  ∀ (x : Word) (n : Fin 32),
    (rotr x n).toNat = (x.toNat / 2 ^ n.val + x.toNat * 2 ^ (32 - n.val)) % 2 ^ 32 ∧
    (shr x n).toNat = x.toNat / 2 ^ n.val ∧ rotr x 0 = x ∧
    ∀ i : Nat, i < 32 →
      (rotr x n).getLsbD i = x.getLsbD ((i + n.val) % 32) ∧
      (shr x n).getLsbD i = (decide (i + n.val < 32) && x.getLsbD (i + n.val))

/-- R104 and R105 bit by bit: choose and majority. -/
def Obligations.ChooseAndMajorityBitByBit : Prop :=
  ∀ (x y z : Word) (i : Nat), i < 32 →
    (ch x y z).getLsbD i = (if x.getLsbD i then y.getLsbD i else z.getLsbD i) ∧
    (maj x y z).getLsbD i = decide (2 ≤ (x.getLsbD i).toNat + (y.getLsbD i).toNat + (z.getLsbD i).toNat)

/-- R86: `wordToBytes` and `bytesToWord` undo each other. -/
def Obligations.BytesAndWordsRoundTrip : Prop :=
  (∀ b0 b1 b2 b3 : Byte, wordToBytes (bytesToWord b0 b1 b2 b3) = [b0, b1, b2, b3]) ∧
  ∀ x : Word, ∃ b0 b1 b2 b3, wordToBytes x = [b0, b1, b2, b3] ∧ bytesToWord b0 b1 b2 b3 = x

/-- R107: the schedule's first sixteen words are the block's, and every later word obeys the recurrence. -/
def Obligations.ScheduleObeysTheRecurrence : Prop :=
  ∀ b : Block,
    (∀ (j : Nat) (_ : j < 16), (schedule b)[j] = bytesToWord b[4 * j] b[4 * j + 1] b[4 * j + 2] b[4 * j + 3]) ∧
    ∀ (j : Nat) (_ : 16 ≤ j) (_ : j < 64),
      (schedule b)[j] = add32 [(schedule b)[j - 16], smallSigma0 (schedule b)[j - 15], (schedule b)[j - 7],
        smallSigma1 (schedule b)[j - 2]]

/-- R90: what `Pad` guarantees: a positive multiple of 64 bytes, at least `L + 9` and at most `L + 72`, 448 modulo 512
bits before the length field, and no two messages with the same padding. Also its length by R89. -/
def Obligations.PaddingIsExactAndInjective : Prop :=
  (∀ m p : List Byte, pad m = some p →
    0 < p.length ∧ p.length % 64 = 0 ∧ m.length + 9 ≤ p.length ∧ p.length ≤ m.length + 72 ∧
    8 * (p.length - 8) % 512 = 448 ∧ p.length = 64 * numBlocks m.length ∧
    numBlocks m.length = (if m.length % 64 ≤ 55 then m.length / 64 + 1 else m.length / 64 + 2)) ∧
  (∀ m n p : List Byte, pad m = some p → pad n = some p → m = n) ∧
  ∀ m : List Byte, (∃ p, pad m = some p) ↔ m.length ≤ 2 ^ 61 - 1

/-- R91: blocks partition the padded message with no remainder, and are read as big-endian words. -/
def Obligations.BlocksPartitionTheMessage : Prop :=
  ∀ (p : List Byte) (n : Nat), p.length = 64 * n →
    (blocks p).length = n ∧ (blocks p).flatMap Vector.toList = p ∧
    ∀ (i : Nat) (b : Block) (j : Fin 16), (blocks p)[i]? = some b →
      some (blockWord b j) = (p[64 * i + 4 * j]?.bind fun b0 => p[64 * i + 4 * j + 1]?.bind fun b1 =>
        p[64 * i + 4 * j + 2]?.bind fun b2 => p[64 * i + 4 * j + 3]?.map fun b3 => bytesToWord b0 b1 b2 b3)

/-- R132, R134, R135 (a): the digest is 32 bytes and 64 characters of `[0-9a-f]`; byte `i` is the slice of R132, and
characters `2k`, `2k + 1` are the digits of the high and low nibble of byte `k`. -/
def Obligations.DigestFormsAgree : Prop :=
  ∀ h : Words8,
    (digestBytes h).length = 32 ∧ (digestHex h).length = 64 ∧
    (∀ c ∈ digestHex h, (0x30 ≤ c.toNat ∧ c.toNat ≤ 0x39) ∨ (0x61 ≤ c.toNat ∧ c.toNat ≤ 0x66)) ∧
    (∀ i : BitVec 5, (digestBytes h)[i.toNat]? = some (digestByte h i)) ∧
    ∀ (k : Nat) (b : Byte), (digestBytes h)[k]? = some b →
      (digestHex h)[2 * k]? = some (hexCode (b.extractLsb' 4 4)) ∧
      (digestHex h)[2 * k + 1]? = some (hexCode (b.extractLsb' 0 4))

/-! ### The assembler -/

/-- R70: the word of a command is `op * 256 + operand`. -/
def Obligations.CommandWordsAreOpcodeAndOperand : Prop :=
  nopWord.toNat = 0x0 * 256 ∧ initWord.toNat = 0x1 * 256 ∧ finalWord.toNat = 0x3 * 256 ∧ rdsWord.toNat = 0x7 * 256 ∧
  (∀ b : Byte, (dataWord b).toNat = 0x2 * 256 + b.toNat) ∧
  (∀ i : BitVec 3, (rdwWord i).toNat = 0x4 * 256 + i.toNat) ∧
  (∀ i : BitVec 5, (rdbWord i).toNat = 0x5 * 256 + i.toNat) ∧
  ∀ i : BitVec 6, (rdxWord i).toNat = 0x6 * 256 + i.toNat

/-- R71: a pseudo-command spells commands only, and `HASH` is a whole session followed by the 64 digest reads. -/
def Obligations.PseudoCommandsSpellCommands : Prop :=
  (∀ (it : Asm.Item) (c : CmdWord), (∀ w, it ≠ .command w) → (∀ w, it ≠ .word w) → c ∈ it.expand →
    CmdWord.isIllegal c = false) ∧
  ∀ text : List Byte, ∃ reads : List CmdWord,
    (Asm.Item.hash text).expand.map Input.present = script text ++ reads.map Input.present ∧
    reads.map decodeCmd = (List.range 64).map fun i => Instr.rdx (BitVec.ofNat 6 i)
end

