-- ==== Sys2Proof/Laws/Bits.lean ====
section
/-! SUPPORT. The bit functions in the terms of the library, and the stores read after they are written. -/

namespace Sys2Proof

@[simp] theorem add32_nil : add32 [] = 0 := rfl

@[simp] theorem add32_cons (x : Word) (xs : List Word) : add32 (x :: xs) = x + add32 xs := by
  apply BitVec.eq_of_toNat_eq
  simp [add32, BitVec.toNat_add, Nat.add_mod]

theorem shr_eq (x : Word) (n : Fin 32) : shr x n = x >>> n.val := by
  apply BitVec.eq_of_toNat_eq
  have : x.toNat / 2 ^ n.val ≤ x.toNat := Nat.div_le_self _ _
  have hx := x.isLt
  simp only [shr, BitVec.toNat_ofNat, BitVec.toNat_ushiftRight, Nat.shiftRight_eq_div_pow]
  exact Nat.mod_eq_of_lt (by omega)

theorem rotr_eq (x : Word) (n : Fin 32) : rotr x n = x.rotateRight n.val := by
  apply BitVec.eq_of_getLsbD_eq
  intro i hi
  have hn := n.isLt
  have hx := x.isLt
  have hadd : x.toNat >>> n.val + x.toNat <<< (32 - n.val) = x.toNat <<< (32 - n.val) ||| x.toNat >>> n.val := by
    have hlt : x.toNat >>> n.val < 2 ^ (32 - n.val) := by
      rw [Nat.shiftRight_eq_div_pow]
      apply Nat.div_lt_of_lt_mul
      rw [← Nat.pow_add]
      calc x.toNat < 2 ^ 32 := hx
        _ = 2 ^ (n.val + (32 - n.val)) := by congr 1; omega
    rw [Nat.add_comm, Nat.shiftLeft_add_eq_or_of_lt hlt]
  rw [rotr, hadd, BitVec.getLsbD_ofNat, BitVec.getLsbD_rotateRight]
  simp only [Nat.testBit_or, Nat.testBit_shiftLeft, Nat.testBit_shiftRight, hi, decide_true, Bool.true_and,
    Nat.mod_eq_of_lt hn, BitVec.getLsbD]
  by_cases h : i < 32 - n.val
  · have h' : ¬ (i ≥ 32 - n.val) := by omega
    simp [h, h']
  · have h' : i ≥ 32 - n.val := by omega
    have hbig : x.toNat.testBit (n.val + i) = false := by
      apply Nat.testBit_lt_two_pow
      exact Nat.lt_of_lt_of_le hx (Nat.pow_le_pow_right (by decide) (by omega))
    simp [h, h', hbig]

@[simp] theorem wordAt_setWord (w : Schedule) (i j : Index) (x : Word) :
    wordAt (setWord w i x) j = if j = i then x else wordAt w j := by
  simp only [wordAt, setWord, Vector.getElem_set, BitVec.toNat_inj, eq_comm (a := i)]

@[simp] theorem getElem_addWords (h v : Words8) (i : Nat) (hi : i < 8) : (addWords h v)[i] = h[i] + v[i] := by
  simp [addWords]

end Sys2Proof
end

