-- ==== Sys2Proof/Laws/Memory.lean ====
section
/-! SUPPORT. The laws of the block buffer: what a read after a write gives, and that every operation keeps the
canonical form. -/

namespace Sys2Proof.Machine

/-! ### One byte -/

theorem lookupCell_insertCell (m : List Host.Cell) (a k : Nat) (b : Byte) {lo : Nat} (h : cellsFrom lo m = true) :
    lookupCell (insertCell m a b) k = if k = a then b else lookupCell m k := by
  induction m generalizing lo with
  | nil => grind [lookupCell, insertCell]
  | cons cell rest ih =>
    obtain ⟨j, x⟩ := cell
    have hrest : cellsFrom (j + 1) rest = true := by grind [cellsFrom]
    have below : ∀ (r : List Host.Cell) (lo' : Nat), cellsFrom lo' r = true → ∀ n < lo', lookupCell r n = unwrittenByte := by
      intro r
      induction r with
      | nil => intros; rfl
      | cons c r ihr =>
        intro lo' hc n hn
        obtain ⟨j', x'⟩ := c
        have h1 : lo' ≤ j' ∧ cellsFrom (j' + 1) r = true := by grind [cellsFrom]
        have h2 := ihr (j' + 1) h1.2 n (by omega)
        grind [lookupCell]
    have hj := below rest (j + 1) hrest
    have := ih hrest
    grind [lookupCell, insertCell]

theorem cellsFrom_insertCell (m : List Host.Cell) (a : Nat) (b : Byte) (ha : a < 64) {lo : Nat} (hlo : lo ≤ a)
    (h : cellsFrom lo m = true) : cellsFrom lo (insertCell m a b) = true := by
  induction m generalizing lo with
  | nil => grind [cellsFrom, insertCell]
  | cons cell rest ih =>
    obtain ⟨j, x⟩ := cell
    have hrest : lo ≤ j ∧ j < 64 ∧ x ≠ unwrittenByte ∧ cellsFrom (j + 1) rest = true := by grind [cellsFrom]
    have mono : ∀ (r : List Host.Cell) (lo' lo'' : Nat), lo'' ≤ lo' → cellsFrom lo' r = true → cellsFrom lo'' r = true := by
      intro r lo' lo'' hle hr
      cases r with
      | nil => rfl
      | cons c r => grind [cellsFrom]
    have hm := mono rest (j + 1) lo (by omega) hrest.2.2.2
    by_cases hja : j < a
    · have := ih (lo := j + 1) (by omega) hrest.2.2.2
      grind [cellsFrom, insertCell]
    · grind [cellsFrom, insertCell]

/-- A write keeps the canonical form. -/
theorem Memory.wf_write {m : Memory} (h : m.wf = true) (a : Index) (b : Byte) : (m.write a b).wf = true :=
  cellsFrom_insertCell m a.toNat b a.isLt (Nat.zero_le _) h

/-- A read after a write gives the byte written, and every other byte is as before. -/
theorem Memory.read_write {m : Memory} (h : m.wf = true) (a k : Index) (b : Byte) :
    (m.write a b).read k = if k = a then b else m.read k := by
  have := lookupCell_insertCell m a.toNat k.toNat b h
  simp only [Memory.read, Memory.write, this, BitVec.toNat_inj]

theorem Memory.wf_nil : Memory.wf [] = true := rfl

theorem Memory.read_nil (a : Index) : Memory.read [] a = unwrittenByte := rfl

/-- Equal memories are equal data: two in canonical form that read alike are one list. -/
theorem Memory.ext {m m' : Memory} (h : m.wf = true) (h' : m'.wf = true) (heq : ∀ a : Index, m.read a = m'.read a) :
    m = m' := by
  have listed : ∀ (l : List Host.Cell) (lo : Nat), cellsFrom lo l = true → ∀ a, lookupCell l a ≠ unwrittenByte →
      lo ≤ a ∧ a < 64 := by
    intro l
    induction l with
    | nil => intro lo _ a ha; exact absurd rfl ha
    | cons c r ih =>
      obtain ⟨k, x⟩ := c
      intro lo hl a ha
      have := ih (k + 1) (by grind [cellsFrom]) a
      grind [cellsFrom, lookupCell]
  have key : ∀ (l l' : List Host.Cell) (lo : Nat), cellsFrom lo l = true → cellsFrom lo l' = true →
      (∀ a, lookupCell l a = lookupCell l' a) → l = l' := by
    intro l
    induction l with
    | nil =>
      intro l' lo _ hl' hall
      cases l' with
      | nil => rfl
      | cons c r =>
        obtain ⟨k, x⟩ := c
        have := hall k
        grind [cellsFrom, lookupCell]
    | cons c r ih =>
      obtain ⟨k, x⟩ := c
      intro l' lo hl hl' hall
      cases l' with
      | nil => have := hall k; grind [cellsFrom, lookupCell]
      | cons c' r' =>
        obtain ⟨k', x'⟩ := c'
        have hr : cellsFrom (k + 1) r = true := by grind [cellsFrom]
        have hr' : cellsFrom (k' + 1) r' = true := by grind [cellsFrom]
        have hx : x ≠ unwrittenByte ∧ x' ≠ unwrittenByte := by grind [cellsFrom]
        have l1 := listed r (k + 1) hr
        have l2 := listed r' (k' + 1) hr'
        have hk : k = k' := by
          have h1 := hall k
          have h2 := hall k'
          have := l1 k'
          have := l2 k
          grind [lookupCell]
        subst hk
        have hxx : x = x' := by simpa [lookupCell] using hall k
        subst hxx
        rw [ih r' (k + 1) hr hr' fun a => ?_]
        have h1 := hall a
        have := l1 a
        have := l2 a
        grind [lookupCell]
  refine key m m' 0 h h' fun a => ?_
  by_cases ha : a < 64
  · have := heq (BitVec.ofNat 6 a)
    simpa [Memory.read, Nat.mod_eq_of_lt ha] using this
  · have e : ∀ l : List Host.Cell, cellsFrom 0 l = true → lookupCell l a = unwrittenByte := fun l hl =>
      Decidable.byContradiction fun hne => ha (listed l 0 hl a hne).2
    rw [e m h, e m' h']

/-! ### Runs of writes -/

/-- A run of writes keeps the canonical form. -/
theorem Memory.wf_foldl {α : Type} (l : List α) (addr : α → Index) (val : α → Byte) {m : Memory} (h : m.wf = true) :
    Memory.wf (l.foldl (fun m i => m.write (addr i) (val i)) m) = true := by
  induction l generalizing m with
  | nil => exact h
  | cons x rest ih => exact ih (Memory.wf_write h _ _)

/-- A byte that a run of writes does not touch is as before. -/
theorem Memory.read_foldl_of_notMem {α : Type} (l : List α) (addr : α → Index) (val : α → Byte) {m : Memory}
    (h : m.wf = true) (a : Index) (ha : ∀ i ∈ l, addr i ≠ a) :
    Memory.read (l.foldl (fun m i => m.write (addr i) (val i)) m) a = m.read a := by
  induction l generalizing m with
  | nil => rfl
  | cons x rest ih =>
    have hx := ha x (by simp)
    rw [List.foldl_cons, ih (Memory.wf_write h _ _) (fun i hi => ha i (by simp [hi])), Memory.read_write h,
      if_neg (Ne.symm hx)]

/-- A byte that a run of writes touches once holds what was written there. -/
theorem Memory.read_foldl_of_mem {α : Type} (l : List α) (addr : α → Index) (val : α → Byte) {m : Memory}
    (h : m.wf = true) (i : α) (hi : i ∈ l) (inj : ∀ j ∈ l, addr j = addr i → val j = val i) :
    Memory.read (l.foldl (fun m i => m.write (addr i) (val i)) m) (addr i) = val i := by
  induction l generalizing m with
  | nil => cases hi
  | cons x rest ih =>
    rw [List.foldl_cons]
    by_cases hr : ∃ j ∈ rest, addr j = addr i
    · obtain ⟨j, hj, hji⟩ := hr
      have hv : val j = val i := inj j (by simp [hj]) hji
      have := ih (m := m.write (addr x) (val x)) (Memory.wf_write h _ _)
      by_cases hin : i ∈ rest
      · exact this hin (fun k hk => inj k (by simp [hk]))
      · have key : ∀ (r : List α) (m' : Memory), m'.wf = true → (∃ j ∈ r, addr j = addr i) →
            (∀ j ∈ r, addr j = addr i → val j = val i) →
            Memory.read (r.foldl (fun m i => m.write (addr i) (val i)) m') (addr i) = val i := by
          intro r
          induction r with
          | nil => intro m' _ hex _; simp at hex
          | cons y r ihr =>
            intro m' hm' hex hall
            rw [List.foldl_cons]
            by_cases hr' : ∃ j ∈ r, addr j = addr i
            · exact ihr _ (Memory.wf_write hm' _ _) hr' (fun j hj => hall j (by simp [hj]))
            · have hy : addr y = addr i := by
                obtain ⟨j, hj, hji⟩ := hex
                rcases List.mem_cons.mp hj with rfl | hj
                · exact hji
                · exact absurd ⟨j, hj, hji⟩ hr'
              rw [Memory.read_foldl_of_notMem r addr val (Memory.wf_write hm' _ _) (addr i)
                (fun j hj hji => hr' ⟨j, hj, hji⟩), Memory.read_write hm', if_pos hy.symm]
              exact hall y (by simp) hy
        exact key rest _ (Memory.wf_write h _ _) ⟨j, hj, hji⟩ (fun k hk => inj k (by simp [hk]))
    · have hx : i = x := by
        rcases List.mem_cons.mp hi with h' | h'
        · exact h'
        · exact absurd ⟨i, h', rfl⟩ hr
      subst hx
      rw [Memory.read_foldl_of_notMem rest addr val (Memory.wf_write h _ _) _ (fun j hj hji => hr ⟨j, hj, hji⟩),
        Memory.read_write h, if_pos rfl]

theorem Memory.wf_fillZero {m : Memory} (h : m.wf = true) (lo hi : Nat) : (m.fillZero lo hi).wf = true := by
  rw [Memory.fillZero]
  exact Memory.wf_foldl _ (fun i => BitVec.ofNat 6 i) (fun _ => 0) h

theorem Memory.wf_memWrite {m : Memory} (h : m.wf = true) (addr : Index) (n v : Nat) :
    (m.memWrite addr n v).wf = true := by
  rw [Memory.memWrite]
  exact Memory.wf_foldl _ (fun k => addr + BitVec.ofNat 6 k) (imageByte n v) h

theorem Memory.wf_ofBytes (f : Fin 64 → Byte) : (Memory.ofBytes f).wf = true := by
  rw [Memory.ofBytes]
  exact Memory.wf_foldl (List.finRange 64) (fun i => BitVec.ofNat 6 i.val) f Memory.wf_nil

/-- Zeroing `lo .. hi` zeroes exactly those bytes. -/
theorem Memory.read_fillZero {m : Memory} (h : m.wf = true) (lo hi : Nat) (a : Index) :
    (m.fillZero lo hi).read a = if lo ≤ a.toNat ∧ a.toNat ≤ hi then 0 else m.read a := by
  have ha : BitVec.ofNat 6 a.toNat = a := by simp
  split
  · have := Memory.read_foldl_of_mem ((List.range 64).filter fun i => lo ≤ i && i ≤ hi) (fun i => BitVec.ofNat 6 i)
      (fun _ => (0 : Byte)) h a.toNat (by have := a.isLt; simp; omega) (by simp)
    rwa [ha] at this
  · refine Memory.read_foldl_of_notMem _ (fun i => BitVec.ofNat 6 i) (fun _ => (0 : Byte)) h a ?_
    intro i hmem hia
    have : i < 64 ∧ lo ≤ i ∧ i ≤ hi := by simpa using hmem
    have h2 : (BitVec.ofNat 6 i).toNat = i := by simp; omega
    have h3 := congrArg BitVec.toNat hia
    omega

theorem Memory.wf_writeFrom {m : Memory} (h : m.wf = true) (lo : Nat) (f : Index → Byte) :
    (m.writeFrom lo f).wf = true := by
  rw [Memory.writeFrom]
  exact Memory.wf_foldl _ (fun i => BitVec.ofNat 6 i) (fun i => f (BitVec.ofNat 6 i)) h

/-- A write of `M[lo..63]` writes exactly those bytes. -/
theorem Memory.read_writeFrom {m : Memory} (h : m.wf = true) (lo : Nat) (f : Index → Byte) (a : Index) :
    (m.writeFrom lo f).read a = if lo ≤ a.toNat then f a else m.read a := by
  have ha : BitVec.ofNat 6 a.toNat = a := by simp
  split
  · have := Memory.read_foldl_of_mem ((List.range 64).filter (lo ≤ ·)) (fun i => BitVec.ofNat 6 i)
      (fun i => f (BitVec.ofNat 6 i)) h a.toNat (by have := a.isLt; simp; omega) (fun j _ hj => by rw [hj])
    rwa [ha] at this
  · refine Memory.read_foldl_of_notMem _ (fun i => BitVec.ofNat 6 i) (fun i => f (BitVec.ofNat 6 i)) h a ?_
    intro i hmem hia
    have : i < 64 ∧ lo ≤ i := by simpa using hmem
    have h2 : (BitVec.ofNat 6 i).toNat = i := by simp; omega
    have h3 := congrArg BitVec.toNat hia
    omega

/-- The length field writes `M[56..63]`, most significant byte first, and nothing else. -/
theorem Memory.read_lengthField {m : Memory} (h : m.wf = true) (len : Length) (a : Index) :
    (m.lengthField len).read a = if 56 ≤ a.toNat then imageByte 8 (bitLength len).toNat (a.toNat - 56) else m.read a := by
  have hlt := a.isLt
  split
  next h56 =>
    have haddr : (56 : Index) + BitVec.ofNat 6 (a.toNat - 56) = a := by
      apply BitVec.eq_of_toNat_eq; simp [BitVec.toNat_add]; omega
    have := Memory.read_foldl_of_mem (List.range 8) (fun k => (56 : Index) + BitVec.ofNat 6 k)
      (imageByte 8 (bitLength len).toNat) h (a.toNat - 56) (by simp; omega) (by
        intro j hj hja
        have hj' : j < 8 := by simpa using hj
        have := congrArg BitVec.toNat hja
        have e : j = a.toNat - 56 := by simp [BitVec.toNat_add] at this; omega
        rw [e])
    rwa [haddr] at this
  next h56 =>
    refine Memory.read_foldl_of_notMem _ (fun k => (56 : Index) + BitVec.ofNat 6 k)
      (imageByte 8 (bitLength len).toNat) h a ?_
    intro k hk hka
    have hk' : k < 8 := by simpa using hk
    have := congrArg BitVec.toNat hka
    simp [BitVec.toNat_add] at this
    omega

theorem Memory.wf_lengthField {m : Memory} (h : m.wf = true) (len : Length) : (m.lengthField len).wf = true :=
  Memory.wf_memWrite h _ _ _

/-- Step `PAD` keeps the canonical form of `M`. -/
theorem wf_padMemory {m : Memory} (h : m.wf = true) (bi : Index) (len : Length) (mark : Bool) :
    (padMemory m bi len mark).wf = true := by
  unfold padMemory
  split
  · split
    · exact Memory.wf_lengthField (Memory.wf_fillZero (Memory.wf_write h _ _) _ _) _
    · exact Memory.wf_fillZero (Memory.wf_write h _ _) _ _
  · exact Memory.wf_lengthField (Memory.wf_fillZero h _ _) _

/-- What step `PAD` leaves at each byte (R144): below the marker the message; the marker; zeros; and, where there is
room or in the second padding block, the length field. -/
theorem read_padMemory {m : Memory} (h : m.wf = true) (bi : Index) (len : Length) (mark : Bool) (a : Index) :
    (padMemory m bi len mark).read a =
      if mark = true then
        if 56 ≤ a.toNat then imageByte 8 (bitLength len).toNat (a.toNat - 56) else 0
      else if a.toNat < bi.toNat then m.read a
      else if a.toNat = bi.toNat then 0x80
      else if bi.toNat ≤ 55 ∧ 56 ≤ a.toNat then imageByte 8 (bitLength len).toNat (a.toNat - 56)
      else 0 := by
  have hw := Memory.wf_write h bi 0x80
  have hlt := a.isLt
  have hbi := bi.isLt
  unfold padMemory
  cases mark with
  | true =>
    simp only [Bool.true_eq_false, if_false, if_true]
    rw [Memory.read_lengthField (Memory.wf_fillZero h _ _), Memory.read_fillZero h]
    split
    · rfl
    · rw [if_pos (by omega)]
  | false =>
    simp only [if_true, Bool.false_eq_true, if_false]
    by_cases h55 : bi.toNat ≤ 55
    · rw [if_pos h55, Memory.read_lengthField (Memory.wf_fillZero hw _ _), Memory.read_fillZero hw, Memory.read_write h]
      simp only [← BitVec.toNat_inj]
      grind
    · rw [if_neg h55, Memory.read_fillZero hw, Memory.read_write h]
      simp only [← BitVec.toNat_inj]
      grind

/-- Step `PAD` moves 9 to 64 bytes of `M` (R45). -/
theorem padWidth_bounds (bi : Index) (mark : Bool) : 9 ≤ padWidth bi mark ∧ padWidth bi mark ≤ 64 := by
  unfold padWidth; split <;> omega

/-- Step `PAD` is one write of the last `padWidth` bytes of `M` (R45), whose values are R144's. -/
theorem padMemory_eq_writeFrom {m : Memory} (h : m.wf = true) (bi : Index) (len : Length) (mark : Bool) :
    padMemory m bi len mark = m.writeFrom (64 - padWidth bi mark) (padMemory m bi len mark).read := by
  refine Memory.ext (wf_padMemory h bi len mark) (Memory.wf_writeFrom h _ _) fun a => ?_
  rw [Memory.read_writeFrom h]
  split
  · rfl
  next hlo =>
    have : mark = false ∧ a.toNat < bi.toNat := by
      unfold padWidth at hlo; cases mark <;> simp at hlo ⊢; omega
    rw [read_padMemory h, this.1, if_neg (by simp), if_pos this.2]

/-- The length field's bytes: `8 * LEN`, most significant first (R87, R144). -/
theorem imageByte_bitLength (len : Length) (k : Nat) (hk : k < 8) :
    (imageByte 8 (bitLength len).toNat k).toNat = len.toNat * 8 / 2 ^ (8 * (7 - k)) % 256 := by
  have := len.isLt
  have e : 8 * (8 - 1 - k) = 8 * (7 - k) := by omega
  simp only [imageByte, bitLength, Nat.shiftRight_eq_div_pow, BitVec.toNat_ofNat, e]
  congr 2
  exact Nat.mod_eq_of_lt (by omega)

/-- The buffer that holds given bytes reads as those bytes. -/
theorem Memory.read_ofBytes (f : Fin 64 → Byte) (i : Fin 64) :
    (Memory.ofBytes f).read (BitVec.ofNat 6 i.val) = f i := by
  refine Memory.read_foldl_of_mem (List.finRange 64) (fun i => BitVec.ofNat 6 i.val) f Memory.wf_nil i (by simp) ?_
  intro j _ hj
  have := congrArg BitVec.toNat hj
  simp at this
  rw [show j = i from Fin.ext (by omega)]

/-- A word of the buffer is its four bytes, big-endian (R42, R84). -/
theorem Memory.memRead_four (m : Memory) (a : Index) :
    BitVec.ofNat 32 (m.memRead a 4) =
      bytesToWord (m.read a) (m.read (a + 1)) (m.read (a + 2)) (m.read (a + 3)) := by
  have h0 : a + BitVec.ofNat 6 0 = a := by simp
  have e : m.memRead a 4 = (m.read a).toNat * 2 ^ 24 + (m.read (a + 1)).toNat * 2 ^ 16 + (m.read (a + 2)).toNat * 2 ^ 8 +
      (m.read (a + 3)).toNat := by
    simp only [Memory.memRead, List.range, List.range.loop, List.foldl_cons, List.foldl_nil, h0]
    simp only [BitVec.ofNat_eq_ofNat]
    omega
  rw [e, bytesToWord]

end Sys2Proof.Machine
end

