-- ==== Sys2Proof/Laws/State.lean ====
section
/-! SUPPORT. One lemma per field of State for each named update of it, so that no later proof unfolds a record
update. -/

namespace Sys2Proof.Machine

/-! `State.respond` -/

@[simp] theorem State.respond_h (s : State) (d : Word) : (s.respond d).h = s.h := rfl
@[simp] theorem State.respond_v (s : State) (d : Word) : (s.respond d).v = s.v := rfl
@[simp] theorem State.respond_w (s : State) (d : Word) : (s.respond d).w = s.w := rfl
@[simp] theorem State.respond_m (s : State) (d : Word) : (s.respond d).m = s.m := rfl
@[simp] theorem State.respond_phase (s : State) (d : Word) : (s.respond d).phase = s.phase := rfl
@[simp] theorem State.respond_t (s : State) (d : Word) : (s.respond d).t = s.t := rfl
@[simp] theorem State.respond_bi (s : State) (d : Word) : (s.respond d).bi = s.bi := rfl
@[simp] theorem State.respond_len (s : State) (d : Word) : (s.respond d).len = s.len := rfl
@[simp] theorem State.respond_mark (s : State) (d : Word) : (s.respond d).mark = s.mark := rfl
@[simp] theorem State.respond_lw (s : State) (d : Word) : (s.respond d).lw = s.lw := rfl
@[simp] theorem State.respond_err (s : State) (d : Word) : (s.respond d).err = s.err := rfl
@[simp] theorem State.respond_ecause (s : State) (d : Word) : (s.respond d).ecause = s.ecause := rfl
@[simp] theorem State.respond_ecmd (s : State) (d : Word) : (s.respond d).ecmd = s.ecmd := rfl
@[simp] theorem State.respond_ovf (s : State) (d : Word) : (s.respond d).ovf = s.ovf := rfl
@[simp] theorem State.respond_rsp (s : State) (d : Word) : (s.respond d).rsp = some ⟨d, false⟩ := rfl
@[simp] theorem State.respond_inputs (s : State) (d : Word) : (s.respond d).inputs = s.inputs := rfl
@[simp] theorem State.respond_draws (s : State) (d : Word) : (s.respond d).draws = s.draws := rfl

/-! `State.silent` -/

@[simp] theorem State.silent_h (s : State) : s.silent.h = s.h := rfl
@[simp] theorem State.silent_v (s : State) : s.silent.v = s.v := rfl
@[simp] theorem State.silent_w (s : State) : s.silent.w = s.w := rfl
@[simp] theorem State.silent_m (s : State) : s.silent.m = s.m := rfl
@[simp] theorem State.silent_phase (s : State) : s.silent.phase = s.phase := rfl
@[simp] theorem State.silent_t (s : State) : s.silent.t = s.t := rfl
@[simp] theorem State.silent_bi (s : State) : s.silent.bi = s.bi := rfl
@[simp] theorem State.silent_len (s : State) : s.silent.len = s.len := rfl
@[simp] theorem State.silent_mark (s : State) : s.silent.mark = s.mark := rfl
@[simp] theorem State.silent_lw (s : State) : s.silent.lw = s.lw := rfl
@[simp] theorem State.silent_err (s : State) : s.silent.err = s.err := rfl
@[simp] theorem State.silent_ecause (s : State) : s.silent.ecause = s.ecause := rfl
@[simp] theorem State.silent_ecmd (s : State) : s.silent.ecmd = s.ecmd := rfl
@[simp] theorem State.silent_ovf (s : State) : s.silent.ovf = s.ovf := rfl
@[simp] theorem State.silent_rsp (s : State) : s.silent.rsp = none := rfl
@[simp] theorem State.silent_inputs (s : State) : s.silent.inputs = s.inputs := rfl
@[simp] theorem State.silent_draws (s : State) : s.silent.draws = s.draws := rfl

/-! `State.withInputs` -/

@[simp] theorem State.withInputs_h (s : State) (is : List Input) : (s.withInputs is).h = s.h := rfl
@[simp] theorem State.withInputs_v (s : State) (is : List Input) : (s.withInputs is).v = s.v := rfl
@[simp] theorem State.withInputs_w (s : State) (is : List Input) : (s.withInputs is).w = s.w := rfl
@[simp] theorem State.withInputs_m (s : State) (is : List Input) : (s.withInputs is).m = s.m := rfl
@[simp] theorem State.withInputs_phase (s : State) (is : List Input) : (s.withInputs is).phase = s.phase := rfl
@[simp] theorem State.withInputs_t (s : State) (is : List Input) : (s.withInputs is).t = s.t := rfl
@[simp] theorem State.withInputs_bi (s : State) (is : List Input) : (s.withInputs is).bi = s.bi := rfl
@[simp] theorem State.withInputs_len (s : State) (is : List Input) : (s.withInputs is).len = s.len := rfl
@[simp] theorem State.withInputs_mark (s : State) (is : List Input) : (s.withInputs is).mark = s.mark := rfl
@[simp] theorem State.withInputs_lw (s : State) (is : List Input) : (s.withInputs is).lw = s.lw := rfl
@[simp] theorem State.withInputs_err (s : State) (is : List Input) : (s.withInputs is).err = s.err := rfl
@[simp] theorem State.withInputs_ecause (s : State) (is : List Input) : (s.withInputs is).ecause = s.ecause := rfl
@[simp] theorem State.withInputs_ecmd (s : State) (is : List Input) : (s.withInputs is).ecmd = s.ecmd := rfl
@[simp] theorem State.withInputs_ovf (s : State) (is : List Input) : (s.withInputs is).ovf = s.ovf := rfl
@[simp] theorem State.withInputs_rsp (s : State) (is : List Input) : (s.withInputs is).rsp = s.rsp := rfl
@[simp] theorem State.withInputs_inputs (s : State) (is : List Input) : (s.withInputs is).inputs = is := rfl
@[simp] theorem State.withInputs_draws (s : State) (is : List Input) : (s.withInputs is).draws = s.draws := rfl

/-! `State.hold` -/

@[simp] theorem State.hold_h (s : State) (c : CmdWord) : (s.hold c).h = s.h := rfl
@[simp] theorem State.hold_v (s : State) (c : CmdWord) : (s.hold c).v = s.v := rfl
@[simp] theorem State.hold_w (s : State) (c : CmdWord) : (s.hold c).w = s.w := rfl
@[simp] theorem State.hold_m (s : State) (c : CmdWord) : (s.hold c).m = s.m := rfl
@[simp] theorem State.hold_phase (s : State) (c : CmdWord) : (s.hold c).phase = s.phase := rfl
@[simp] theorem State.hold_t (s : State) (c : CmdWord) : (s.hold c).t = s.t := rfl
@[simp] theorem State.hold_bi (s : State) (c : CmdWord) : (s.hold c).bi = s.bi := rfl
@[simp] theorem State.hold_len (s : State) (c : CmdWord) : (s.hold c).len = s.len := rfl
@[simp] theorem State.hold_mark (s : State) (c : CmdWord) : (s.hold c).mark = s.mark := rfl
@[simp] theorem State.hold_lw (s : State) (c : CmdWord) : (s.hold c).lw = s.lw := rfl
@[simp] theorem State.hold_err (s : State) (c : CmdWord) : (s.hold c).err = s.err := rfl
@[simp] theorem State.hold_ecause (s : State) (c : CmdWord) : (s.hold c).ecause = s.ecause := rfl
@[simp] theorem State.hold_ecmd (s : State) (c : CmdWord) : (s.hold c).ecmd = s.ecmd := rfl
@[simp] theorem State.hold_ovf (s : State) (c : CmdWord) : (s.hold c).ovf = s.ovf := rfl
@[simp] theorem State.hold_rsp (s : State) (c : CmdWord) : (s.hold c).rsp = none := rfl
@[simp] theorem State.hold_inputs (s : State) (c : CmdWord) : (s.hold c).inputs = .present c :: s.inputs := rfl
@[simp] theorem State.hold_draws (s : State) (c : CmdWord) : (s.hold c).draws = s.draws := rfl

/-! `State.clearFaults` -/

@[simp] theorem State.clearFaults_h (s : State) : s.clearFaults.h = s.h := rfl
@[simp] theorem State.clearFaults_v (s : State) : s.clearFaults.v = s.v := rfl
@[simp] theorem State.clearFaults_w (s : State) : s.clearFaults.w = s.w := rfl
@[simp] theorem State.clearFaults_m (s : State) : s.clearFaults.m = s.m := rfl
@[simp] theorem State.clearFaults_phase (s : State) : s.clearFaults.phase = s.phase := rfl
@[simp] theorem State.clearFaults_t (s : State) : s.clearFaults.t = s.t := rfl
@[simp] theorem State.clearFaults_bi (s : State) : s.clearFaults.bi = s.bi := rfl
@[simp] theorem State.clearFaults_len (s : State) : s.clearFaults.len = s.len := rfl
@[simp] theorem State.clearFaults_mark (s : State) : s.clearFaults.mark = s.mark := rfl
@[simp] theorem State.clearFaults_lw (s : State) : s.clearFaults.lw = s.lw := rfl
@[simp] theorem State.clearFaults_err (s : State) : s.clearFaults.err = false := rfl
@[simp] theorem State.clearFaults_ecause (s : State) : s.clearFaults.ecause = 0 := rfl
@[simp] theorem State.clearFaults_ecmd (s : State) : s.clearFaults.ecmd = 0 := rfl
@[simp] theorem State.clearFaults_ovf (s : State) : s.clearFaults.ovf = false := rfl
@[simp] theorem State.clearFaults_rsp (s : State) : s.clearFaults.rsp = s.rsp := rfl
@[simp] theorem State.clearFaults_inputs (s : State) : s.clearFaults.inputs = s.inputs := rfl
@[simp] theorem State.clearFaults_draws (s : State) : s.clearFaults.draws = s.draws := rfl

/-! `State.raiseFault` -/

@[simp] theorem State.raiseFault_h (s : State) (k : Cause) (c : CmdWord) : (s.raiseFault k c).h = s.h := rfl
@[simp] theorem State.raiseFault_v (s : State) (k : Cause) (c : CmdWord) : (s.raiseFault k c).v = s.v := rfl
@[simp] theorem State.raiseFault_w (s : State) (k : Cause) (c : CmdWord) : (s.raiseFault k c).w = s.w := rfl
@[simp] theorem State.raiseFault_m (s : State) (k : Cause) (c : CmdWord) : (s.raiseFault k c).m = s.m := rfl
@[simp] theorem State.raiseFault_phase (s : State) (k : Cause) (c : CmdWord) : (s.raiseFault k c).phase = s.phase := rfl
@[simp] theorem State.raiseFault_t (s : State) (k : Cause) (c : CmdWord) : (s.raiseFault k c).t = s.t := rfl
@[simp] theorem State.raiseFault_bi (s : State) (k : Cause) (c : CmdWord) : (s.raiseFault k c).bi = s.bi := rfl
@[simp] theorem State.raiseFault_len (s : State) (k : Cause) (c : CmdWord) : (s.raiseFault k c).len = s.len := rfl
@[simp] theorem State.raiseFault_mark (s : State) (k : Cause) (c : CmdWord) : (s.raiseFault k c).mark = s.mark := rfl
@[simp] theorem State.raiseFault_lw (s : State) (k : Cause) (c : CmdWord) : (s.raiseFault k c).lw = s.lw := rfl
@[simp] theorem State.raiseFault_err (s : State) (k : Cause) (c : CmdWord) : (s.raiseFault k c).err = true := rfl
@[simp] theorem State.raiseFault_ecause (s : State) (k : Cause) (c : CmdWord) : (s.raiseFault k c).ecause = if s.err then s.ecause else k.code := rfl
@[simp] theorem State.raiseFault_ecmd (s : State) (k : Cause) (c : CmdWord) : (s.raiseFault k c).ecmd = if s.err then s.ecmd else c := rfl
@[simp] theorem State.raiseFault_ovf (s : State) (k : Cause) (c : CmdWord) : (s.raiseFault k c).ovf = (s.ovf || k == .overflow) := rfl
@[simp] theorem State.raiseFault_rsp (s : State) (k : Cause) (c : CmdWord) : (s.raiseFault k c).rsp = some ⟨0, true⟩ := rfl
@[simp] theorem State.raiseFault_inputs (s : State) (k : Cause) (c : CmdWord) : (s.raiseFault k c).inputs = s.inputs := rfl
@[simp] theorem State.raiseFault_draws (s : State) (k : Cause) (c : CmdWord) : (s.raiseFault k c).draws = s.draws := rfl

/-! `openSession` -/

@[simp] theorem openSession_h (s : State) : (openSession s).h = initialHash := rfl
@[simp] theorem openSession_v (s : State) : (openSession s).v = s.v := rfl
@[simp] theorem openSession_w (s : State) : (openSession s).w = s.w := rfl
@[simp] theorem openSession_m (s : State) : (openSession s).m = s.m := rfl
@[simp] theorem openSession_phase (s : State) : (openSession s).phase = .absorb := rfl
@[simp] theorem openSession_t (s : State) : (openSession s).t = 0 := rfl
@[simp] theorem openSession_bi (s : State) : (openSession s).bi = 0 := rfl
@[simp] theorem openSession_len (s : State) : (openSession s).len = 0 := rfl
@[simp] theorem openSession_mark (s : State) : (openSession s).mark = false := rfl
@[simp] theorem openSession_lw (s : State) : (openSession s).lw = false := rfl
@[simp] theorem openSession_err (s : State) : (openSession s).err = false := rfl
@[simp] theorem openSession_ecause (s : State) : (openSession s).ecause = 0 := rfl
@[simp] theorem openSession_ecmd (s : State) : (openSession s).ecmd = 0 := rfl
@[simp] theorem openSession_ovf (s : State) : (openSession s).ovf = false := rfl
@[simp] theorem openSession_rsp (s : State) : (openSession s).rsp = s.rsp := rfl
@[simp] theorem openSession_inputs (s : State) : (openSession s).inputs = s.inputs := rfl
@[simp] theorem openSession_draws (s : State) : (openSession s).draws = s.draws := rfl

/-! `appendByte` -/

@[simp] theorem appendByte_h (b : Byte) (s : State) : (appendByte b s).h = s.h := rfl
@[simp] theorem appendByte_v (b : Byte) (s : State) : (appendByte b s).v = s.v := rfl
@[simp] theorem appendByte_w (b : Byte) (s : State) : (appendByte b s).w = s.w := rfl
@[simp] theorem appendByte_m (b : Byte) (s : State) : (appendByte b s).m = s.m.write s.bi b := rfl
@[simp] theorem appendByte_phase (b : Byte) (s : State) : (appendByte b s).phase = if s.bi.toNat = 63 then .load else s.phase := rfl
@[simp] theorem appendByte_t (b : Byte) (s : State) : (appendByte b s).t = s.t := rfl
@[simp] theorem appendByte_bi (b : Byte) (s : State) : (appendByte b s).bi = if s.bi.toNat = 63 then 0 else s.bi + 1 := rfl
@[simp] theorem appendByte_len (b : Byte) (s : State) : (appendByte b s).len = s.len + 1 := rfl
@[simp] theorem appendByte_mark (b : Byte) (s : State) : (appendByte b s).mark = s.mark := rfl
@[simp] theorem appendByte_lw (b : Byte) (s : State) : (appendByte b s).lw = s.lw := rfl
@[simp] theorem appendByte_err (b : Byte) (s : State) : (appendByte b s).err = s.err := rfl
@[simp] theorem appendByte_ecause (b : Byte) (s : State) : (appendByte b s).ecause = s.ecause := rfl
@[simp] theorem appendByte_ecmd (b : Byte) (s : State) : (appendByte b s).ecmd = s.ecmd := rfl
@[simp] theorem appendByte_ovf (b : Byte) (s : State) : (appendByte b s).ovf = s.ovf := rfl
@[simp] theorem appendByte_rsp (b : Byte) (s : State) : (appendByte b s).rsp = s.rsp := rfl
@[simp] theorem appendByte_inputs (b : Byte) (s : State) : (appendByte b s).inputs = s.inputs := rfl
@[simp] theorem appendByte_draws (b : Byte) (s : State) : (appendByte b s).draws = s.draws := rfl

/-! `State.resetEvent` -/

@[simp] theorem State.resetEvent_h (s : State) : s.resetEvent.h = Vector.ofFn (Config.drawH s.draws) := rfl
@[simp] theorem State.resetEvent_v (s : State) : s.resetEvent.v = Vector.ofFn (Config.drawV s.draws) := rfl
@[simp] theorem State.resetEvent_w (s : State) : s.resetEvent.w = Vector.ofFn (Config.drawW s.draws) := rfl
@[simp] theorem State.resetEvent_m (s : State) : s.resetEvent.m = Memory.ofBytes (Config.drawM s.draws) := by rw [State.resetEvent]
@[simp] theorem State.resetEvent_phase (s : State) : s.resetEvent.phase = .idle := rfl
@[simp] theorem State.resetEvent_t (s : State) : s.resetEvent.t = 0 := rfl
@[simp] theorem State.resetEvent_bi (s : State) : s.resetEvent.bi = 0 := rfl
@[simp] theorem State.resetEvent_len (s : State) : s.resetEvent.len = 0 := rfl
@[simp] theorem State.resetEvent_mark (s : State) : s.resetEvent.mark = false := rfl
@[simp] theorem State.resetEvent_lw (s : State) : s.resetEvent.lw = false := rfl
@[simp] theorem State.resetEvent_err (s : State) : s.resetEvent.err = false := rfl
@[simp] theorem State.resetEvent_ecause (s : State) : s.resetEvent.ecause = 0 := rfl
@[simp] theorem State.resetEvent_ecmd (s : State) : s.resetEvent.ecmd = 0 := rfl
@[simp] theorem State.resetEvent_ovf (s : State) : s.resetEvent.ovf = false := rfl
@[simp] theorem State.resetEvent_rsp (s : State) : s.resetEvent.rsp = none := rfl
@[simp] theorem State.resetEvent_inputs (s : State) : s.resetEvent.inputs = s.inputs := rfl
@[simp] theorem State.resetEvent_draws (s : State) : s.resetEvent.draws = s.draws.next := rfl

/-! `Config.Draws.next` -/

@[simp] theorem Draws.next_engine (d : Config.Draws) : d.next.engine = d.engine := rfl
@[simp] theorem Draws.next_count (d : Config.Draws) : d.next.count = d.count + 1 := rfl

end Sys2Proof.Machine
end

