-- ==== Sys2Proof/Laws/Ops.lean ====
section
/-! SUPPORT. What each shared operation can do, said once: acceptance, legality, the fault entry's place in them, the
stores that `LOAD` fills, and the choice of the next transition. -/

namespace Sys2Proof.Machine

/-! ### Acceptance and legality -/

theorem whenReady_of_ready {s : State} {c : CmdWord} (h : s.ready c = true) (t : State) :
    whenReady s c t = .next t := by rw [whenReady, if_pos h]

theorem whenReady_of_not_ready {s : State} {c : CmdWord} (h : s.ready c = false) (t : State) :
    whenReady s c t = .next (s.hold c) := by rw [whenReady, if_neg (by simp [h])]

/-- An accepted or held command always leads to a next state, and it is one of the two. -/
theorem whenReady_next {s t u : State} {c : CmdWord} (h : whenReady s c t = .next u) :
    (s.ready c = true ∧ u = t) ∨ (s.ready c = false ∧ u = s.hold c) := by
  cases hr : s.ready c with
  | true => rw [whenReady_of_ready hr] at h; exact .inl ⟨rfl, by simpa using h.symm⟩
  | false => rw [whenReady_of_not_ready hr] at h; exact .inr ⟨rfl, by simpa using h.symm⟩

theorem whenLegal_of_legal {s : State} {legal : Phase → Bool} (h : legal s.phase = true) (c : CmdWord) (t : State) :
    whenLegal s legal c t = t := by rw [whenLegal, if_pos h]

theorem whenLegal_of_not_legal {s : State} {legal : Phase → Bool} (h : legal s.phase = false) (c : CmdWord)
    (t : State) : whenLegal s legal c t = s.raiseFault .phase c := by rw [whenLegal, if_neg (by simp [h])]

/-- Every word is ready when the engine is not busy (R66). -/
theorem State.ready_of_not_busy {s : State} (h : s.busy = false) (c : CmdWord) : s.ready c = true := by
  simp [State.ready, h]

/-- Readiness of the words of opcode 0 and 7 (R66). -/
theorem State.ready_nopWord (s : State) : s.ready nopWord = true := rfl

theorem State.ready_rdsWord (s : State) : s.ready rdsWord = true := rfl

/-- Readiness depends on the phase and the word alone. -/
theorem State.ready_congr {s t : State} (h : t.phase = s.phase) (c : CmdWord) : t.ready c = s.ready c := by
  simp [State.ready, State.busy, h]

/-- A busy engine holds every word but those of opcode 0 and 7. -/
theorem State.busy_of_not_ready {s : State} {c : CmdWord} (h : s.ready c = false) : s.busy = true := by
  cases hb : s.busy with
  | true => rfl
  | false => rw [State.ready_of_not_busy hb] at h; cases h

/-! ### Stores -/

/-- Step `LOAD`'s words (R110): the four bytes of the block at their place, and the rest as before. -/
theorem wordAt_loadWords (m : Memory) (w : Schedule) (i : Index) :
    wordAt (loadWords m w) i =
      if i.toNat < 16 then bytesToWord (m.read (4 * i)) (m.read (4 * i + 1)) (m.read (4 * i + 2)) (m.read (4 * i + 3))
      else wordAt w i := by
  have h4 : BitVec.ofNat 6 (4 * i.toNat) = 4 * i := by
    apply BitVec.eq_of_toNat_eq; simp [BitVec.toNat_mul]
  simp only [wordAt, loadWords, Vector.getElem_ofFn]
  split
  · rw [h4, Memory.memRead_four]
  · rfl

/-- Step `PAD` is one write of the last `padWidth` bytes of `M`, 9 to 64 of them (R45; log 26). -/
theorem execPad_writes {s t : State} (hw : s.m.wf = true) (h : execPad s = .next t) :
    t.m = s.m.writeFrom (64 - padWidth s.bi s.mark) t.readM ∧ 9 ≤ padWidth s.bi s.mark ∧ padWidth s.bi s.mark ≤ 64 := by
  cases h
  exact ⟨padMemory_eq_writeFrom hw s.bi s.len s.mark, padWidth_bounds s.bi s.mark⟩

/-! ### The next transition -/

/-- The step a phase selects (R69). -/
theorem stepSelected_eq (p : Phase) : stepSelected p =
    match p with
    | .pad => some .pad
    | .load => some .load
    | .expand => some .expand
    | .round => some .round
    | .accum => some .accum
    | .idle | .absorb | .done => none := by
  cases p <;> rfl

/-- A busy engine has a step to take (R114). -/
theorem engineTurn_of_busy {s : State} (h : s.busy = true) : ∃ i, engineTurn s = (some i, s) := by
  cases hp : s.phase <;> simp [State.busy, hp, Phase.busy] at h <;> simp [engineTurn, stepSelected_eq, hp]

/-- An engine that is not busy waits (R114, R167). -/
theorem engineTurn_of_not_busy {s : State} (h : s.busy = false) : engineTurn s = (none, s.silent) := by
  cases hp : s.phase <;> simp [State.busy, hp, Phase.busy] at h <;> simp [engineTurn, stepSelected_eq, hp]

/-- The choice of the next transition, case by case. -/
theorem fetch_nil {s : State} (h : s.inputs = []) : fetch s = engineTurn s := by rw [fetch, h]

theorem fetch_idle {s : State} {rest : List Input} (h : s.inputs = .idle :: rest) :
    fetch s = engineTurn (s.withInputs rest) := by rw [fetch, h]; rfl

theorem fetch_reset {s : State} {rest : List Input} (h : s.inputs = .reset :: rest) :
    fetch s = (none, (s.withInputs rest).resetEvent) := by rw [fetch, h]; rfl

theorem fetch_ready {s : State} {c : CmdWord} {rest : List Input} (h : s.inputs = .present c :: rest)
    (hr : s.ready c = true) : fetch s = (some (decodeCmd c), s.withInputs rest) := by
  rw [fetch, h]; simp only [hr, if_true]; rfl

theorem fetch_held {s : State} {c : CmdWord} {rest : List Input} (h : s.inputs = .present c :: rest)
    (hr : s.ready c = false) : fetch s = engineTurn s := by
  rw [fetch, h]; simp [hr]

/-- `Reset` draws a buffer in canonical form. -/
theorem State.resetEvent_wf (s : State) : s.resetEvent.m.wf = true := by
  rw [State.resetEvent_m]; exact Memory.wf_ofBytes _

end Sys2Proof.Machine
end

