-- ==== Sys2Proof/Laws/PerInstr.lean ====
section
/-! SUPPORT. The encoding of an instruction fits the instruction's own row of the opcode table, instruction by
instruction (R63, R67, R69). -/

namespace Sys2Proof.Laws.EncodeFitsRow

/-- Whether a code is one that the opcode table gives this row: match and mask for a command, no command's match for an
illegal word, the phase code for a step. -/
def fitsRowOf : Instr → Code → Bool
  | .nop, .cmd12 c => Pattern.nop.fits c
  | .init, .cmd12 c => Pattern.init.fits c
  | .data _, .cmd12 c => Pattern.data.fits c
  | .final, .cmd12 c => Pattern.final.fits c
  | .rdw _, .cmd12 c => Pattern.rdw.fits c
  | .rdb _, .cmd12 c => Pattern.rdb.fits c
  | .rdx _, .cmd12 c => Pattern.rdx.fits c
  | .rds, .cmd12 c => Pattern.rds.fits c
  | .illegal _, .cmd12 c => Pattern.commands.all fun p => !p.fits c
  | .pad, .phase3 p => p == 0b010
  | .load, .phase3 p => p == 0b011
  | .expand, .phase3 p => p == 0b100
  | .round, .phase3 p => p == 0b101
  | .accum, .phase3 p => p == 0b110
  | _, _ => false

/-- The encoding of a well-formed instruction is a code of its row. -/
def Statement (i : Instr) : Prop := i.wf = true → fitsRowOf i (encode i) = true

theorem nop : Statement .nop := by unfold Statement; decide
theorem init : Statement .init := by unfold Statement; decide
theorem data (b : Byte) : Statement (.data b) := by unfold Statement; revert b; decide +kernel
theorem final : Statement .final := by unfold Statement; decide
theorem rdw (i : BitVec 3) : Statement (.rdw i) := by unfold Statement; revert i; decide +kernel
theorem rdb (i : BitVec 5) : Statement (.rdb i) := by unfold Statement; revert i; decide +kernel
theorem rdx (i : BitVec 6) : Statement (.rdx i) := by unfold Statement; revert i; decide +kernel
theorem rds : Statement .rds := by unfold Statement; decide
theorem illegal (c : CmdWord) : Statement (.illegal c) := by unfold Statement; revert c; decide +kernel
theorem pad : Statement .pad := by unfold Statement; decide
theorem load : Statement .load := by unfold Statement; decide
theorem expand : Statement .expand := by unfold Statement; decide
theorem round : Statement .round := by unfold Statement; decide
theorem accum : Statement .accum := by unfold Statement; decide

end Sys2Proof.Laws.EncodeFitsRow
end

