-- ==== Sys2Proof/Laws/Step.lean ====
section
/-! SUPPORT. What a transition can do, said once: the inversion lemmas of an accepted command, an engine step, and one
step of the machine. Claims about every step follow from these by cases. -/

namespace Sys2Proof.Machine

/-- When an instruction faults, and with which cause: an illegal word; a command outside its legal phases; a byte at the
length limit (R139, R160). -/
def faultsWith (i : Instr) (s : State) : Cause → Prop
  | .illegal => ∃ w, i = .illegal w
  | .phase =>
    (i = .init ∧ opensSession s.phase = false) ∨
    (((∃ b, i = .data b) ∨ i = .final) ∧ takesMessage s.phase = false) ∨
    (((∃ k, i = .rdw k) ∨ (∃ k, i = .rdb k) ∨ (∃ k, i = .rdx k)) ∧ showsDigest s.phase = false)
  | .overflow => (∃ b, i = .data b) ∧ s.phase = .absorb ∧ s.len.toNat = Config.maxMsgBytes

/-- What a ready command does: answer, fault, open a session, take a byte, or end the message. -/
inductive CommandEffect (i : Instr) (s t : State) : Prop
  | answers (d : Word) : (i = .nop ∨ i = .rds ∨ (showsDigest s.phase = true ∧
      ((∃ k, i = .rdw k) ∨ (∃ k, i = .rdb k) ∨ (∃ k, i = .rdx k)))) → t = s.respond d → CommandEffect i s t
  | faults (k : Cause) (c : CmdWord) : faultsWith i s k → encode i = .cmd12 c → t = s.raiseFault k c →
      CommandEffect i s t
  | opens : i = .init → opensSession s.phase = true → t = (openSession s).respond 0 → CommandEffect i s t
  | takes (b : Byte) : i = .data b → s.phase = .absorb → s.len.toNat < Config.maxMsgBytes →
      t = (appendByte b s).respond 0 → CommandEffect i s t
  | ends : i = .final → s.phase = .absorb → t = ({ s with phase := .pad } : State).respond 0 → CommandEffect i s t

/-- A word decodes to no engine step. -/
theorem not_isStep_decodeCmd (c : CmdWord) : isStep (decodeCmd c) = false := by
  unfold decodeCmd; grind [isStep]

/-- A ready word has one of the effects of `CommandEffect` (R139). -/
theorem exec_command {s : State} {c : CmdWord} (hi : encode (decodeCmd c) = .cmd12 c) (hr : s.ready c = true) :
    ∃ t, exec (decodeCmd c) s = .next t ∧ CommandEffect (decodeCmd c) s t := by
  have hs := not_isStep_decodeCmd c
  have digest : ∀ d, ∃ t, readDigest s c d = .next t ∧
      ((showsDigest s.phase = true ∧ t = s.respond d) ∨ (showsDigest s.phase = false ∧ t = s.raiseFault .phase c)) := by
    intro d
    rw [readDigest, whenReady_of_ready hr]
    cases hl : showsDigest s.phase with
    | true => exact ⟨_, rfl, .inl ⟨rfl, whenLegal_of_legal hl _ _⟩⟩
    | false => exact ⟨_, rfl, .inr ⟨rfl, whenLegal_of_not_legal hl _ _⟩⟩
  cases hd : decodeCmd c with
  | nop =>
    rw [hd] at hi; cases hi
    exact ⟨_, whenReady_of_ready hr _, .answers 0 (.inl rfl) rfl⟩
  | init =>
    rw [hd] at hi; cases hi
    refine ⟨_, whenReady_of_ready hr _, ?_⟩
    cases hl : opensSession s.phase with
    | true => exact .opens rfl hl (whenLegal_of_legal hl _ _)
    | false => exact .faults .phase initWord (.inl ⟨rfl, hl⟩) rfl (whenLegal_of_not_legal hl _ _)
  | data b =>
    rw [hd] at hi; cases hi
    refine ⟨_, whenReady_of_ready hr _, ?_⟩
    cases hl : takesMessage s.phase with
    | false =>
      exact .faults .phase (dataWord b) (.inr (.inl ⟨.inl ⟨b, rfl⟩, hl⟩)) rfl (whenLegal_of_not_legal hl _ _)
    | true =>
      have ha : s.phase = .absorb := by simpa [takesMessage] using hl
      rw [whenLegal_of_legal hl]
      have hlt := s.len.isLt
      split
      next hlen => exact .faults .overflow (dataWord b) ⟨⟨b, rfl⟩, ha, hlen⟩ rfl rfl
      next hne => exact .takes b rfl ha (by simp only [Config.maxMsgBytes] at hne ⊢; omega) rfl
  | final =>
    rw [hd] at hi; cases hi
    refine ⟨_, whenReady_of_ready hr _, ?_⟩
    cases hl : takesMessage s.phase with
    | false => exact .faults .phase finalWord (.inr (.inl ⟨.inr rfl, hl⟩)) rfl (whenLegal_of_not_legal hl _ _)
    | true =>
      exact .ends rfl (by simpa [takesMessage] using hl) (whenLegal_of_legal hl _ _)
  | rdw k =>
    rw [hd] at hi; cases hi
    obtain ⟨t, ht, h⟩ := digest (digestWord s.h k)
    refine ⟨t, ht, ?_⟩
    rcases h with ⟨hl, h⟩ | ⟨hl, h⟩
    · exact .answers _ (.inr (.inr ⟨hl, .inl ⟨k, rfl⟩⟩)) h
    · exact .faults .phase _ (.inr (.inr ⟨.inl ⟨k, rfl⟩, hl⟩)) rfl h
  | rdb k =>
    rw [hd] at hi; cases hi
    obtain ⟨t, ht, h⟩ := digest (zext32 (digestByte s.h k))
    refine ⟨t, ht, ?_⟩
    rcases h with ⟨hl, h⟩ | ⟨hl, h⟩
    · exact .answers _ (.inr (.inr ⟨hl, .inr (.inl ⟨k, rfl⟩)⟩)) h
    · exact .faults .phase _ (.inr (.inr ⟨.inr (.inl ⟨k, rfl⟩), hl⟩)) rfl h
  | rdx k =>
    rw [hd] at hi; cases hi
    obtain ⟨t, ht, h⟩ := digest (zext32 (digestCharCode s.h k))
    refine ⟨t, ht, ?_⟩
    rcases h with ⟨hl, h⟩ | ⟨hl, h⟩
    · exact .answers _ (.inr (.inr ⟨hl, .inr (.inr ⟨k, rfl⟩)⟩)) h
    · exact .faults .phase _ (.inr (.inr ⟨.inr (.inr ⟨k, rfl⟩), hl⟩)) rfl h
  | rds =>
    rw [hd] at hi; cases hi
    exact ⟨_, whenReady_of_ready hr _, .answers _ (.inr (.inl rfl)) rfl⟩
  | illegal w =>
    rw [hd] at hi; cases hi
    exact ⟨_, whenReady_of_ready hr _, .faults .illegal c ⟨c, rfl⟩ rfl rfl⟩
  | pad | load | expand | round | accum => rw [hd] at hs; cases hs

/-- What one step of the machine is. -/
inductive StepKind (s t : State) : Prop
  | reset (rest : List Input) : s.inputs = .reset :: rest → t = (s.withInputs rest).resetEvent → StepKind s t
  | command (c : CmdWord) (rest : List Input) : s.inputs = .present c :: rest → s.ready c = true →
      (fetch s).1 = some (decodeCmd c) → exec (decodeCmd c) (s.withInputs rest) = .next t → StepKind s t
  | engine (i : Instr) (is : List Input) : s.busy = true → stepSelected s.phase = some i → (fetch s).1 = some i →
      (s.inputs = is ∨ s.inputs = .idle :: is) → (∀ c rest, s.inputs = .present c :: rest → s.ready c = false) →
      exec i (s.withInputs is) = .next t → StepKind s t
  | wait (is : List Input) : s.busy = false → (fetch s).1 = none → (s.inputs = is ∧ is = [] ∨ s.inputs = .idle :: is) →
      t = (s.withInputs is).silent → StepKind s t

theorem State.withInputs_self (s : State) : s.withInputs s.inputs = s := rfl

/-- The inversion lemma of the step. -/
theorem step_kind {s t : State} (h : step s = .next t) : StepKind s t := by
  have turn : ∀ is, (s.inputs = is ∨ s.inputs = .idle :: is) → fetch s = engineTurn (s.withInputs is) →
      (∀ c rest, s.inputs = .present c :: rest → s.ready c = false) →
      (s.busy = true ∨ is = [] ∨ s.inputs = .idle :: is) → StepKind s t := by
    intro is hin hf hh hw
    rw [step, hf] at h
    cases hb : s.busy with
    | true =>
      cases hp : stepSelected s.phase with
      | none => cases hq : s.phase <;> simp [State.busy, hq, Phase.busy, stepSelected_eq] at hb hp
      | some i =>
        simp only [engineTurn, State.withInputs_phase, hp] at h hf
        exact .engine i is hb hp (by rw [hf]) hin hh h
    | false =>
      have hb' : (s.withInputs is).busy = false := hb
      rw [engineTurn_of_not_busy hb'] at h hf
      refine .wait is hb (by rw [hf]) ?_ (by simpa using h.symm)
      rw [hb] at hw
      rcases hin with hin | hin
      · rcases hw with hw | hw | hw
        · cases hw
        · exact .inl ⟨hin, hw⟩
        · exact .inr hw
      · exact .inr hin
  match hin : s.inputs with
  | [] => exact turn [] (.inl hin) (by rw [fetch_nil hin]; rw [← hin, State.withInputs_self]) (by simp [hin]) (.inr (.inl rfl))
  | .idle :: rest => exact turn rest (.inr hin) (fetch_idle hin) (by simp [hin]) (.inr (.inr hin))
  | .reset :: rest =>
    rw [step, fetch_reset hin] at h
    exact .reset rest hin (by simpa using h.symm)
  | .present c :: rest =>
    cases hr : s.ready c with
    | true =>
      have hf := fetch_ready hin hr
      rw [step, hf] at h
      exact .command c rest hin hr (by rw [hf]) h
    | false =>
      refine turn s.inputs (.inl rfl) (by rw [fetch_held hin hr, State.withInputs_self]) ?_
        (.inl (State.busy_of_not_ready hr))
      intro c' rest' h'
      rw [hin] at h'
      cases h'
      exact hr

/-- No instruction draws free values: only `Reset` does. -/
theorem exec_draws {i : Instr} {s t : State} (h : exec i s = .next t) : t.draws = s.draws := by
  cases i <;>
    simp only [exec, execNop, execInit, execData, execFinal, execRdw, execRdb, execRdx, execRds, execIllegal, execPad,
      execLoad, execExpand, execRound, execAccum, readDigest, whenReady, whenLegal] at h <;>
    (repeat' split at h) <;> cases h <;> rfl

/-- An instance draws its own values for ever. -/
theorem step_engine {s t : State} (h : step s = .next t) : t.draws.engine = s.draws.engine := by
  cases step_kind h with
  | reset rest _ ht => subst ht; rfl
  | command c rest _ _ _ ht => rw [exec_draws ht]; rfl
  | engine i is _ _ _ _ _ ht => rw [exec_draws ht]; rfl
  | wait is _ _ _ ht => subst ht; rfl

end Sys2Proof.Machine
end

