-- ==== Sys2Proof/Laws/Runs.lean ====
section
/-! SUPPORT. Runs of several steps, and what is collected along them, cut at any point. -/

namespace Sys2Proof.Machine

/-- A run of no steps ends where it began. -/
theorem runsTo_zero {s t : State} : runsTo 0 s t ↔ s = t := by
  constructor
  · intro h; cases h; rfl
  · rintro rfl; rfl

/-- A run of one more step is a step and then the run. -/
theorem runsTo_succ {n : Nat} {s t : State} :
    runsTo (n + 1) s t ↔ ∃ u, step s = .next u ∧ runsTo n u t := by
  unfold runsTo
  rw [Host.Core.run.eq_def Sys2Proof.core (n + 1) s]
  have e : Sys2Proof.core.step s = step s := rfl
  simp only [e]
  cases h : step s with
  | next u => simp
  | fault r => cases r
  | refused r => simp

/-- Two runs, end to end, are one. -/
theorem runsTo_add {n m : Nat} {s u t : State} (h1 : runsTo n s u) (h2 : runsTo m u t) :
    runsTo (n + m) s t := by
  induction n generalizing s with
  | zero => rw [runsTo_zero] at h1; subst h1; simpa using h2
  | succ n ih =>
    obtain ⟨w, hw, h⟩ := runsTo_succ.1 h1
    rw [Nat.succ_add]; exact runsTo_succ.2 ⟨w, hw, ih h⟩

theorem engineSteps_succ {n : Nat} {s u : State} (h : step s = .next u) :
    engineSteps (n + 1) s = (fetch s).1.toList.filter isStep ++ engineSteps n u := by
  simp [engineSteps, h]

theorem engineSteps_add {n m : Nat} {s u : State} (h1 : runsTo n s u) :
    engineSteps (n + m) s = engineSteps n s ++ engineSteps m u := by
  induction n generalizing s with
  | zero => rw [runsTo_zero] at h1; subst h1; simp [engineSteps]
  | succ n ih =>
    obtain ⟨w, hw, h⟩ := runsTo_succ.1 h1
    rw [Nat.succ_add, engineSteps_succ hw, engineSteps_succ hw, ih h]; simp

theorem responses_succ {n : Nat} {s u : State} (h : step s = .next u) :
    responses (n + 1) s = u.rsp.toList ++ responses n u := by
  simp [responses, h]

theorem responses_add {n m : Nat} {s u : State} (h1 : runsTo n s u) :
    responses (n + m) s = responses n s ++ responses m u := by
  induction n generalizing s with
  | zero => rw [runsTo_zero] at h1; subst h1; simp [responses]
  | succ n ih =>
    obtain ⟨w, hw, h⟩ := runsTo_succ.1 h1
    rw [Nat.succ_add, responses_succ hw, responses_succ hw, ih h]; simp

theorem blocksLoaded_succ {n : Nat} {s u : State} (h : step s = .next u) :
    blocksLoaded (n + 1) s
      = (if (fetch s).1 = some .load then [s.m.block] else []) ++ blocksLoaded n u := by
  simp [blocksLoaded, h]

theorem blocksLoaded_add {n m : Nat} {s u : State} (h1 : runsTo n s u) :
    blocksLoaded (n + m) s = blocksLoaded n s ++ blocksLoaded m u := by
  induction n generalizing s with
  | zero => rw [runsTo_zero] at h1; subst h1; simp [blocksLoaded]
  | succ n ih =>
    obtain ⟨w, hw, h⟩ := runsTo_succ.1 h1
    rw [Nat.succ_add, blocksLoaded_succ hw, blocksLoaded_succ hw, ih h]; simp

end Sys2Proof.Machine
end

