-- ==== Sys2Proof/Tests/Slice0.lean ====
section
/-! SUPPORT. Small tests. Expected values are those of spec/95_test_vectors.md, spec/96_test_traces.md, or worked out by
hand from the rule named; and for every obligation with hypotheses a state and operands that meet them. -/

namespace Sys2Proof.Tests

open Sys2Proof Sys2Proof.Machine

/-! ### Helpers -/

/-- The next state, if there is one. -/
def nextOf : Host.Outcome State Fault Refusal → Option State
  | .next t => some t
  | .fault _ => none
  | .refused _ => none

/-- The state after one instruction. -/
def after (i : Instr) (s : State) : Option State := nextOf (exec i s)

/-- The response of one instruction. -/
def answer (i : Instr) (s : State) : Option Response := (after i s).bind State.rsp

/-- A small consistent state in each phase. -/
def inPhase : Phase → State
  | .idle => State.reset
  | .absorb => { State.reset with h := initialHash, phase := .absorb }
  | .pad => { State.reset with h := initialHash, phase := .pad }
  | .load => { State.reset with h := initialHash, phase := .load, len := 64 }
  | .expand => { State.reset with h := initialHash, phase := .expand, t := 16, len := 64 }
  | .round => { State.reset with h := initialHash, phase := .round, len := 64 }
  | .accum => { State.reset with h := initialHash, phase := .accum, len := 64 }
  | .done => { State.reset with h := initialHash, phase := .done, mark := true, lw := true }

/-- A hash state, for the digest reads: `H` after "abc" (vector V2). -/
def abcDigest : Words8 :=
  #v[0xba7816bf, 0x8f01cfea, 0x414140de, 0x5dae2223, 0xb00361a3, 0x96177a9c, 0xb410ff61, 0xf20015ad]

/-- `DONE` of the session "abc". -/
def abcDone : State := { inPhase .done with h := abcDigest, len := 3 }

/-- `ABSORB` at the length limit (95_test_vectors.md section 7). -/
def atLimit : State := { inPhase .absorb with len := BitVec.ofNat 61 (2 ^ 61 - 1), bi := 63 }

/-- The buffer `61 62 63`. -/
def abcMemory : Memory := [(0, 0x61), (1, 0x62), (2, 0x63)]

/-- The buffer of `Pad("abc")` (95_test_vectors.md section 2). -/
def abcPadded : Memory := [(0, 0x61), (1, 0x62), (2, 0x63), (3, 0x80), (63, 0x18)]

theorem inv_inPhase (p : Phase) : (inPhase p).Inv := by
  cases p <;> refine ⟨⟨?_, ?_, ?_, ?_, ?_, ?_, ?_, ?_, ?_, ?_, ?_⟩, ?_, ?_⟩ <;> decide

/-! ### Well-formedness: each check refuses a term that breaks it (R67) -/

theorem test_wf_refuses_nop_word : Instr.wf (.illegal 0x000) = false := by decide
theorem test_wf_refuses_init_word : Instr.wf (.illegal 0x100) = false := by decide
theorem test_wf_refuses_data_words : Instr.wf (.illegal 0x200) = false ∧ Instr.wf (.illegal 0x2ff) = false := by decide
theorem test_wf_refuses_final_word : Instr.wf (.illegal 0x300) = false := by decide
theorem test_wf_refuses_rdw_words : Instr.wf (.illegal 0x400) = false ∧ Instr.wf (.illegal 0x407) = false := by decide
theorem test_wf_refuses_rdb_words : Instr.wf (.illegal 0x500) = false ∧ Instr.wf (.illegal 0x51f) = false := by decide
theorem test_wf_refuses_rdx_words : Instr.wf (.illegal 0x600) = false ∧ Instr.wf (.illegal 0x63f) = false := by decide
theorem test_wf_refuses_rds_word : Instr.wf (.illegal 0x700) = false := by decide
theorem test_wf_admits_illegal_words :
    Instr.wf (.illegal 0x001) = true ∧ Instr.wf (.illegal 0x101) = true ∧ Instr.wf (.illegal 0x301) = true ∧
    Instr.wf (.illegal 0x408) = true ∧ Instr.wf (.illegal 0x520) = true ∧ Instr.wf (.illegal 0x640) = true ∧
    Instr.wf (.illegal 0x701) = true ∧ Instr.wf (.illegal 0x800) = true ∧ Instr.wf (.illegal 0xfff) = true := by decide

/-! ### Decoding: words written out from R63, R67 and R69 -/

theorem test_decode_nop : decodeCmd 0b000000000000 = .nop := by decide
theorem test_decode_init : decodeCmd 0b000100000000 = .init := by decide
theorem test_decode_data : decodeCmd 0b001001100001 = .data 0x61 ∧ decodeCmd 0b001010000000 = .data 0x80 := by decide
theorem test_decode_final : decodeCmd 0b001100000000 = .final := by decide
theorem test_decode_rdw : decodeCmd 0b010000000000 = .rdw 0 ∧ decodeCmd 0b010000000111 = .rdw 7 := by decide
theorem test_decode_rdb : decodeCmd 0b010100000000 = .rdb 0 ∧ decodeCmd 0b010100011111 = .rdb 31 := by decide
theorem test_decode_rdx : decodeCmd 0b011000000000 = .rdx 0 ∧ decodeCmd 0b011000111111 = .rdx 63 := by decide
theorem test_decode_rds : decodeCmd 0b011100000000 = .rds := by decide
theorem test_decode_illegal :
    decodeCmd 0b000000000001 = .illegal 0x001 ∧ decodeCmd 0b000011111111 = .illegal 0x0ff ∧
    decodeCmd 0b000100000001 = .illegal 0x101 ∧ decodeCmd 0b001110000000 = .illegal 0x380 ∧
    decodeCmd 0b010000001000 = .illegal 0x408 ∧ decodeCmd 0b010011111111 = .illegal 0x4ff ∧
    decodeCmd 0b010100100000 = .illegal 0x520 ∧ decodeCmd 0b011001000000 = .illegal 0x640 ∧
    decodeCmd 0b011010000000 = .illegal 0x680 ∧ decodeCmd 0b011100000001 = .illegal 0x701 ∧
    decodeCmd 0b100000000000 = .illegal 0x800 ∧ decodeCmd 0b101010111100 = .illegal 0xabc ∧
    decodeCmd 0b111111111111 = .illegal 0xfff := by decide
theorem test_decode_steps :
    decodePhase 0b010 = .ok .pad ∧ decodePhase 0b011 = .ok .load ∧ decodePhase 0b100 = .ok .expand ∧
    decodePhase 0b101 = .ok .round ∧ decodePhase 0b110 = .ok .accum := ⟨rfl, rfl, rfl, rfl, rfl⟩
theorem test_decode_no_step :
    decodePhase 0b000 = .error .noStepSelected ∧ decodePhase 0b001 = .error .noStepSelected ∧
    decodePhase 0b111 = .error .noStepSelected := ⟨rfl, rfl, rfl⟩
theorem test_encode_words :
    nopWord = 0x000 ∧ initWord = 0x100 ∧ dataWord 0x61 = 0x261 ∧ finalWord = 0x300 ∧ rdwWord 7 = 0x407 ∧
    rdbWord 31 = 0x51f ∧ rdxWord 63 = 0x63f ∧ rdsWord = 0x700 := by decide

/-- The table's rows as plain bits: 12 bits in two bytes, and a phase code in one. -/
theorem test_table_words :
    decodeTableWord 16 0x000 = some .nop ∧ decodeTableWord 16 0x2aa = some (.data 0xaa) ∧
    decodeTableWord 16 0x800 = some (.illegal 0x800) ∧ decodeTableWord 16 0x1000 = none ∧
    decodeTableWord 8 2 = some .pad ∧ decodeTableWord 8 6 = some .accum ∧ decodeTableWord 8 7 = none ∧
    decodeTableWord 8 8 = none := by decide

/-! ### From reset, the very next step runs the instruction placed (log 10) -/

/-- The instruction that the next step runs. -/
def runs (nbits w : Nat) : Option Instr := (fetch (State.reset.withFetchWord nbits w)).1

theorem test_first_step_commands :
    runs 16 0x000 = some .nop ∧ runs 16 0x100 = some .init ∧ runs 16 0x261 = some (.data 0x61) ∧
    runs 16 0x300 = some .final ∧ runs 16 0x403 = some (.rdw 3) ∧ runs 16 0x51f = some (.rdb 31) ∧
    runs 16 0x63f = some (.rdx 63) ∧ runs 16 0x700 = some .rds ∧ runs 16 0x800 = some (.illegal 0x800) := by decide
theorem test_first_step_engine :
    runs 8 2 = some .pad ∧ runs 8 3 = some .load ∧ runs 8 4 = some .expand ∧ runs 8 5 = some .round ∧
    runs 8 6 = some .accum := by decide
theorem test_first_step_runs :
    (nextOf (step (State.reset.withFetchWord 16 0x100))).map State.phase = some .absorb ∧
    (nextOf (step (State.reset.withFetchWord 8 3))).map State.phase = some .expand := by decide

/-! ### The bit and byte functions (95_test_vectors.md section 2) -/

theorem test_add32 :
    add32 [0xffffffff, 0x00000001] = 0 ∧ add32 [0x6a09e667, 0x5d6aebcd] = 0xc774d234 ∧
    add32 [0xffffffff, 0xffffffff, 0xffffffff, 0xffffffff, 0xffffffff] = 0xfffffffb ∧
    add32 [0x5be0cd19, 0x3587272b, 0x1f85c98c, 0x428a2f98, 0x61626380] = 0x54da50e8 := by decide
theorem test_rotr :
    rotr 0x00000001 1 = 0x80000000 ∧ rotr 0x80000000 31 = 0x00000001 ∧ rotr 0x12345678 7 = 0xf02468ac ∧
    rotr 0x12345678 0 = 0x12345678 ∧ rotr 0xdeadbeef 22 = 0xb6fbbf7a := by decide
theorem test_shr :
    shr 0x00000001 1 = 0 ∧ shr 0x80000000 31 = 1 ∧ shr 0x12345678 10 = 0x00048d15 ∧ shr 0xdeadbeef 19 = 0x00001bd5 := by
  decide
theorem test_words_and_bytes :
    bytesToWord 0x61 0x62 0x63 0x80 = 0x61626380 ∧ bytesToWord 0 0 0 0x18 = 0x00000018 ∧
    wordToBytes 0x00ab12f3 = [0x00, 0xab, 0x12, 0xf3] := by decide
theorem test_be64 :
    be64 24 = [0, 0, 0, 0, 0, 0, 0, 0x18] ∧ be64 440 = [0, 0, 0, 0, 0, 0, 0x01, 0xb8] ∧
    be64 (bitLength (BitVec.ofNat 61 (2 ^ 61 - 1))) = [0xff, 0xff, 0xff, 0xff, 0xff, 0xff, 0xff, 0xf8] := by decide
theorem test_pad_zeros :
    padZeros 0 = 55 ∧ padZeros 55 = 0 ∧ padZeros 56 = 63 ∧ padZeros 64 = 55 ∧ padZeros 1000 = 15 ∧
    padZeros (2 ^ 61 - 1) = 56 := by decide
theorem test_num_blocks :
    numBlocks 0 = 1 ∧ numBlocks 55 = 1 ∧ numBlocks 56 = 2 ∧ numBlocks 119 = 2 ∧ numBlocks 120 = 3 ∧
    numBlocks (2 ^ 61 - 1) = 2 ^ 55 + 1 := by decide
theorem test_pad_abc :
    pad [0x61, 0x62, 0x63] = some ([0x61, 0x62, 0x63, 0x80] ++ List.replicate 52 0 ++ [0, 0, 0, 0, 0, 0, 0, 0x18]) := by
  decide +kernel

/-! ### The mixing functions (section 3) and the compression (section 4, 96_test_traces.md) -/

theorem test_sigmas :
    smallSigma0 0x12345678 = 0xe7fce6ee ∧ smallSigma1 0x12345678 = 0xa1f78649 ∧
    bigSigma0 0x12345678 = 0x66146474 ∧ bigSigma1 0x12345678 = 0x3561abda := by decide
theorem test_sigmas_shift :
    smallSigma0 0xffffffff = 0x1fffffff ∧ smallSigma1 0xffffffff = 0x003fffff ∧
    bigSigma0 0xffffffff = 0xffffffff ∧ bigSigma1 0xffffffff = 0xffffffff := by decide
theorem test_ch_maj :
    ch 0x510e527f 0x9b05688c 0x1f83d9ab = 0x1f85c98c ∧ maj 0x6a09e667 0xbb67ae85 0x3c6ef372 = 0x3a6fe667 ∧
    ch 0xffffffff 0x11111111 0x22222222 = 0x11111111 ∧ maj 0xffffffff 0x11111111 0x22222222 = 0x33333333 := by decide
theorem test_round_constants : kTable.length = 64 ∧ roundConstant 0 = 0x428a2f98 ∧ roundConstant 63 = 0xc67178f2 := by
  decide
theorem test_round_0_of_abc :
    roundFn initialHash (roundConstant 0) 0x61626380 =
      #v[0x5d6aebcd, 0x6a09e667, 0xbb67ae85, 0x3c6ef372, 0xfa2a4622, 0x510e527f, 0x9b05688c, 0x1f83d9ab] := by decide
theorem test_schedule_abc :
    ((schedule abcPadded.block).toList.drop 15).take 5 =
      [0x00000018, 0x61626380, 0x000f0000, 0x7da86405, 0x600003c6] ∧
    (schedule abcPadded.block).toList.getLast? = some 0x12b1edeb := by decide +kernel
theorem test_schedule_of_zeros : schedule (Vector.replicate 64 0) = Vector.replicate 64 0 := by decide +kernel
theorem test_hash_abc : messageHash [0x61, 0x62, 0x63] = some abcDigest := by decide +kernel
theorem test_hash_empty :
    messageHash [] = some #v[0xe3b0c442, 0x98fc1c14, 0x9afbf4c8, 0x996fb924, 0x27ae41e4, 0x649b934c, 0xa495991b,
      0x7852b855] := by decide +kernel
theorem test_digest_hex : digestHexString abcDigest = "ba7816bf8f01cfea414140de5dae2223b00361a396177a9cb410ff61f20015ad" := by
  decide +kernel
theorem test_leading_zero_digits :
    (digestHex #v[0x00ab12f3, 0, 0, 0, 0, 0, 0, 0]).take 8 = [0x30, 0x30, 0x61, 0x62, 0x31, 0x32, 0x66, 0x33] := by decide

/-! ### Single commands (section 7) -/

theorem test_nop : after .nop State.reset = some { State.reset with rsp := some ⟨0, false⟩ } := by decide
theorem test_rds_reset : answer .rds State.reset = some ⟨0x00000000, false⟩ := by decide
theorem test_rds_done : answer .rds abcDone = some ⟨0x00000017, false⟩ := by decide
theorem test_init :
    (after .init abcDone).map (fun t => (t.phase, t.h, t.len, t.mark, t.status)) =
      some (.absorb, initialHash, 0, false, 0x00000001) := by decide
theorem test_init_clears_faults :
    (after .init (abcDone.raiseFault .phase 0x261)).map (fun t => (t.err, t.ecause, t.ecmd, t.ovf)) =
      some (false, 0, 0, false) := by decide
theorem test_data_first :
    (after (.data 0x61) (inPhase .absorb)).map (fun t => (t.m, t.bi, t.len, t.status)) =
      some ([(0, 0x61)], 1, 1, 0x00000001) := by decide
theorem test_data_fills_block :
    (after (.data 0x61) { inPhase .absorb with len := 63, bi := 63 }).map (fun t => (t.m, t.bi, t.len, t.status)) =
      some ([(63, 0x61)], 0, 64, 0x0000000b) := by decide
theorem test_data_overflow :
    (after (.data 0xaa) atLimit).map (fun t => (t.rsp, t.m, t.bi, t.len == atLimit.len, t.status)) =
      some (some ⟨0, true⟩, [], 63, true, 0x02aa0361) := by decide
theorem test_data_overflow_after_fault :
    (after (.data 0xaa) { atLimit with err := true, ecause := 2, ecmd := 0x400 }).map State.status =
      some 0x04000261 := by decide
theorem test_data_out_of_phase :
    (after (.data 0x61) State.reset).map State.status = some 0x02610220 ∧
    (after (.data 0x61) abcDone).map State.status = some 0x02610237 := by decide
theorem test_final : (after .final (inPhase .absorb)).map State.status = some 0x0000000a := by decide
theorem test_final_out_of_phase :
    (after .final State.reset).map State.status = some 0x03000220 ∧
    (after .final abcDone).map State.status = some 0x03000237 := by decide
theorem test_rdw : answer (.rdw 0) abcDone = some ⟨0xba7816bf, false⟩ ∧ answer (.rdw 7) abcDone = some ⟨0xf20015ad, false⟩ := by
  decide
theorem test_rdw_out_of_phase :
    (after (.rdw 0) State.reset).map State.status = some 0x04000220 ∧
    (after (.rdw 0) (inPhase .absorb)).map State.status = some 0x04000221 := by decide
theorem test_rdb : answer (.rdb 0) abcDone = some ⟨0xba, false⟩ ∧ answer (.rdb 31) abcDone = some ⟨0xad, false⟩ := by decide
theorem test_rdx : answer (.rdx 0) abcDone = some ⟨0x62, false⟩ ∧ answer (.rdx 63) abcDone = some ⟨0x64, false⟩ := by decide
theorem test_rdx_out_of_phase : (after (.rdx 63) (inPhase .absorb)).map State.status = some 0x063f0221 := by decide
theorem test_illegal :
    (after (.illegal 0x800) State.reset).map State.status = some 0x08000120 ∧
    (after (.illegal 0x408) (inPhase .absorb)).map State.status = some 0x04080121 := by decide
theorem test_first_fault_stays :
    (after (.illegal 0xfff) { abcDone with err := true, ecause := 2, ecmd := 0x261 }).map State.status =
      some 0x02610237 := by decide
theorem test_illegal_while_busy :
    (after (.illegal 0x0ff) { inPhase .pad with bi := 3, len := 3 }).map State.status = some 0x00ff012a := by decide
theorem test_held_while_busy :
    after (.data 0x64) (inPhase .pad) = some { inPhase .pad with inputs := [.present 0x264] } := by decide

/-! ### The engine steps (section 7, sections 4 of 95 and 96) -/

theorem test_pad_abc_step :
    (after .pad { inPhase .pad with m := abcMemory, bi := 3, len := 3 }).map
      (fun t => (t.m, t.mark, t.lw, t.bi, t.phase)) = some (abcPadded, true, true, 0, .load) := by decide +kernel
theorem test_pad_second_step :
    (after .pad { inPhase .pad with m := [(0, 0x61), (56, 0x80)], len := 56, mark := true }).map
      (fun t => (t.m, t.mark, t.lw, t.bi, t.phase)) = some ([(62, 0x01), (63, 0xc0)], true, true, 0, .load) := by
  decide +kernel
theorem test_pad_at_55 :
    (after .pad { inPhase .pad with m := [(54, 0x61)], bi := 55, len := 55 }).map (fun t => (t.m, t.mark, t.lw)) =
      some ([(54, 0x61), (55, 0x80), (62, 0x01), (63, 0xb8)], true, true) := by decide +kernel
theorem test_pad_at_56 :
    (after .pad { inPhase .pad with m := [(55, 0x61), (57, 0x62), (63, 0x63)], bi := 56, len := 56 }).map
      (fun t => (t.m, t.mark, t.lw)) = some ([(55, 0x61), (56, 0x80)], true, false) := by decide +kernel
theorem test_load :
    (after .load { inPhase .load with m := abcPadded }).map
      (fun t => (t.w.toList.take 16, t.v == initialHash, t.t, t.phase)) =
      some ([0x61626380] ++ List.replicate 14 0 ++ [0x18], true, 16, .expand) := by decide +kernel
theorem test_expand :
    (after .expand { inPhase .expand with w := (Vector.replicate 64 0).set 0 0x61626380 |>.set 15 0x18 }).map
      (fun t => (wordAt t.w 16, t.t, t.phase)) = some (0x61626380, 17, .expand) := by decide +kernel
theorem test_expand_last :
    (after .expand { inPhase .expand with t := 63 }).map (fun t => (t.t, t.phase)) = some (0, .round) := by decide
theorem test_round :
    (after .round { inPhase .round with v := initialHash, w := (Vector.replicate 64 0).set 0 0x61626380 }).map
      (fun t => (t.v, t.t, t.phase)) =
      some (#v[0x5d6aebcd, 0x6a09e667, 0xbb67ae85, 0x3c6ef372, 0xfa2a4622, 0x510e527f, 0x9b05688c, 0x1f83d9ab], 1, .round) := by
  decide +kernel
theorem test_round_last :
    (after .round { inPhase .round with t := 63 }).map (fun t => (t.t, t.phase)) = some (0, .accum) := by decide
theorem test_accum :
    (after .accum { inPhase .accum with v := Vector.replicate 8 0x506e3058 }).map (fun t => (t.h[0], t.phase)) =
      some (0xba7816bf, .absorb) := by decide
theorem test_accum_next_phase :
    (after .accum { inPhase .accum with mark := true }).map State.phase = some .pad ∧
    (after .accum { inPhase .accum with mark := true, lw := true }).map State.phase = some .done := by decide

/-! ### The step, reset, the port, the assembler -/

theorem test_idle_engine_waits : nextOf (step State.reset) = some State.reset := by decide
theorem test_held_command_lets_engine_step :
    (nextOf (step { inPhase .accum with inputs := [.present 0x264] })).map (fun t => (t.phase, t.inputs)) =
      some (.absorb, [.present 0x264]) := by decide
theorem test_reset_event :
    (nextOf (step { abcDone with err := true, inputs := [.reset] })).map (fun t => (t.phase, t.mark, t.len, t.err)) =
      some (.idle, false, 0, false) := by decide +kernel
theorem test_clock_edge_command_then_step :
    (nextOf (clockEdge ⟨false, true, 0x700⟩ (inPhase .accum))).map (fun t => (t.rsp, t.phase)) =
      some (some ⟨0x0000000e, false⟩, .absorb) := by decide
theorem test_assemble :
    Asm.assemble "MSG \"abc\" ; bytes\nFILL 0x61, 2\nRDW 7\n.word 0x9ab".toList =
      .ok [0x261, 0x262, 0x263, 0x261, 0x261, 0x407, 0x9ab] ∧
    Asm.assemble "RDW 8".toList = .error .outOfRange := ⟨rfl, rfl⟩

/-! ### Witnesses: the hypotheses of each obligation can be met, clause by clause -/

theorem witness_DecodeOfEncodeIsTheInstruction :
    (Instr.illegal 0x301).wf = true ∧ (Instr.rdx 63).wf = true ∧ Instr.accum.wf = true := by decide

theorem witness_EveryCodeHasOneMeaning : decodePhase 0b010 = .ok .pad ∧ decodePhase 0b110 = .ok .accum := ⟨rfl, rfl⟩

theorem witness_DecodeFollowsThePatterns :
    Pattern.data ∈ Pattern.commands ∧ Pattern.data.fits 0x2ff = true ∧ Pattern.rdb.fits 0x51f = true := by decide

theorem witness_StepRunsTheSelectedTransition_command :
    ∃ (s : State) (c : CmdWord) (rest : List Input), s.inputs = .present c :: rest ∧ s.ready c = true :=
  ⟨{ inPhase .round with inputs := [.present 0x700] }, 0x700, [], rfl, rfl⟩

theorem witness_StepRunsTheSelectedTransition_held :
    ∃ (s : State) (c : CmdWord) (rest : List Input) (i : Instr),
      s.inputs = .present c :: rest ∧ s.ready c = false ∧ decodePhase s.phase.code = .ok i :=
  ⟨{ inPhase .round with inputs := [.present 0x100] }, 0x100, [], .round, rfl, rfl, rfl⟩

theorem witness_StepRunsTheSelectedTransition_no_input :
    (inPhase .pad).inputs = [] ∧ decodePhase (inPhase .pad).phase.code = .ok .pad ∧
    (inPhase .done).inputs = [] ∧ decodePhase (inPhase .done).phase.code = .error .noStepSelected := ⟨rfl, rfl, rfl, rfl⟩

theorem witness_StepRunsTheSelectedTransition_idle :
    ∃ s t u : State, s.inputs = [.idle] ∧ decodePhase s.phase.code = .ok .accum ∧
      t.inputs = [.idle] ∧ decodePhase t.phase.code = .error .noStepSelected ∧ u.inputs = [.reset] :=
  ⟨{ inPhase .accum with inputs := [.idle] }, { inPhase .absorb with inputs := [.idle] },
    { inPhase .absorb with inputs := [.reset] }, rfl, rfl, rfl, rfl, rfl⟩

theorem inv_withInputs {s : State} (h : s.Inv) (is : List Input) : (s.withInputs is).Inv := by
  obtain ⟨⟨h1, h2, h3, h4, h5, h6, h7, h8, h9, h10, h11⟩, hb, hm⟩ := h
  exact ⟨⟨h1, h2, h3, h4, h5, h6, h7, h8, h9, h10, h11⟩, hb, hm⟩

/-- Also the witness of `StepRunsTheSelectedTransition`'s last clause and of `FrameOfReadingCommands`' held words. -/
theorem witness_HeldCommandBecomesReady :
    ∃ (s : State) (c : CmdWord) (rest : List Input), s.Inv ∧ s.inputs = .present c :: rest ∧ s.ready c = false :=
  ⟨(inPhase .pad).withInputs [.present 0x400, .reset], 0x400, [.reset], inv_withInputs (inv_inPhase .pad) _, rfl, rfl⟩

theorem witness_BusyEndsWithin230Steps :
    ∃ s : State, s.Inv ∧ s.busy = true ∧ noReset s.inputs :=
  ⟨(inPhase .pad).withInputs [.present 0x700, .present 0x261], inv_withInputs (inv_inPhase .pad) _, rfl,
    by simp [noReset, State.withInputs]⟩

theorem witness_EveryAcceptedCommandAnswersOnce :
    (inPhase .round).ready 0x7aa = true ∧ (inPhase .done).ready 0x261 = true ∧ isStep .pad = true ∧
    ∃ t, exec .pad (inPhase .pad) = .next t := ⟨rfl, rfl, rfl, _, rfl⟩

theorem witness_FaultEntryRecordsTheFirstFault :
    State.reset.err = false ∧ (State.reset.raiseFault .phase 0x400).err = true := ⟨rfl, rfl⟩

theorem witness_IllegalWordsFault :
    CmdWord.isIllegal 0x0ff = true ∧ (inPhase .pad).ready 0x0ff = true ∧
    CmdWord.isIllegal 0x800 = true ∧ (inPhase .idle).ready 0x800 = true := by decide

/-- Also of the fault clauses of `DATA`, `FINAL`, `RDW`, `RDB`, `RDX`. -/
theorem witness_FaultChecksAreOrdered :
    (inPhase .pad).ready 0x001 = true ∧ CmdWord.isIllegal 0x001 = true ∧
    (inPhase .idle).ready 0x2ff = true ∧ CmdWord.op 0x2ff = 0x2 ∧ (inPhase .idle).phase ≠ .absorb ∧
    (inPhase .absorb).ready 0x63f = true ∧ CmdWord.isIllegal 0x63f = false ∧ CmdWord.op 0x63f = 0x6 ∧
    (inPhase .absorb).phase ≠ .done ∧ atLimit.ready 0x2ff = true ∧ atLimit.phase = .absorb ∧
    atLimit.len.toNat = 2 ^ 61 - 1 ∧ (inPhase .done).ready initWord = true := by decide

theorem witness_OverflowRefusesTheByte :
    atLimit.phase = .absorb ∧ atLimit.len.toNat = 2 ^ 61 - 1 ∧ atLimit.err = false ∧
    (atLimit.raiseFault .phase 0x400).err = true := by decide

theorem witness_FaultsStickUntilInitOrReset :
    ∃ s t : State, step s = .next t ∧ s.err = true ∧ s.ovf = true ∧ ¬ nextIs s .init ∧ ¬ nextIsReset s :=
  ⟨(atLimit.raiseFault .overflow 0x2aa).withInputs [.present 0x300], _, rfl, rfl, rfl, by unfold nextIs; decide,
    by simp [nextIsReset, State.withInputs]⟩

theorem witness_FaultsStickUntilInitOrReset_cleared :
    ∃ s t u v : State, s.err = true ∧ step s = .next t ∧ nextIs s .init ∧ u.err = true ∧ step u = .next v ∧ nextIsReset u :=
  ⟨(abcDone.raiseFault .phase 0x261).withInputs [.present 0x100], _,
    (abcDone.raiseFault .phase 0x261).withInputs [.reset], _, rfl, rfl, rfl, rfl, rfl, [], rfl⟩

theorem witness_FaultsStickUntilInitOrReset_overflow :
    ∃ s t : State, step s = .next t ∧ s.ovf = false ∧ t.ovf = true :=
  ⟨atLimit.withInputs [.present 0x2aa], _, rfl, rfl, rfl⟩

theorem witness_FaultRegistersDoNotInfluence :
    ∃ s s' t : State, sameButFaults s s' ∧ s ≠ s' ∧ step s = .next t ∧ ¬ nextIs s .rds :=
  ⟨State.reset.withInputs [.present 0x100], (State.reset.raiseFault .phase 0x400).withInputs [.present 0x100], _,
    ⟨⟨rfl, rfl, rfl⟩, rfl, rfl, ⟨rfl, rfl, rfl, rfl, rfl⟩, rfl, rfl⟩, by decide, rfl, by unfold nextIs; decide⟩

theorem witness_NopChangesNothing : CmdWord.op 0x001 = 0 ∧ CmdWord.arg 0x001 ≠ 0 := by decide

/-- `DATA` at both sides of the block's end. -/
theorem witness_DataAppendsAByte :
    ∃ s t : State, s.phase = .absorb ∧ s.len.toNat < 2 ^ 61 - 1 ∧ s.m.wf = true ∧ s.bi.toNat = 63 ∧
      t.phase = .absorb ∧ t.len.toNat < 2 ^ 61 - 1 ∧ t.m.wf = true ∧ t.bi.toNat < 63 :=
  ⟨{ inPhase .absorb with len := 63, bi := 63 }, { inPhase .absorb with len := 62, bi := 62 }, by decide⟩

theorem witness_InitOpensASession : (inPhase .absorb).phase = .absorb := rfl

theorem witness_FinalStartsPadding : (inPhase .absorb).phase = .absorb := rfl

/-- The digest reads (`RDW`, `RDB`, `RDX`) and `DigestStaysUntilInitOrReset`. -/
theorem witness_reads_in_done :
    abcDone.phase = .done ∧ noReset abcDone.inputs ∧ Input.present initWord ∉ abcDone.inputs ∧ runsTo 1 abcDone abcDone :=
  ⟨rfl, by simp [noReset, abcDone, inPhase, State.reset], by simp [abcDone, inPhase, State.reset], rfl⟩

theorem witness_RdsAnswersTheStatusWord (p : Phase) :
    (inPhase p).Consistent ∧ (inPhase p).err = false ∧ (inPhase p).phase = p := by
  refine ⟨(inv_inPhase p).consistent, ?_, ?_⟩ <;> cases p <;> rfl

/-- The three cases of step `PAD`, at their boundaries. -/
theorem witness_PadBuildsThePadding :
    ∃ s t u : State, s.m.wf = true ∧ s.mark = false ∧ s.bi.toNat ≤ 55 ∧ t.m.wf = true ∧ t.mark = false ∧
      56 ≤ t.bi.toNat ∧ u.m.wf = true ∧ u.mark = true :=
  ⟨{ inPhase .pad with m := abcMemory, bi := 55, len := 55 }, { inPhase .pad with m := abcMemory, bi := 56, len := 56 },
    { inPhase .pad with m := abcPadded, mark := true, len := 56 }, by decide +kernel⟩

theorem witness_ExpandExtendsTheSchedule :
    (inPhase .expand).t.toNat = 16 ∧ ({ inPhase .expand with t := 63 } : State).t.toNat = 63 ∧
    (15 : Index) ≠ (inPhase .expand).t := by decide

theorem witness_RoundMixesTheWorkingRegisters :
    (inPhase .round).v = #v[0, 0, 0, 0, 0, 0, 0, 0] ∧ (inPhase .round).t.toNat < 63 ∧
    ({ inPhase .round with t := 63 } : State).t.toNat = 63 := by decide

theorem witness_AccumAddsIntoTheHashState :
    (inPhase .accum).mark = false ∧ ({ inPhase .accum with mark := true } : State).lw = false ∧
    (inPhase .done).mark = true ∧ (inPhase .done).lw = true := by decide

theorem witness_FrameOfReadingCommands :
    ∃ (s t : State) (c : CmdWord), (∀ b, decodeCmd c ≠ .data b) ∧ decodeCmd c ≠ .init ∧ decodeCmd c ≠ .final ∧
      exec (decodeCmd c) s = .next t ∧ s.ready c = true ∧ ∀ r, t.rsp = some r → r.err = false :=
  ⟨abcDone, _, 0x400, by decide, by decide, by decide, rfl, rfl, by intro r h; cases h; rfl⟩

theorem witness_FrameOfSessionCommands :
    (∃ t, exec .init (inPhase .pad) = .next t ∧ (inPhase .pad).busy = true) ∧
    (∃ t, exec (.data 0x61) (inPhase .absorb) = .next t ∧ (inPhase .absorb).m.wf = true) ∧
    (∃ t, exec (.data 0x61) atLimit = .next t ∧ atLimit.len.toNat = Config.maxMsgBytes) ∧
    (∃ t, exec .final (inPhase .absorb) = .next t ∧ ∀ r, t.rsp = some r → r.err = false) ∧
    ∃ t, exec .final (inPhase .done) = .next t ∧ (inPhase .done).phase ≠ .absorb :=
  ⟨⟨_, rfl, rfl⟩, ⟨_, rfl, rfl⟩, ⟨_, rfl, by decide⟩, ⟨_, rfl, by intro r h; cases h; rfl⟩, _, rfl, by decide⟩

theorem witness_FrameOfEngineSteps :
    (∃ t, exec .pad (inPhase .pad) = .next t) ∧ (∃ t, exec .load (inPhase .load) = .next t) ∧
    (∃ t, exec .expand (inPhase .expand) = .next t) ∧ (∃ t, exec .round (inPhase .round) = .next t) ∧
    ∃ t, exec .accum (inPhase .accum) = .next t := ⟨⟨_, rfl⟩, ⟨_, rfl⟩, ⟨_, rfl⟩, ⟨_, rfl⟩, _, rfl⟩

/-- A step that writes `H`, one that writes `M`, one that writes `LEN`, one that writes `V`, one that writes `W`. -/
theorem witness_OnlyTheseTransitionsWriteTheStores :
    ((nextOf (step (State.reset.withFetchWord 16 0x100))).map fun t => t.h != State.reset.h) = some true ∧
    ((nextOf (step ((inPhase .absorb).withFetchWord 16 0x261))).map fun t => t.m != [] && t.len != 0) = some true ∧
    ((nextOf (step (inPhase .load))).map fun t => t.v != (inPhase .load).v) = some true ∧
    ((nextOf (step { inPhase .load with m := abcPadded })).map fun t => t.w != (inPhase .load).w) = some true := by
  decide +kernel

/-- A state in every phase has the invariant, and steps: `StepKeepsTheInvariant`, `EveryTransitionIsInTheGraph`. -/
theorem witness_StepKeepsTheInvariant (p : Phase) : (inPhase p).Inv ∧ ∃ t, step (inPhase p) = .next t :=
  ⟨inv_inPhase p, by cases p <;> exact ⟨_, rfl⟩⟩

/-- A busy state that a run reaches (`INIT`, `FINAL`), and a command it accepts. -/
theorem witness_ReachableStatesAreConsistent :
    ∃ s : State, Reachable s ∧ s.busy = true ∧ ∃ (c : CmdWord) (t : State), s.ready c = true ∧ exec (decodeCmd c) s = .next t :=
  ⟨_, .step (.host [.present 0x300] (.step (.host [.present 0x100] .reset) rfl)) rfl, rfl, 0x700, _, rfl, rfl⟩

theorem witness_ResetClearsTheControlState : ∃ s : State, s.inputs = [.reset] ∧ s.phase = .done ∧ s.err = true :=
  ⟨(abcDone.raiseFault .phase 0x261).withInputs [.reset], rfl, rfl, rfl⟩

theorem witness_BusyCommandsAndStepsCommute :
    ∃ (s a b t u : State) (c : CmdWord) (i : Instr), s.busy = true ∧ s.ready c = true ∧
      decodePhase s.phase.code = .ok i ∧ exec (decodeCmd c) s = .next a ∧ exec i a = .next t ∧
      exec i s = .next b ∧ exec (decodeCmd c) b = .next u :=
  ⟨inPhase .accum, _, _, _, _, 0x001, .accum, rfl, rfl, rfl, rfl, rfl, rfl, rfl⟩

theorem witness_ClockEdgeIsAnAdmissibleSchedule :
    PinsIn.accepts ⟨false, true, 0x700⟩ (inPhase .round) = true ∧
    PinsIn.accepts ⟨false, true, 0x261⟩ (inPhase .round) = false ∧
    ∃ a, exec (decodeCmd 0x700) (inPhase .round) = .next a := ⟨rfl, rfl, _, rfl⟩

theorem witness_InstancesAreIndependent : ∃ (n : Nat) (i j : Fin n), i ≠ j := ⟨2, 0, 1, by decide⟩

theorem witness_OneBlockIsCompressed :
    ((inPhase .load).busy = true ∧ (inPhase .load).ready 0x7aa = true) ∧
    ∃ s : State, s.phase = .load ∧ noReset s.inputs ∧ s.mark = true ∧ s.lw = false :=
  ⟨⟨rfl, rfl⟩, { inPhase .load with mark := true, inputs := [.present 0x700, .present 0x261] }, rfl, by simp [noReset],
    rfl, rfl⟩

theorem witness_TimingDependsOnTheLengthAlone :
    ∃ s s' t t' : State, s'.phase = s.phase ∧ sameCounters s s' ∧ s ≠ s' ∧
      List.Forall₂ Input.sameShape s.inputs s'.inputs ∧ runsTo 2 s t ∧ runsTo 2 s' t' :=
  ⟨(inPhase .absorb).withInputs [.present (dataWord 0x61), .present 0x300],
    { (inPhase .absorb).withInputs [.present (dataWord 0x62), .present 0x300] with m := abcMemory }, _, _, rfl,
    ⟨rfl, rfl, rfl, rfl, rfl⟩, by decide, .cons (.inr ⟨0x61, 0x62, rfl, rfl⟩) (.cons (.inl rfl) .nil), rfl, rfl⟩

theorem witness_ResponsesShowNoWorkingState :
    ∃ s s' t t' : State, s ≠ s' ∧ s'.phase = s.phase ∧ sameFaults s s' ∧ s'.len = s.len ∧ (s.phase = .done → s'.h = s.h) ∧
      exec (decodeCmd 0x400) s = .next t ∧ exec (decodeCmd 0x400) s' = .next t' :=
  ⟨inPhase .absorb, { inPhase .absorb with h := abcDigest }, _, _, by decide, rfl, ⟨rfl, rfl, rfl, rfl⟩, rfl,
    (by intro h; cases h), rfl, rfl⟩

/-- The script of the message `61`, with a `NOP` and an `RDS` between, from reset and from a busy engine:
`SessionComputesTheHash` and `BlocksAreThoseOfThePaddedMessage`. -/
theorem witness_SessionComputesTheHash :
    State.reset.Inv ∧ State.reset.busy = false ∧ (inPhase .round).Inv ∧ (inPhase .round).busy = true ∧
    (∃ p, pad [0x61] = some p) ∧ [(0x61 : Byte)].length ≤ 2 ^ 61 - 1 ∧
    carries [.present 0x100, .present 0x000, .present 0x261, .idle, .present 0x300, .present 0x700] [0x61] :=
  ⟨inv_inPhase .idle, rfl, inv_inPhase .round, rfl, ⟨_, rfl⟩, by decide, rfl⟩

/-- The same with a read out of time and an illegal word. -/
theorem witness_FaultsDoNotSpoilTheDigest :
    carriesWithFaults [.present 0x400, .present 0x100, .present 0x261, .present 0x9ab, .present 0x300, .present 0x301]
      [0x61] := rfl

theorem witness_SessionsDoNotLeak :
    ∃ (s s' t t' : State) (is : List Input), s.Inv ∧ s'.Inv ∧ s.busy = false ∧ s'.busy = false ∧ s.m ≠ s'.m ∧
      noReset is ∧ runsTo 1 (s.withInputs (.present initWord :: is)) t ∧
      runsTo 1 (s'.withInputs (.present initWord :: is)) t' :=
  ⟨inPhase .done, { inPhase .absorb with m := abcMemory, len := 3, bi := 3 }, _, _, [.present 0x300, .present 0x400],
    inv_inPhase .done, by refine ⟨⟨?_, ?_, ?_, ?_, ?_, ?_, ?_, ?_, ?_, ?_, ?_⟩, ?_, ?_⟩ <;> decide, rfl, rfl, by decide,
    by simp [noReset], rfl, rfl⟩

theorem witness_functions :
    List.Perm [(1 : Word), 2] [2, 1] ∧ (31 : Nat) < 32 ∧ (∃ p, pad [0x61] = some p ∧ pad [0x61] = some p) ∧
    (List.replicate 64 (0 : Byte)).length = 64 * 1 ∧ ∃ b, (blocks (List.replicate 64 (0 : Byte)))[0]? = some b :=
  ⟨.swap 2 1 [], by decide, ⟨_, rfl, rfl⟩, rfl, _, rfl⟩

theorem witness_DigestFormsAgree : (digestBytes abcDigest)[31]? = some 0xad := by decide

theorem witness_PseudoCommandsSpellCommands :
    (0x261 : CmdWord) ∈ (Asm.Item.msg [0x61]).expand ∧ (∀ w, Asm.Item.msg [0x61] ≠ .command w) ∧
    ∀ w, Asm.Item.msg [0x61] ≠ .word w := ⟨by decide, by simp, by simp⟩

end Sys2Proof.Tests
end

section
/-! SUPPORT. The decoder said once: which word spells which command, by its two fields (R61, R63, R64, R67). -/

namespace Sys2Proof

/-- A word is its two fields. -/
theorem CmdWord.eq_iff_fields (c d : CmdWord) :
    c = d ↔ CmdWord.op c = CmdWord.op d ∧ CmdWord.arg c = CmdWord.arg d := by
  constructor
  · rintro rfl; exact ⟨rfl, rfl⟩
  · rintro ⟨hop, harg⟩
    have join (w : CmdWord) : CmdWord.op w ++ CmdWord.arg w = w := BitVec.extractLsb'_append_extractLsb'
    rw [← join c, ← join d, hop, harg]

/-- R63's test in the words R63 writes it in. -/
theorem Pattern.fits_iff (p : Pattern) (c : CmdWord) : p.fits c = true ↔ c &&& p.mask = p.value := by
  simp [Pattern.fits]

/-- The mask of a command covers the opcode, and its match has argument 0: a word fits when it has the command's opcode
and its must-be-zero bits are 0. -/
theorem Pattern.fits_iff_fields {p : Pattern} (hp : p ∈ Pattern.commands) (c : CmdWord) :
    p.fits c = true ↔ CmdWord.op c = CmdWord.op p.value ∧ CmdWord.arg c &&& CmdWord.arg p.mask = 0 := by
  have table : ∀ q ∈ Pattern.commands, CmdWord.op q.mask = BitVec.allOnes 4 ∧ CmdWord.arg q.value = 0 := by decide
  obtain ⟨hmask, hvalue⟩ := table p hp
  have hop : CmdWord.op (c &&& p.mask) = CmdWord.op c := by
    rw [CmdWord.op, BitVec.extractLsb'_and]
    exact (congrArg _ hmask).trans BitVec.and_allOnes
  have harg : CmdWord.arg (c &&& p.mask) = CmdWord.arg c &&& CmdWord.arg p.mask := BitVec.extractLsb'_and
  rw [Pattern.fits_iff, CmdWord.eq_iff_fields, hop, harg, hvalue]

/-- At most one command's pattern fits a word (R64): the commands' opcodes differ. -/
theorem Pattern.fits_unique {p q : Pattern} {c : CmdWord} (hp : p ∈ Pattern.commands) (hq : q ∈ Pattern.commands)
    (hpc : p.fits c = true) (hqc : q.fits c = true) : p = q := by
  have opcodes : ∀ p ∈ Pattern.commands, ∀ q ∈ Pattern.commands, CmdWord.op p.value = CmdWord.op q.value → p = q := by
    decide
  exact opcodes p hp q hq
    (((Pattern.fits_iff_fields hp c).1 hpc).1.symm.trans ((Pattern.fits_iff_fields hq c).1 hqc).1)

theorem and_allOnes_eq_zero_iff (x : Byte) : x &&& BitVec.allOnes 8 = 0 ↔ x = 0 := by
  rw [BitVec.and_allOnes]

/-- The bits of a byte from bit `k` up are 0 exactly when its value is below `2^k`. -/
theorem and_allOnes_shiftLeft_eq_zero_iff (x : Byte) (k : Nat) :
    x &&& BitVec.allOnes 8 <<< k = 0 ↔ x.toNat < 2 ^ k := by
  have hx := x.isLt
  have hle : x.toNat / 2 ^ k * 2 ^ k ≤ x.toNat := Nat.div_mul_le_self _ _
  have htoNat : (x >>> k <<< k).toNat = x.toNat / 2 ^ k * 2 ^ k := by
    rw [BitVec.toNat_shiftLeft, BitVec.toNat_ushiftRight, Nat.shiftRight_eq_div_pow, Nat.shiftLeft_eq,
      Nat.mod_eq_of_lt (by omega)]
  rw [← BitVec.shiftLeft_ushiftRight, ← BitVec.toNat_inj, htoNat]
  simp

/-! R63's rows by opcode and argument. -/

@[simp] theorem Pattern.nop_fits_iff (c : CmdWord) :
    Pattern.nop.fits c = true ↔ CmdWord.op c = 0 ∧ CmdWord.arg c = 0 :=
  (Pattern.fits_iff_fields (by decide) c).trans (and_congr_right' (and_allOnes_eq_zero_iff _))

@[simp] theorem Pattern.init_fits_iff (c : CmdWord) :
    Pattern.init.fits c = true ↔ CmdWord.op c = 1 ∧ CmdWord.arg c = 0 :=
  (Pattern.fits_iff_fields (by decide) c).trans (and_congr_right' (and_allOnes_eq_zero_iff _))

@[simp] theorem Pattern.data_fits_iff (c : CmdWord) : Pattern.data.fits c = true ↔ CmdWord.op c = 2 :=
  (Pattern.fits_iff_fields (by decide) c).trans (and_iff_left BitVec.and_zero)

@[simp] theorem Pattern.final_fits_iff (c : CmdWord) :
    Pattern.final.fits c = true ↔ CmdWord.op c = 3 ∧ CmdWord.arg c = 0 :=
  (Pattern.fits_iff_fields (by decide) c).trans (and_congr_right' (and_allOnes_eq_zero_iff _))

@[simp] theorem Pattern.rdw_fits_iff (c : CmdWord) :
    Pattern.rdw.fits c = true ↔ CmdWord.op c = 4 ∧ (CmdWord.arg c).toNat < 8 :=
  (Pattern.fits_iff_fields (by decide) c).trans (and_congr_right' (and_allOnes_shiftLeft_eq_zero_iff _ 3))

@[simp] theorem Pattern.rdb_fits_iff (c : CmdWord) :
    Pattern.rdb.fits c = true ↔ CmdWord.op c = 5 ∧ (CmdWord.arg c).toNat < 32 :=
  (Pattern.fits_iff_fields (by decide) c).trans (and_congr_right' (and_allOnes_shiftLeft_eq_zero_iff _ 5))

@[simp] theorem Pattern.rdx_fits_iff (c : CmdWord) :
    Pattern.rdx.fits c = true ↔ CmdWord.op c = 6 ∧ (CmdWord.arg c).toNat < 64 :=
  (Pattern.fits_iff_fields (by decide) c).trans (and_congr_right' (and_allOnes_shiftLeft_eq_zero_iff _ 6))

@[simp] theorem Pattern.rds_fits_iff (c : CmdWord) :
    Pattern.rds.fits c = true ↔ CmdWord.op c = 7 ∧ CmdWord.arg c = 0 :=
  (Pattern.fits_iff_fields (by decide) c).trans (and_congr_right' (and_allOnes_eq_zero_iff _))

/-- What it takes of a word to decode to an instruction (R64): the row of R63 fits and the operand is the argument's low
bits, or no row fits. -/
def Spells (c : CmdWord) : Instr → Prop
  | .nop => Pattern.nop.fits c = true
  | .init => Pattern.init.fits c = true
  | .data b => Pattern.data.fits c = true ∧ b = c.extractLsb' 0 8
  | .final => Pattern.final.fits c = true
  | .rdw i => Pattern.rdw.fits c = true ∧ i = c.extractLsb' 0 3
  | .rdb i => Pattern.rdb.fits c = true ∧ i = c.extractLsb' 0 5
  | .rdx i => Pattern.rdx.fits c = true ∧ i = c.extractLsb' 0 6
  | .rds => Pattern.rds.fits c = true
  | .illegal d => d = c ∧ ∀ p ∈ Pattern.commands, p.fits c = false
  | .pad | .load | .expand | .round | .accum => False

/-- A word spells what it decodes to. -/
theorem spells_decodeCmd (c : CmdWord) : Spells c (decodeCmd c) := by
  unfold decodeCmd
  split_ifs with hnop hinit hdata hfinal hrdw hrdb hrdx hrds
  · exact hnop
  · exact hinit
  · exact ⟨hdata, rfl⟩
  · exact hfinal
  · exact ⟨hrdw, rfl⟩
  · exact ⟨hrdb, rfl⟩
  · exact ⟨hrdx, rfl⟩
  · exact hrds
  · refine ⟨rfl, fun p hp => ?_⟩
    simp only [Pattern.commands, List.mem_cons, List.not_mem_nil, or_false] at hp
    rcases hp with rfl | rfl | rfl | rfl | rfl | rfl | rfl | rfl <;> exact Bool.eq_false_of_not_eq_true ‹_›

/-- The order in which the decoder tries the rows does not matter: a word that spells an instruction decodes to it. A row
that fits fixes the opcode, and no other row has that opcode. -/
theorem decodeCmd_of_spells {c : CmdWord} {i : Instr} (h : Spells c i) : decodeCmd c = i := by
  cases i with
  | illegal d =>
    obtain ⟨rfl, hnone⟩ := h
    simp only [Pattern.commands, List.forall_mem_cons] at hnone
    simp [decodeCmd, hnone, -Pattern.nop_fits_iff]
  | nop | init | data b | final | rdw i | rdb i | rdx i | rds => simp_all [Spells, decodeCmd]
  | pad | load | expand | round | accum => exact h.elim

/-- `Decode` (R64) as an equivalence: a word decodes to the instruction that it spells, and to no other. -/
theorem decodeCmd_eq_iff {c : CmdWord} {i : Instr} : decodeCmd c = i ↔ Spells c i := by
  constructor
  · rintro rfl; exact spells_decodeCmd c
  · exact decodeCmd_of_spells

/-- R67: the words that fit no row, by opcode and must-be-zero bits. The eight rows have the opcodes 0 to 7, one each, so
what is left is the other eight opcodes and, under each row's opcode, the arguments that the row refuses. -/
theorem forall_commands_not_fits_iff (c : CmdWord) :
    (∀ p ∈ Pattern.commands, p.fits c = false) ↔
      8 ≤ (CmdWord.op c).toNat ∨
      ((CmdWord.op c = 0x0 ∨ CmdWord.op c = 0x1 ∨ CmdWord.op c = 0x3 ∨ CmdWord.op c = 0x7) ∧ CmdWord.arg c ≠ 0) ∨
      (CmdWord.op c = 0x4 ∧ 8 ≤ (CmdWord.arg c).toNat) ∨ (CmdWord.op c = 0x5 ∧ 32 ≤ (CmdWord.arg c).toNat) ∨
      (CmdWord.op c = 0x6 ∧ 64 ≤ (CmdWord.arg c).toNat) := by
  simp only [Pattern.commands, List.forall_mem_cons, List.not_mem_nil, false_imp_iff, implies_true, and_true,
    ← Bool.not_eq_true, Pattern.nop_fits_iff, Pattern.init_fits_iff, Pattern.data_fits_iff, Pattern.final_fits_iff,
    Pattern.rdw_fits_iff, Pattern.rdb_fits_iff, Pattern.rdx_fits_iff, Pattern.rds_fits_iff]
  bv_omega

/-- A word is `ILLEGAL` when no row fits (R64). -/
theorem decodeCmd_eq_illegal_iff (c : CmdWord) :
    decodeCmd c = .illegal c ↔ ∀ p ∈ Pattern.commands, p.fits c = false := by
  rw [decodeCmd_eq_iff]
  exact and_iff_right rfl

/-- Settles O3: each clause is `decodeCmd_eq_iff` at one instruction, with R63's test written out. -/
theorem decodeFollowsThePatterns : Obligations.DecodeFollowsThePatterns := by
  unfold Obligations.DecodeFollowsThePatterns
  have row (p : Pattern) (c : CmdWord) {i : Instr} (h : Spells c i ↔ p.fits c = true) :
      decodeCmd c = i ↔ c &&& p.mask = p.value := decodeCmd_eq_iff.trans (h.trans (p.fits_iff c))
  have operandRow (p : Pattern) (c : CmdWord) {i : Instr} {operand : Prop}
      (h : Spells c i ↔ p.fits c = true ∧ operand) : decodeCmd c = i ↔ c &&& p.mask = p.value ∧ operand :=
    decodeCmd_eq_iff.trans (h.trans (and_congr_left' (p.fits_iff c)))
  exact ⟨rfl, fun c => ⟨row .nop c .rfl, row .init c .rfl, fun _ => operandRow .data c .rfl, row .final c .rfl,
    fun _ => operandRow .rdw c .rfl, fun _ => operandRow .rdb c .rfl, fun _ => operandRow .rdx c .rfl,
    row .rds c .rfl, decodeCmd_eq_illegal_iff c, fun _ hp _ hq => Pattern.fits_unique hp hq,
    fun p _ => p.fits_iff c⟩⟩

/-- Settles O11: the words that fit no row are those of R67, and the meaning of `ILLEGAL` checks nothing but readiness. -/
theorem illegalWordsFault : Obligations.IllegalWordsFault := by
  unfold Obligations.IllegalWordsFault
  intro c
  exact ⟨(decodeCmd_eq_illegal_iff c).trans (forall_commands_not_fits_iff c),
    fun _ _ hready => Machine.whenReady_of_ready hready _⟩

end Sys2Proof
end

section
/-! SUPPORT. How many steps a busy engine takes until it is not busy (R66, R186), and that they leave a held word as it
is. -/

namespace Sys2Proof.Machine

/-- R66's ready condition, by the word's opcode. -/
theorem State.ready_iff (s : State) (c : CmdWord) :
    s.ready c = true ↔ CmdWord.op c = 0x0 ∨ CmdWord.op c = 0x7 ∨ s.busy = false := by
  simp [State.ready, or_assoc]

/-- A word that is held once is held whenever the engine is busy: readiness depends on the opcode and `BUSY` (R66). -/
theorem State.not_ready_of_busy {s t : State} {c : CmdWord} (h : s.ready c = false) (hb : t.busy = true) :
    t.ready c = false := by
  rw [← Bool.not_eq_true, State.ready_iff] at h ⊢
  rintro (hop | hop | hnot)
  · exact h (.inl hop)
  · exact h (.inr (.inl hop))
  · rw [hb] at hnot; cases hnot

/-- An engine step leads to a next state, answers nothing, and leaves the host's inputs and the fault registers. -/
theorem exec_engineStep {i : Instr} (hi : isStep i = true) (s : State) :
    ∃ t, exec i s = .next t ∧ t.rsp = none ∧ t.inputs = s.inputs ∧ sameFaults s t := by
  cases i with
  | pad | load | expand | round | accum => exact ⟨_, rfl, rfl, rfl, rfl, rfl, rfl, rfl⟩
  | nop | init | data | final | rdw | rdb | rdx | rds | illegal => cases hi

/-- What a phase selects is an engine step (R69). -/
theorem isStep_of_stepSelected {p : Phase} {i : Instr} (h : stepSelected p = some i) : isStep i = true := by
  rw [stepSelected_eq] at h
  cases p <;> cases h <;> rfl

/-- A busy phase selects a step (R69). -/
theorem stepSelected_of_busy {p : Phase} (h : p.busy = true) : ∃ i, stepSelected p = some i := by
  cases p with
  | pad | load | expand | round | accum => exact ⟨_, rfl⟩
  | idle | absorb | done => cases h

/-- A busy engine whose head input is a held word takes the step that `PHASE` selects, in the state as it is (R47). -/
theorem step_of_held {s : State} {c : CmdWord} {rest : List Input} (hin : s.inputs = .present c :: rest)
    (hr : s.ready c = false) : ∃ i, stepSelected s.phase = some i ∧ step s = exec i s := by
  obtain ⟨i, hi⟩ := stepSelected_of_busy (State.busy_of_not_ready hr)
  refine ⟨i, hi, ?_⟩
  rw [step, fetch_held hin hr, engineTurn, hi]

/-! ### The steps left -/

/-- The steps after `ACCUM` until the engine is not busy: those of a second padding block if the marker stands and the
length does not, else none (R113). -/
def stepsAfterAccum (mark lw : Bool) : Nat := if mark = true ∧ lw = false then 115 else 0

/-- The engine steps from a state until the engine is not busy: what is left of the block in work (`LOAD`, 48 times
`EXPAND`, 64 times `ROUND`, `ACCUM`), `PAD` before it, and what follows its `ACCUM`. -/
def State.stepsLeft (s : State) : Nat :=
  match s.phase with
  | .idle | .absorb | .done => 0
  | .pad => 115 + stepsAfterAccum true (if s.mark = false ∧ 55 < s.bi.toNat then s.lw else true)
  | .load => 114 + stepsAfterAccum s.mark s.lw
  | .expand => (64 - s.t.toNat) + 65 + stepsAfterAccum s.mark s.lw
  | .round => (64 - s.t.toNat) + 1 + stepsAfterAccum s.mark s.lw
  | .accum => 1 + stepsAfterAccum s.mark s.lw

theorem State.stepsLeft_of_not_busy {s : State} (h : s.busy = false) : s.stepsLeft = 0 := by
  cases hp : s.phase <;> simp_all [State.stepsLeft, State.busy, Phase.busy]

theorem stepsAfterAccum_le (mark lw : Bool) : stepsAfterAccum mark lw ≤ 115 := by
  unfold stepsAfterAccum; split <;> omega

/-- The bound of R66 and R186, reached by a first padding block without room for the length. `T` is at least 16 in
`EXPAND` (R30). -/
theorem State.stepsLeft_le {s : State} (h : s.Inv) : s.stepsLeft ≤ 230 := by
  have hafter := stepsAfterAccum_le s.mark s.lw
  cases hp : s.phase <;> simp only [State.stepsLeft, hp]
  case pad => exact Nat.add_le_add_left (stepsAfterAccum_le _ _) 115
  case expand => have := h.consistent.expand hp; omega
  all_goals omega

/-- Every engine step that `PHASE` selects is one step less. -/
theorem stepsLeft_eq_succ_of_engineStep {i : Instr} {s t : State} (hi : stepSelected s.phase = some i)
    (h : exec i s = .next t) : s.stepsLeft = t.stepsLeft + 1 := by
  rw [stepSelected_eq] at hi
  cases hp : s.phase <;> rw [hp] at hi <;> cases hi <;> cases h
  case pad => simp only [State.stepsLeft, hp]; omega
  case load => simp only [State.stepsLeft, hp, State.silent_mark, State.silent_lw, BitVec.reduceToNat]; omega
  case expand =>
    have ht := s.t.isLt
    by_cases hlast : s.t.toNat = 63
    · simp only [State.stepsLeft, hp, hlast, if_true, State.silent_mark, State.silent_lw, BitVec.reduceToNat]
      omega
    · simp only [State.stepsLeft, hp, hlast, if_false, State.silent_mark, State.silent_lw]
      bv_omega
  case round =>
    have ht := s.t.isLt
    by_cases hlast : s.t.toNat = 63
    · simp only [State.stepsLeft, hp, hlast, if_true, State.silent_mark, State.silent_lw]
      omega
    · simp only [State.stepsLeft, hp, hlast, if_false, State.silent_mark, State.silent_lw]
      bv_omega
  case accum =>
    cases hm : s.mark <;> cases hl : s.lw <;>
      simp [State.stepsLeft, hp, hm, hl, afterAccum, stepsAfterAccum]

/-- While the word at the head of the inputs is held, the engine steps until it is not busy, and the word is as before. -/
theorem runsTo_of_held {s : State} {c : CmdWord} {rest : List Input} (hin : s.inputs = .present c :: rest)
    (hr : s.ready c = false) :
    ∃ t, runsTo s.stepsLeft s t ∧ t.inputs = s.inputs ∧ t.busy = false ∧ sameFaults s t ∧
      responses s.stepsLeft s = [] := by
  obtain ⟨i, hi, hstep⟩ := step_of_held hin hr
  obtain ⟨u, hu, hrsp, hinputs, herr, hecause, hecmd, hovf⟩ := exec_engineStep (isStep_of_stepSelected hi) s
  have hleft := stepsLeft_eq_succ_of_engineStep hi hu
  rw [hu] at hstep
  rw [hleft, responses_succ hstep, hrsp]
  cases hb : u.busy with
  | false =>
    rw [State.stepsLeft_of_not_busy hb]
    exact ⟨u, runsTo_succ.2 ⟨u, hstep, runsTo_zero.2 rfl⟩, hinputs, hb, ⟨herr, hecause, hecmd, hovf⟩, rfl⟩
  | true =>
    obtain ⟨t, hrun, hinputs', hb', ⟨herr', hecause', hecmd', hovf'⟩, hresp⟩ :=
      runsTo_of_held (hinputs.trans hin) (State.not_ready_of_busy hr hb)
    exact ⟨t, runsTo_succ.2 ⟨u, hstep, hrun⟩, hinputs'.trans hinputs, hb',
      ⟨herr'.trans herr, hecause'.trans hecause, hecmd'.trans hecmd, hovf'.trans hovf⟩, by simpa using hresp⟩
termination_by s.stepsLeft
decreasing_by omega

/-- Settles O7: the steps left are at most 230 by the invariant, and a held word waits for them untouched. -/
theorem heldCommandBecomesReady : Obligations.HeldCommandBecomesReady := by
  unfold Obligations.HeldCommandBecomesReady
  refine ⟨State.ready_iff, fun s c rest hinv hin hr => ?_⟩
  obtain ⟨t, hrun, hinputs, hb, hfaults, hresp⟩ := runsTo_of_held hin hr
  exact ⟨s.stepsLeft, t, State.stepsLeft_le hinv, hrun, hinputs, State.ready_of_not_busy hb c, hb, hfaults, hresp⟩

end Sys2Proof.Machine
end

section
/-! SUPPORT. The rotation and the shift by value and bit by bit (R81, R82), words and their bytes (R84 to R86), and the
blocks of a padded message (R91). -/

namespace Sys2Proof

/-! ### Rotation and shift -/

/-- R81 by value. -/
theorem toNat_rotr (x : Word) (n : Fin 32) :
    (rotr x n).toNat = (x.toNat / 2 ^ n.val + x.toNat * 2 ^ (32 - n.val)) % 2 ^ 32 := by
  rw [rotr, BitVec.toNat_ofNat, Nat.shiftRight_eq_div_pow, Nat.shiftLeft_eq]

/-- R82 by value. -/
theorem toNat_shr (x : Word) (n : Fin 32) : (shr x n).toNat = x.toNat / 2 ^ n.val := by
  rw [shr_eq, BitVec.toNat_ushiftRight, Nat.shiftRight_eq_div_pow]

/-- R81 bit by bit: the bits below `32 - n` come from `n` places above, the others from the `n` lowest bits. -/
theorem getLsbD_rotr (x : Word) (n : Fin 32) {i : Nat} (hi : i < 32) :
    (rotr x n).getLsbD i = x.getLsbD ((i + n.val) % 32) := by
  rw [rotr_eq, BitVec.getLsbD_rotateRight, Nat.mod_eq_of_lt n.isLt]
  by_cases h : i < 32 - n.val
  · rw [decide_eq_true h, cond_true, Nat.mod_eq_of_lt (by omega : i + n.val < 32), Nat.add_comm]
  · have hwrap : (i + n.val) % 32 = i - (32 - n.val) := by omega
    rw [decide_eq_false h, cond_false, hwrap, decide_eq_true hi, Bool.true_and]

/-- R82 bit by bit. -/
theorem getLsbD_shr (x : Word) (n : Fin 32) (i : Nat) : (shr x n).getLsbD i = x.getLsbD (i + n.val) := by
  rw [shr_eq, BitVec.getLsbD_ushiftRight, Nat.add_comm]

@[simp] theorem rotr_zero (x : Word) : rotr x 0 = x := by
  apply BitVec.eq_of_getLsbD_eq
  intro i hi
  rw [getLsbD_rotr x 0 hi, Fin.val_zero, Nat.add_zero, Nat.mod_eq_of_lt hi]

/-- Settles O50, by the values and the bits of the rotation and the shift; no bit of a word lies above 31. -/
theorem rotateAndShiftMoveBits : Obligations.RotateAndShiftMoveBits := by
  unfold Obligations.RotateAndShiftMoveBits
  refine fun x n => ⟨toNat_rotr x n, toNat_shr x n, rotr_zero x, fun i hi => ⟨getLsbD_rotr x n hi, ?_⟩⟩
  rw [getLsbD_shr]
  by_cases h : i + n.val < 32
  · rw [decide_eq_true h, Bool.true_and]
  · rw [decide_eq_false h, Bool.false_and, BitVec.getLsbD_of_ge x _ (by omega)]

/-! ### Words and bytes -/

/-- R84 by value: four bytes fill a word, so nothing is cut off. -/
theorem toNat_bytesToWord (b0 b1 b2 b3 : Byte) :
    (bytesToWord b0 b1 b2 b3).toNat =
      b0.toNat * 2 ^ 24 + b1.toNat * 2 ^ 16 + b2.toNat * 2 ^ 8 + b3.toNat := by
  rw [bytesToWord, BitVec.toNat_ofNat]
  omega

/-- R85 by value: the byte of `x` at bit `k`. -/
theorem toNat_extractByte (x : Word) (k : Nat) : (x.extractLsb' k 8).toNat = x.toNat / 2 ^ k % 2 ^ 8 := by
  rw [BitVec.extractLsb'_toNat, Nat.shiftRight_eq_div_pow]

/-- R86, first half. -/
@[simp] theorem wordToBytes_bytesToWord (b0 b1 b2 b3 : Byte) :
    wordToBytes (bytesToWord b0 b1 b2 b3) = [b0, b1, b2, b3] := by
  simp only [wordToBytes, List.cons.injEq, and_true, ← BitVec.toNat_inj, toNat_extractByte, toNat_bytesToWord]
  omega

/-- R86, second half. -/
theorem bytesToWord_extractLsb' (x : Word) :
    bytesToWord (x.extractLsb' 24 8) (x.extractLsb' 16 8) (x.extractLsb' 8 8) (x.extractLsb' 0 8) = x := by
  apply BitVec.eq_of_toNat_eq
  rw [toNat_bytesToWord, toNat_extractByte, toNat_extractByte, toNat_extractByte, toNat_extractByte]
  omega

/-- Settles O52, by value: the bytes of a word are the digits of its number to the base 256. -/
theorem bytesAndWordsRoundTrip : Obligations.BytesAndWordsRoundTrip := by
  unfold Obligations.BytesAndWordsRoundTrip
  exact ⟨wordToBytes_bytesToWord, fun x => ⟨_, _, _, _, rfl, bytesToWord_extractLsb' x⟩⟩

/-! ### Blocks -/

@[simp] theorem length_blocks (p : List Byte) : (blocks p).length = p.length / 64 := by
  simp [blocks]

/-- Block `i` is there exactly when `i` is below the number of blocks, and is then the slice of R91. -/
theorem getElem?_blocks_eq_some_iff (p : List Byte) (i : Nat) (b : Block) :
    (blocks p)[i]? = some b ↔ i < p.length / 64 ∧ blockAt p i = b := by
  simp [blocks, List.getElem?_eq_some_iff]

/-- Byte `k` of block `i` is byte `64 i + k` of the sequence (R91). -/
theorem getElem?_eq_some_blockAt {p : List Byte} {i : Nat} (h : 64 * i + 64 ≤ p.length) (k : Nat) (hk : k < 64) :
    p[64 * i + k]? = some (blockAt p i)[k] := by
  have hlt : 64 * i + k < p.length := by omega
  rw [blockAt, Vector.getElem_ofFn, List.getD_eq_getElem p 0 hlt, List.getElem?_eq_getElem hlt]

/-- A block as a list is 64 bytes of the sequence (R91). -/
theorem toList_blockAt {p : List Byte} {i : Nat} (h : 64 * i + 64 ≤ p.length) :
    (blockAt p i).toList = (p.drop (64 * i)).take 64 := by
  apply List.ext_getElem?
  intro k
  by_cases hk : k < 64
  · rw [List.getElem?_take_of_lt hk, List.getElem?_drop, getElem?_eq_some_blockAt h k hk]
    simp [hk]
  · simp [hk]

/-- The first `n` blocks joined are the first `64 n` bytes. -/
theorem flatMap_toList_blockAt (p : List Byte) (n : Nat) (h : 64 * n ≤ p.length) :
    (List.range n).flatMap (fun i => (blockAt p i).toList) = p.take (64 * n) := by
  induction n with
  | zero => simp
  | succ n ih =>
    rw [List.range_succ, List.flatMap_append, ih (by omega), List.flatMap_singleton, toList_blockAt (by omega),
      Nat.mul_succ, List.take_add]

/-- Settles O55: the blocks are the slices of 64 bytes in order, so joined they are the whole sequence, and each byte of
a word of a block is found at its offset. -/
theorem blocksPartitionTheMessage : Obligations.BlocksPartitionTheMessage := by
  unfold Obligations.BlocksPartitionTheMessage
  intro p n hp
  have hn : p.length / 64 = n := by omega
  refine ⟨(length_blocks p).trans hn, ?_, ?_⟩
  · rw [blocks, List.flatMap_map, hn, flatMap_toList_blockAt p n hp.ge, ← hp, List.take_length]
  · intro i b j hb
    obtain ⟨hi, rfl⟩ := (getElem?_blocks_eq_some_iff p i b).1 hb
    have hbyte := getElem?_eq_some_blockAt (p := p) (i := i) (by omega)
    simp only [Nat.add_assoc]
    rw [hbyte (4 * j) (by omega), hbyte (4 * j + 1) (by omega), hbyte (4 * j + 2) (by omega),
      hbyte (4 * j + 3) (by omega)]
    rfl

end Sys2Proof
end

section
/-! SUPPORT. The schedule (R107): the recurrence by the words it reads, the words that an extension keeps, and what the
store holds after each extension. -/

namespace Sys2Proof

/-- The recurrence at `j`, in `16..63`, with its operands at `j - 16`, `j - 15`, `j - 7`, `j - 2` as plain numbers: from 16
on, no subtraction of indices wraps (R107, R111). -/
theorem scheduleWord_eq (w : Schedule) {i : Index} {j : Nat} (hij : i.toNat = j) (hlo : 16 ≤ j) (hhi : j < 64) :
    scheduleWord w i = add32 [w[j - 16], smallSigma0 w[j - 15], w[j - 7], smallSigma1 w[j - 2]] := by
  subst hij
  have operand (k : Index) (hk : k.toNat ≤ 16) : wordAt w (i - k) = w[i.toNat - k.toNat] := by
    simp only [wordAt, BitVec.toNat_sub_of_le (BitVec.le_def.2 (hk.trans hlo))]
  rw [scheduleWord, operand 16 (by decide), operand 15 (by decide), operand 7 (by decide), operand 2 (by decide)]
  rfl

/-- A write at `i` or above is not seen by the recurrence at an index up to `i`: it reads below its own index (R107). -/
theorem scheduleWord_setWord_of_le (w : Schedule) (x : Word) {i j : Index} (hlo : 16 ≤ j.toNat) (hle : j.toNat ≤ i.toNat) :
    scheduleWord (setWord w i x) j = scheduleWord w j := by
  have h16 : j - 16 ≠ i := by bv_omega
  have h15 : j - 15 ≠ i := by bv_omega
  have h7 : j - 7 ≠ i := by bv_omega
  have h2 : j - 2 ≠ i := by bv_omega
  simp only [scheduleWord, wordAt_setWord, if_neg h16, if_neg h15, if_neg h7, if_neg h2]

/-- One word of the recurrence put at its place: one turn of R107's loop. -/
def extendSchedule (w : Schedule) (j : Index) : Schedule := setWord w j (scheduleWord w j)

theorem schedule_eq_foldl_extendSchedule (b : Block) :
    schedule b = expandIndices.foldl extendSchedule (scheduleStart b) := rfl

/-- The words of a store below `n` are those of `Schedule(b)`, as R107 defines them. -/
structure ScheduledBelow (b : Block) (n : Nat) (w : Schedule) : Prop where
  block : ∀ (i : Index) (h : i.toNat < 16), wordAt w i = blockWord b ⟨i.toNat, h⟩
  recurrence : ∀ i : Index, 16 ≤ i.toNat → i.toNat < n → wordAt w i = scheduleWord w i

theorem scheduledBelow_scheduleStart (b : Block) : ScheduledBelow b 16 (scheduleStart b) where
  block i h := by simp [wordAt, scheduleStart, h]
  recurrence i hlo hhi := by omega

/-- An extension at `i` gives one more word of the schedule. -/
theorem ScheduledBelow.extend {b : Block} {w : Schedule} {i : Index} (h : ScheduledBelow b i.toNat w)
    (hi : 16 ≤ i.toNat) : ScheduledBelow b (i.toNat + 1) (extendSchedule w i) where
  block j hj := by
    have hne : j ≠ i := by rintro rfl; omega
    rw [extendSchedule, wordAt_setWord, if_neg hne, h.block j hj]
  recurrence j hlo hhi := by
    rw [extendSchedule, wordAt_setWord, scheduleWord_setWord_of_le w _ hlo (by omega)]
    split
    next heq => rw [heq]
    next hne => exact h.recurrence j hlo (by bv_omega)

/-- After the first `n` turns of R107's loop the words below `16 + n` are those of the schedule. -/
theorem scheduledBelow_foldl (b : Block) (n : Nat) (hn : n ≤ 48) :
    ScheduledBelow b (16 + n)
      (((List.range n).map fun k => BitVec.ofNat 6 (16 + k)).foldl extendSchedule (scheduleStart b)) := by
  induction n with
  | zero => exact scheduledBelow_scheduleStart b
  | succ n ih =>
    have hindex : (BitVec.ofNat 6 (16 + n)).toNat = 16 + n := Nat.mod_eq_of_lt (by omega)
    rw [List.range_succ, List.map_append, List.foldl_append]
    have hw := ih (by omega)
    rw [← hindex] at hw
    have hext := hw.extend (by omega)
    rwa [hindex] at hext

/-- The whole schedule. -/
theorem scheduledBelow_schedule (b : Block) : ScheduledBelow b 64 (schedule b) :=
  scheduledBelow_foldl b 48 le_rfl

/-- Settles O53: the loop's invariant `ScheduledBelow` at its end, index by index. -/
theorem scheduleObeysTheRecurrence : Obligations.ScheduleObeysTheRecurrence := by
  unfold Obligations.ScheduleObeysTheRecurrence
  intro b
  have hb := scheduledBelow_schedule b
  constructor
  · intro j hj
    exact hb.block (BitVec.ofNatLT j (by omega)) hj
  · intro j hlo hhi
    exact (hb.recurrence (BitVec.ofNatLT j hhi) hlo hhi).trans (scheduleWord_eq _ (BitVec.toNat_ofNatLT j hhi) hlo hhi)

end Sys2Proof
end

section
/-! SUPPORT. The engine steps `LOAD`, `EXPAND`, `ROUND`, `ACCUM` (R110 to R113): the phase that each runs in, the round
function written out (R102 to R105, R108), and how the sequencer counts on. -/

namespace Sys2Proof

/-- `S0` in the library's rotations (R102). -/
theorem bigSigma0_eq (x : Word) : bigSigma0 x = x.rotateRight 2 ^^^ x.rotateRight 13 ^^^ x.rotateRight 22 := by
  simp only [bigSigma0, rotr_eq]; rfl

/-- `S1` in the library's rotations (R103). -/
theorem bigSigma1_eq (x : Word) : bigSigma1 x = x.rotateRight 6 ^^^ x.rotateRight 11 ^^^ x.rotateRight 25 := by
  simp only [bigSigma1, rotr_eq]; rfl

theorem temp1_eq (a b c d e f g h k w : Word) :
    temp1 #v[a, b, c, d, e, f, g, h] k w = h + bigSigma1 e + ch e f g + k + w := by
  simp [temp1, BitVec.add_assoc]

theorem temp2_eq (a b c d e f g h : Word) :
    temp2 #v[a, b, c, d, e, f, g, h] = bigSigma0 a + maj a b c := by
  simp [temp2]

/-- `RoundFn` (R108), each sum of two written out. -/
theorem roundFn_eq (v : Words8) (k w : Word) :
    roundFn v k w = #v[temp1 v k w + temp2 v, v[0], v[1], v[2], v[3] + temp1 v k w, v[4], v[5], v[6]] := by
  simp [roundFn]

/-- The table of R106 has a word for every index. -/
theorem getElem?_kTable (j : Index) : kTable[j.toNat]? = some (roundConstant j) := by
  have hj : j.toNat < kTable.length := j.isLt
  rw [roundConstant, List.getD_eq_getElem kTable 0 hj, List.getElem?_eq_getElem hj]

theorem getElem?_toList_eq_wordAt (w : Schedule) (i : Index) : w.toList[i.toNat]? = some (wordAt w i) := by
  simp [wordAt, i.isLt]

namespace Machine

/-- An engine turn takes the step that the phase selects, and no other (R69). -/
theorem fst_engineTurn (s : State) : (engineTurn s).1 = stepSelected s.phase := by
  unfold engineTurn; cases stepSelected s.phase <;> rfl

/-- When an engine step comes next, the phase selects it: no command word spells a step (R47, R114). -/
theorem stepSelected_of_nextIs {s : State} {i : Instr} (hi : isStep i = true) (h : nextIs s i) :
    stepSelected s.phase = some i := by
  unfold nextIs at h
  match hin : s.inputs with
  | [] => rwa [fetch_nil hin, fst_engineTurn] at h
  | .idle :: rest => rwa [fetch_idle hin, fst_engineTurn] at h
  | .reset :: rest => rw [fetch_reset hin] at h; cases h
  | .present c :: rest =>
    cases hr : s.ready c with
    | true =>
      rw [fetch_ready hin hr, Option.some.injEq] at h
      rw [← h, not_isStep_decodeCmd] at hi
      cases hi
    | false => rwa [fetch_held hin hr, fst_engineTurn] at h

/-- Two phases select no step in common (R69). -/
theorem stepSelected_injective {p q : Phase} {i : Instr} (hp : stepSelected p = some i) (hq : stepSelected q = some i) :
    p = q := by
  rw [stepSelected_eq] at hp hq
  cases p <;> cases hp <;> cases q <;> cases hq <;> rfl

/-- A step runs only in the phase that selects it (R114). -/
theorem phase_of_nextIs {p : Phase} {i : Instr} (hp : stepSelected p = some i) {s : State} (h : nextIs s i) :
    s.phase = p :=
  stepSelected_injective (stepSelected_of_nextIs (isStep_of_stepSelected hp) h) hp

/-- How `EXPAND` and `ROUND` count on (R111, R112): after 63 `T` is 0 in the next phase, before it one more in the same. -/
theorem counter_advances (n : Index) (p q : Phase) :
    (n.toNat = 63 → (if n.toNat = 63 then 0 else n + 1) = 0 ∧ (if n.toNat = 63 then q else p) = q) ∧
    (n.toNat < 63 → (if n.toNat = 63 then 0 else n + 1).toNat = n.toNat + 1 ∧ (if n.toNat = 63 then q else p) = p) := by
  constructor
  · intro h
    exact ⟨if_pos h, if_pos h⟩
  · intro h
    have hne : n.toNat ≠ 63 := h.ne
    rw [if_neg hne, if_neg hne]
    exact ⟨by bv_omega, rfl⟩

/-- Settles O25: the words are those of `wordAt_loadWords`, and the rest is what the step writes or leaves. -/
theorem loadReadsTheBlock : Obligations.LoadReadsTheBlock := by
  unfold Obligations.LoadReadsTheBlock
  intro s
  refine ⟨phase_of_nextIs rfl, _, rfl, fun i hi => ?_, fun i hi => ?_, rfl, rfl, rfl, rfl, rfl, rfl, rfl, rfl, rfl, rfl,
    ⟨rfl, rfl, rfl, rfl⟩, rfl, rfl⟩
  · exact (wordAt_loadWords s.m s.w i).trans (if_pos hi)
  · exact (wordAt_loadWords s.m s.w i).trans (if_neg (Nat.not_lt.2 hi))

/-- From 16 on, step `EXPAND` writes the recurrence (R111). -/
theorem expandValue_eq_scheduleWord (w : Schedule) {j : Index} (h : 16 ≤ j.toNat) : expandValue w j = scheduleWord w j :=
  if_pos h

/-- Settles O26: the word written is the recurrence's, `wordAt_setWord` keeps the others, and `T` counts on. -/
theorem expandExtendsTheSchedule : Obligations.ExpandExtendsTheSchedule := by
  unfold Obligations.ExpandExtendsTheSchedule
  intro s
  refine ⟨phase_of_nextIs rfl, _, rfl, ?_, fun i hi => ?_, rfl, rfl, rfl, rfl, rfl, rfl, rfl, rfl, ⟨rfl, rfl, rfl, rfl⟩,
    rfl, rfl⟩
  · rintro _ rfl hlo hhi
    refine ⟨?_, counter_advances s.t s.phase .round⟩
    calc wordAt (setWord s.w s.t (expandValue s.w s.t)) s.t
      _ = scheduleWord s.w s.t := by rw [wordAt_setWord, if_pos rfl, expandValue_eq_scheduleWord s.w hlo]
      _ = _ := scheduleWord_eq s.w rfl hlo hhi
  · exact (wordAt_setWord s.w s.t i _).trans (if_neg hi)

/-- Settles O27: `RoundFn` on the eight registers, with the constant and the word at `T`, and `T` counts on. -/
theorem roundMixesTheWorkingRegisters : Obligations.RoundMixesTheWorkingRegisters := by
  unfold Obligations.RoundMixesTheWorkingRegisters
  intro s a b c d e f g h hv
  refine ⟨phase_of_nextIs rfl, _, roundConstant s.t, wordAt s.w s.t, _, _, rfl, getElem?_kTable s.t,
    getElem?_toList_eq_wordAt s.w s.t, rfl, rfl, ?_, (counter_advances s.t s.phase .accum).1,
    (counter_advances s.t s.phase .accum).2, rfl, rfl, rfl, rfl, rfl, rfl, rfl, rfl, ⟨rfl, rfl, rfl, rfl⟩, rfl, rfl⟩
  change roundFn s.v (roundConstant s.t) (wordAt s.w s.t) = _
  rw [hv, roundFn_eq, temp1_eq, temp2_eq, bigSigma1_eq, bigSigma0_eq]
  rfl

/-! Where `ACCUM` goes (R113 line 2). -/

@[simp] theorem afterAccum_no_mark (lw : Bool) : afterAccum false lw = .absorb := rfl
@[simp] theorem afterAccum_mark_no_length : afterAccum true false = .pad := rfl
@[simp] theorem afterAccum_mark_length : afterAccum true true = .done := rfl

/-- Settles O28: the sums word by word, and the next phase by the three cases of `afterAccum`. -/
theorem accumAddsIntoTheHashState : Obligations.AccumAddsIntoTheHashState := by
  unfold Obligations.AccumAddsIntoTheHashState
  intro s
  refine ⟨phase_of_nextIs rfl, _, rfl, fun i => ?_, fun hm => ?_, fun hm hl => ?_, fun hm hl => ?_, rfl, rfl, rfl, rfl,
    ⟨rfl, rfl, rfl, rfl, rfl⟩, ⟨rfl, rfl, rfl, rfl⟩, rfl, rfl⟩
  · simp [addWords]
  · simp [hm]
  · simp [hm, hl]
  · simp [hm, hl]

end Machine
end Sys2Proof
end

section
/-! SUPPORT. The command words (R61 to R63, R70): the number and the fields of each, what it decodes to, and when it is
ready (R66). -/

namespace Sys2Proof

/-- Two fields side by side are the digits of a number. -/
theorem toNat_append_eq_add {m n : Nat} (x : BitVec m) (y : BitVec n) : (x ++ y).toNat = x.toNat * 2 ^ n + y.toNat := by
  rw [BitVec.toNat_append, ← Nat.shiftLeft_add_eq_or_of_lt y.isLt, Nat.shiftLeft_eq]

/-- R70 by value. -/
theorem toNat_commandWord (op : BitVec 4) (arg : Byte) : (commandWord op arg).toNat = op.toNat * 256 + arg.toNat :=
  toNat_append_eq_add op arg

@[simp] theorem op_commandWord (op : BitVec 4) (arg : Byte) : CmdWord.op (commandWord op arg) = op :=
  BitVec.extractLsb'_append_eq_left

@[simp] theorem arg_commandWord (op : BitVec 4) (arg : Byte) : CmdWord.arg (commandWord op arg) = arg :=
  BitVec.extractLsb'_append_eq_right

/-! An operand narrower than the argument field (R63). -/

section
variable {n : Nat} (hn : n ≤ 8) (op : BitVec 4) (i : BitVec n)
include hn

theorem toNat_commandWord_setWidth : (commandWord op (i.setWidth 8)).toNat = op.toNat * 256 + i.toNat := by
  rw [toNat_commandWord, BitVec.toNat_setWidth_of_le hn]

theorem toNat_arg_commandWord_lt : (CmdWord.arg (commandWord op (i.setWidth 8))).toNat < 2 ^ n := by
  rw [arg_commandWord, BitVec.toNat_setWidth_of_le hn]
  exact i.isLt

theorem extractLsb'_commandWord : (commandWord op (i.setWidth 8)).extractLsb' 0 n = i := by
  rw [commandWord, BitVec.extractLsb'_append_eq_of_add_le (by omega), BitVec.extractLsb'_setWidth_of_le (by omega),
    BitVec.extractLsb'_eq_self]

end

/-! Each word decodes to the command that it is named after. -/

theorem decodeCmd_nopWord : decodeCmd nopWord = .nop := decodeCmd_of_spells rfl

theorem decodeCmd_initWord : decodeCmd initWord = .init := decodeCmd_of_spells rfl

theorem decodeCmd_dataWord (b : Byte) : decodeCmd (dataWord b) = .data b :=
  decodeCmd_of_spells ⟨(Pattern.data_fits_iff _).2 (op_commandWord _ b), (arg_commandWord 2 b).symm⟩

theorem decodeCmd_finalWord : decodeCmd finalWord = .final := decodeCmd_of_spells rfl

theorem decodeCmd_rdwWord (i : BitVec 3) : decodeCmd (rdwWord i) = .rdw i :=
  decodeCmd_of_spells ⟨(Pattern.rdw_fits_iff _).2 ⟨op_commandWord _ _, toNat_arg_commandWord_lt (by decide) 4 i⟩,
    (extractLsb'_commandWord (by decide) 4 i).symm⟩

theorem decodeCmd_rdbWord (i : BitVec 5) : decodeCmd (rdbWord i) = .rdb i :=
  decodeCmd_of_spells ⟨(Pattern.rdb_fits_iff _).2 ⟨op_commandWord _ _, toNat_arg_commandWord_lt (by decide) 5 i⟩,
    (extractLsb'_commandWord (by decide) 5 i).symm⟩

theorem decodeCmd_rdxWord (i : BitVec 6) : decodeCmd (rdxWord i) = .rdx i :=
  decodeCmd_of_spells ⟨(Pattern.rdx_fits_iff _).2 ⟨op_commandWord _ _, toNat_arg_commandWord_lt (by decide) 6 i⟩,
    (extractLsb'_commandWord (by decide) 6 i).symm⟩

theorem decodeCmd_rdsWord : decodeCmd rdsWord = .rds := decodeCmd_of_spells rfl

namespace Machine

/-- A word of an opcode other than 0 and 7 is ready when the engine is not busy (R66). -/
theorem State.ready_commandWord (s : State) {op : BitVec 4} (h0 : op ≠ 0) (h7 : op ≠ 7) (arg : Byte) :
    s.ready (commandWord op arg) = !s.busy := by
  rw [State.ready, op_commandWord, beq_false_of_ne h0, beq_false_of_ne h7, Bool.false_or, Bool.false_or]

end Machine
end Sys2Proof
end

section
/-! SUPPORT. The commands that drive a session, and `NOP` (R140 to R143): each is its word, readiness, its legal phases
and its effect. -/

namespace Sys2Proof.Machine

/-! What a command does in a phase that is not busy (R139): in a legal one it is executed, in any other it is
`Fault(2, c)`. -/

section
variable {s : State} {p : Phase} (hp : s.phase = p) (hb : p.busy = false) {legal : Phase → Bool}
include hp hb

theorem whenReady_whenLegal_of_legal (hl : legal p = true) (c : CmdWord) (t : State) :
    whenReady s c (whenLegal s legal c t) = .next t := by
  subst hp
  rw [whenReady_of_ready (State.ready_of_not_busy hb c), whenLegal_of_legal hl]

theorem whenReady_whenLegal_of_not_legal (hl : legal p = false) (c : CmdWord) (t : State) :
    whenReady s c (whenLegal s legal c t) = .next (s.raiseFault .phase c) := by
  subst hp
  rw [whenReady_of_ready (State.ready_of_not_busy hb c), whenLegal_of_not_legal hl]

end

/-- Settles O16: `NOP` is ready always, and a word of opcode 0 fits no row but `NOP`'s. -/
theorem nopChangesNothing : Obligations.NopChangesNothing := by
  unfold Obligations.NopChangesNothing
  refine ⟨decodeCmd_nopWord, fun s => ⟨s.ready_nopWord, whenReady_of_ready s.ready_nopWord _⟩, fun c hop harg => ?_⟩
  rw [decodeCmd_eq_illegal_iff, forall_commands_not_fits_iff]
  exact .inr (.inl ⟨.inl hop, harg⟩)

/-- `INIT` is legal in every phase that is not busy (R141). -/
theorem exec_init_of_not_busy {s : State} (h : s.phase = .idle ∨ s.phase = .absorb ∨ s.phase = .done) :
    exec .init s = .next ((openSession s).respond 0) := by
  rcases h with h | h | h <;> exact whenReady_whenLegal_of_legal h rfl rfl _ _

/-- Settles O17: all phases that are not busy are legal for `INIT`, and `openSession` writes and leaves what R141
says. -/
theorem initOpensASession : Obligations.InitOpensASession := by
  unfold Obligations.InitOpensASession
  exact ⟨decodeCmd_initWord, fun s => s.ready_commandWord (op := 1) (by decide) (by decide) 0, fun s hp =>
    ⟨_, exec_init_of_not_busy hp, rfl, rfl, rfl, rfl, rfl, rfl, rfl, rfl, rfl, rfl, rfl, rfl, rfl, rfl, rfl, rfl, rfl⟩⟩

/-- In `ABSORB` below the length limit the byte is taken (R142). -/
theorem exec_data_of_room {s : State} (hp : s.phase = .absorb) (hlen : s.len.toNat < 2 ^ 61 - 1) (b : Byte) :
    exec (.data b) s = .next ((appendByte b s).respond 0) := by
  refine (whenReady_whenLegal_of_legal hp rfl rfl _ _).trans ?_
  exact congrArg _ (if_neg hlen.ne)

/-- In `ABSORB` at the length limit the byte is refused (R142). -/
theorem exec_data_of_full {s : State} (hp : s.phase = .absorb) (hlen : s.len.toNat = 2 ^ 61 - 1) (b : Byte) :
    exec (.data b) s = .next (s.raiseFault .overflow (dataWord b)) := by
  refine (whenReady_whenLegal_of_legal hp rfl rfl _ _).trans ?_
  exact congrArg _ (if_pos hlen)

/-- Settles O18: the byte is taken, refused for its phase or refused at the length limit, and `appendByte` writes what
R142 says. -/
theorem dataAppendsAByte : Obligations.DataAppendsAByte := by
  unfold Obligations.DataAppendsAByte
  intro b
  refine ⟨toNat_commandWord 2 b, decodeCmd_dataWord b, fun s => s.ready_commandWord (by decide) (by decide) b,
    fun s hp hlen hm => ?_, fun s hp => ?_, fun s hp hlen => exec_data_of_full hp hlen b⟩
  · refine ⟨_, exec_data_of_room hp hlen b, fun a => Memory.read_write hm s.bi a b, ?_, fun h63 => ?_, fun h63 => ?_,
      rfl, rfl, rfl, rfl, ⟨rfl, rfl, rfl⟩, ⟨rfl, rfl, rfl, rfl⟩, rfl, rfl⟩
    · rw [State.respond_len, appendByte_len]
      bv_omega
    · exact ⟨if_pos h63, if_pos h63⟩
    · rw [State.respond_bi, State.respond_phase, appendByte_bi, appendByte_phase, if_neg h63.ne, if_neg h63.ne]
      exact ⟨by bv_omega, hp⟩
  · rcases hp with hp | hp <;> exact whenReady_whenLegal_of_not_legal hp rfl rfl _ _

/-- Settles O19: `FINAL` is legal in `ABSORB` alone, and there writes `PHASE` and the response. -/
theorem finalStartsPadding : Obligations.FinalStartsPadding := by
  unfold Obligations.FinalStartsPadding
  refine ⟨decodeCmd_finalWord, fun s =>
    ⟨s.ready_commandWord (op := 3) (by decide) (by decide) 0, fun hp => ?_, fun hp => ?_⟩⟩
  · exact whenReady_whenLegal_of_legal hp rfl rfl _ _
  · rcases hp with hp | hp <;> exact whenReady_whenLegal_of_not_legal hp rfl rfl _ _

end Sys2Proof.Machine
end

section
/-! SUPPORT. The digest reads (R145 to R147): byte and nibble `i` of the digest are bit fields of the eight words (R132,
R134), and a read answers in `DONE` and nowhere else. -/

namespace Sys2Proof

/-- An element of a concatenation of pieces of one length: of which piece, and where in it. -/
theorem getElem?_flatMap_of_length_eq {α β : Type} {f : α → List β} {n : Nat} (hf : ∀ x, (f x).length = n)
    (l : List α) (i : Nat) {r : Nat} (hr : r < n) : (l.flatMap f)[n * i + r]? = l[i]?.bind fun x => (f x)[r]? := by
  induction l generalizing i with
  | nil => simp
  | cons x rest ih =>
    rw [List.flatMap_cons]
    cases i with
    | zero => rw [Nat.mul_zero, Nat.zero_add, List.getElem?_append_left (by rw [hf]; exact hr)]; rfl
    | succ i =>
      have hi : n * (i + 1) + r = n + (n * i + r) := by rw [Nat.mul_succ]; omega
      rw [hi, List.getElem?_append_right (by rw [hf]; omega), hf, Nat.add_sub_cancel_left, ih, List.getElem?_cons_succ]

/-- Byte `r` of a word, most significant first (R85). -/
theorem getElem?_wordToBytes (x : Word) {r : Nat} (hr : r < 4) :
    (wordToBytes x)[r]? = some (x.extractLsb' (24 - 8 * r) 8) := by
  interval_cases r <;> rfl

/-- Nibble `r` of a word, most significant first (R134). -/
theorem getElem?_wordNibbles (x : Word) {r : Nat} (hr : r < 8) :
    (wordNibbles x)[r]? = some (x.extractLsb' (28 - 4 * r) 4) := by
  simp [wordNibbles, hr]

namespace Machine

/-- The digest as words (R145) and the digest view of `H` (R40) agree. -/
theorem getElem?_digestWord (h : Words8) (i : BitVec 3) : h.toList[i.toNat]? = some (digestWord h i) := by
  simp [digestWord, i.isLt]

/-- The digest as bytes (R132) and the digest view of `H` (R40) agree. -/
theorem getElem?_digestBytes (h : Words8) (i : BitVec 5) : (digestBytes h)[i.toNat]? = some (digestByte h i) := by
  have hi := i.isLt
  have hword : h.toList[i.toNat / 4]? = some h[i.toNat / 4] := by simp
  conv_lhs => rw [← Nat.div_add_mod i.toNat 4]
  rw [digestBytes, getElem?_flatMap_of_length_eq (n := 4) (fun _ => rfl) _ _ (Nat.mod_lt _ (by decide)), hword,
    Option.bind_some, getElem?_wordToBytes _ (Nat.mod_lt _ (by decide)), digestByte]

/-- The digest as characters (R134) and the digest view of `H` (R40) agree. -/
theorem getElem?_digestHex (h : Words8) (i : BitVec 6) : (digestHex h)[i.toNat]? = some (digestCharCode h i) := by
  have hi := i.isLt
  have hword : h.toList[i.toNat / 8]? = some h[i.toNat / 8] := by simp
  conv_lhs => rw [← Nat.div_add_mod i.toNat 8]
  rw [digestHex, List.getElem?_map, getElem?_flatMap_of_length_eq (n := 8) (fun _ => rfl) _ _
    (Nat.mod_lt _ (by decide)), hword, Option.bind_some, getElem?_wordNibbles _ (Nat.mod_lt _ (by decide))]
  rfl

/-- Zero extension keeps the value (R7). -/
theorem zext32_eq (b : Byte) : zext32 b = BitVec.ofNat 32 b.toNat :=
  (BitVec.ofNat_toNat 32 b).symm

/-- In `DONE` a digest read answers (R145 to R147). -/
theorem readDigest_of_done {s : State} (hp : s.phase = .done) (c : CmdWord) (d : Word) :
    readDigest s c d = .next (s.respond d) := whenReady_whenLegal_of_legal hp rfl rfl c _

/-- In `IDLE` and `ABSORB` a digest read is `Fault(2, c)` (R145 to R147). -/
theorem readDigest_of_no_digest {s : State} (hp : s.phase = .idle ∨ s.phase = .absorb) (c : CmdWord) (d : Word) :
    readDigest s c d = .next (s.raiseFault .phase c) := by
  rcases hp with hp | hp <;> exact whenReady_whenLegal_of_not_legal hp rfl rfl c _

/-- Settles O20: `RDW i` is a digest read that answers `digestWord`. -/
theorem rdwAnswersADigestWord : Obligations.RdwAnswersADigestWord := by
  unfold Obligations.RdwAnswersADigestWord
  exact fun s i => ⟨toNat_commandWord_setWidth (by decide) 4 i, decodeCmd_rdwWord i,
    s.ready_commandWord (by decide) (by decide) _,
    fun hp => ⟨_, getElem?_digestWord s.h i, readDigest_of_done hp _ _⟩, fun hp => readDigest_of_no_digest hp _ _⟩

/-- Settles O21: `RDB i` is a digest read that answers `digestByte`, which is byte `i` of the digest. -/
theorem rdbAnswersADigestByte : Obligations.RdbAnswersADigestByte := by
  unfold Obligations.RdbAnswersADigestByte
  refine fun s i => ⟨toNat_commandWord_setWidth (by decide) 5 i, decodeCmd_rdbWord i,
    s.ready_commandWord (by decide) (by decide) _,
    fun hp => ⟨_, getElem?_digestBytes s.h i, ?_⟩, fun hp => readDigest_of_no_digest hp _ _⟩
  rw [← zext32_eq]
  exact readDigest_of_done hp _ _

/-- Settles O22: `RDX i` is a digest read that answers `digestCharCode`, which is character `i` of the digest. -/
theorem rdxAnswersADigestCharacter : Obligations.RdxAnswersADigestCharacter := by
  unfold Obligations.RdxAnswersADigestCharacter
  refine fun s i => ⟨toNat_commandWord_setWidth (by decide) 6 i, decodeCmd_rdxWord i,
    s.ready_commandWord (by decide) (by decide) _,
    fun hp => ⟨_, getElem?_digestHex s.h i, ?_⟩, fun hp => readDigest_of_no_digest hp _ _⟩
  rw [← zext32_eq]
  exact readDigest_of_done hp _ _

end Machine
end Sys2Proof
end

section
/-! SUPPORT. The status word field by field (R23), and `RDS` (R148). -/

namespace Sys2Proof

/-- A bit field by value. -/
theorem extractLsb'_eq_iff {w n : Nat} (x : BitVec w) (k : Nat) (y : BitVec n) :
    x.extractLsb' k n = y ↔ x.toNat / 2 ^ k % 2 ^ n = y.toNat := by
  rw [← BitVec.toNat_inj, BitVec.extractLsb'_toNat, Nat.shiftRight_eq_div_pow]

/-- A bit by value. -/
theorem getLsbD_eq_iff {w : Nat} (x : BitVec w) (k : Nat) (b : Bool) :
    x.getLsbD k = b ↔ x.toNat / 2 ^ k % 2 = b.toNat := by
  rw [BitVec.getLsbD, ← Nat.toNat_testBit]
  cases x.toNat.testBit k <;> cases b <;> decide

namespace Machine

/-- The status word by value (R23): its fields are digits. -/
theorem State.toNat_status (s : State) : s.status.toNat =
    s.ecmd.toNat * 2 ^ 16 + s.ecause.toNat * 2 ^ 8 + s.ovf.toNat * 2 ^ 6 + s.err.toNat * 2 ^ 5 +
      s.done.toNat * 2 ^ 4 + s.busy.toNat * 2 ^ 3 + s.phase.code.toNat := by
  rw [State.status, toNat_append_eq_add]
  simp only [toNat_append_eq_add, BitVec.toNat_ofBool, BitVec.toNat_ofNat]
  omega

/-- The fields of the status word (R23), each cut from its value. -/
theorem State.status_fields (s : State) :
    s.status.extractLsb' 0 3 = s.phase.code ∧ s.status.getLsbD 3 = s.busy ∧ s.status.getLsbD 4 = s.done ∧
    s.status.getLsbD 5 = s.err ∧ s.status.getLsbD 6 = s.ovf ∧ s.status.getLsbD 7 = false ∧
    s.status.extractLsb' 8 2 = s.ecause ∧ s.status.extractLsb' 10 6 = 0 ∧ s.status.extractLsb' 16 12 = s.ecmd ∧
    s.status.extractLsb' 28 4 = 0 := by
  have hphase := s.phase.code.isLt
  have hecause := s.ecause.isLt
  have hecmd := s.ecmd.isLt
  have hbusy := s.busy.toNat_le
  have hdone := s.done.toNat_le
  have herr := s.err.toNat_le
  have hovf := s.ovf.toNat_le
  simp only [extractLsb'_eq_iff, getLsbD_eq_iff, State.toNat_status, Bool.toNat_false, BitVec.reduceToNat]
  omega

/-- `BUSY` by phase (R22). -/
theorem Phase.busy_iff (p : Phase) :
    p.busy = true ↔ p = .pad ∨ p = .load ∨ p = .expand ∨ p = .round ∨ p = .accum := by
  cases p <;> decide

/-- `DONE` by phase (R22). -/
theorem State.done_iff (s : State) : s.done = true ↔ s.phase = .done := beq_iff_eq

/-- With no fault recorded the fault fields of the status word are 0 (R30 item 10). -/
theorem State.Consistent.no_fault {s : State} (hs : s.Consistent) (herr : s.err = false) :
    s.ecause = 0 ∧ s.ecmd = 0 ∧ s.ovf = false := by
  obtain ⟨hcause, hcmd, hovf⟩ := hs.fault
  refine ⟨hcause.1 herr, hcmd herr, Bool.eq_false_of_not_eq_true fun h => ?_⟩
  rw [hovf h] at herr; cases herr

/-- Settles O23: the fields of the word are those of `status_fields`, and with no fault recorded the word is a function
of `PHASE`, which the last clause goes through. -/
theorem rdsAnswersTheStatusWord : Obligations.RdsAnswersTheStatusWord := by
  unfold Obligations.RdsAnswersTheStatusWord
  refine ⟨decodeCmd_rdsWord, fun s => ⟨s.ready_rdsWord, s.status, whenReady_of_ready s.ready_rdsWord _, ?_⟩⟩
  obtain ⟨hphase, hbusy, hdone, herr, hovf, h7, hecause, h10, hecmd, h28⟩ := s.status_fields
  refine ⟨hphase, ?_, ?_, herr, hovf, h7, hecause, h10, hecmd, h28, fun hs hclear => ?_⟩
  · rw [hbusy]; exact Phase.busy_iff s.phase
  · rw [hdone]; exact s.done_iff
  · obtain ⟨hcause, hcmd, hovf⟩ := hs.no_fault hclear
    rw [State.status, State.busy, State.done, hclear, hcause, hcmd, hovf]
    cases s.phase <;> rfl

end Machine
end Sys2Proof
end

section
/-! SUPPORT. Step `PAD` (R144) in its three cases, byte by byte. -/

namespace Sys2Proof.Machine

/-- The byte of the length field at address `a`, of `M[56..63]` (R144). -/
theorem toNat_lengthByte (len : Length) {a : Index} (ha : 56 ≤ a.toNat) :
    (imageByte 8 (bitLength len).toNat (a.toNat - 56)).toNat = len.toNat * 8 / 2 ^ (8 * (63 - a.toNat)) % 256 := by
  have hlt := a.isLt
  rw [imageByte_bitLength len _ (by omega), show 7 - (a.toNat - 56) = 63 - a.toNat by omega]

section
variable {m : Memory} (hm : m.wf = true) (bi : Index) (len : Length) {mark : Bool} (a : Index)
include hm

/-- First padding block with room for the length: message, marker, zeros, length (R144). -/
theorem read_padMemory_with_length (hmark : mark = false) (hbi : bi.toNat ≤ 55) :
    (a.toNat < bi.toNat → (padMemory m bi len mark).read a = m.read a) ∧
    (a.toNat = bi.toNat → (padMemory m bi len mark).read a = 0x80) ∧
    (bi.toNat < a.toNat → a.toNat ≤ 55 → (padMemory m bi len mark).read a = 0) ∧
    (56 ≤ a.toNat →
      ((padMemory m bi len mark).read a).toNat = len.toNat * 8 / 2 ^ (8 * (63 - a.toNat)) % 256) := by
  subst hmark
  rw [read_padMemory hm, if_neg Bool.false_ne_true]
  refine ⟨fun h => if_pos h, fun h => ?_, fun h h55 => ?_, fun h => ?_⟩
  · rw [if_neg h.not_lt, if_pos h]
  · rw [if_neg h.not_gt, if_neg h.ne', if_neg (by omega)]
  · rw [if_neg (by omega), if_neg (by omega), if_pos ⟨hbi, h⟩, toNat_lengthByte len h]

/-- First padding block without room for the length: message, marker, zeros (R144). -/
theorem read_padMemory_without_length (hmark : mark = false) (hbi : 56 ≤ bi.toNat) :
    (a.toNat < bi.toNat → (padMemory m bi len mark).read a = m.read a) ∧
    (a.toNat = bi.toNat → (padMemory m bi len mark).read a = 0x80) ∧
    (bi.toNat < a.toNat → (padMemory m bi len mark).read a = 0) := by
  subst hmark
  rw [read_padMemory hm, if_neg Bool.false_ne_true]
  refine ⟨fun h => if_pos h, fun h => ?_, fun h => ?_⟩
  · rw [if_neg h.not_lt, if_pos h]
  · rw [if_neg h.not_gt, if_neg h.ne', if_neg (by omega)]

/-- Second padding block: zeros and length (R144). -/
theorem read_padMemory_length_only (hmark : mark = true) :
    (a.toNat ≤ 55 → (padMemory m bi len mark).read a = 0) ∧
    (56 ≤ a.toNat →
      ((padMemory m bi len mark).read a).toNat = len.toNat * 8 / 2 ^ (8 * (63 - a.toNat)) % 256) := by
  subst hmark
  rw [read_padMemory hm, if_pos rfl]
  refine ⟨fun h => if_neg (by omega), fun h => ?_⟩
  rw [if_pos h, toNat_lengthByte len h]

end

/-- Settles O24: the bytes by the three cases of R144, and the rest is what the step writes or leaves. -/
theorem padBuildsThePadding : Obligations.PadBuildsThePadding := by
  unfold Obligations.PadBuildsThePadding
  intro s hm
  refine ⟨phase_of_nextIs rfl, _, rfl, fun hmark hbi => ⟨if_neg (by omega), fun a => ?_⟩,
    fun hmark hbi => ⟨if_pos ⟨hmark, by omega⟩, fun a => ?_⟩, fun hmark hlw => ⟨if_neg (by simp [hmark]), fun a => ?_⟩,
    rfl, rfl, rfl, rfl, rfl, rfl, ⟨rfl, rfl, rfl⟩, ⟨rfl, rfl, rfl, rfl⟩, rfl, rfl⟩
  · exact read_padMemory_with_length hm s.bi s.len a hmark hbi
  · exact read_padMemory_without_length hm s.bi s.len a hmark hbi
  · exact read_padMemory_length_only hm s.bi s.len a hmark

end Sys2Proof.Machine
end

section
/-! SUPPORT. The encoder undoes the decoder: a word is the encoding of the instruction that it spells (R64, R70). -/

namespace Sys2Proof

/-- A word is the command word of its two fields (R61, R70). -/
theorem cmd12_commandWord_eq {c : CmdWord} {op : BitVec 4} {arg : Byte}
    (h : CmdWord.op c = op ∧ CmdWord.arg c = arg) : Code.cmd12 (commandWord op arg) = .cmd12 c := by
  rw [Code.cmd12.injEq, CmdWord.eq_iff_fields, op_commandWord, arg_commandWord]
  exact ⟨h.1.symm, h.2.symm⟩

/-- An argument whose upper bits are 0 is its operand, zero-extended (R63). -/
theorem arg_eq_setWidth_extractLsb' {n : Nat} (hn : n ≤ 8) {c : CmdWord} (h : (CmdWord.arg c).toNat < 2 ^ n) :
    CmdWord.arg c = (c.extractLsb' 0 n).setWidth 8 := by
  have hnarrow : c.extractLsb' 0 n = (CmdWord.arg c).setWidth n := (BitVec.setWidth_extractLsb'_of_le hn).symm
  rw [hnarrow, ← BitVec.toNat_inj, BitVec.toNat_setWidth_of_le hn, BitVec.toNat_setWidth, Nat.mod_eq_of_lt h]

/-- A word is the encoding of what it spells: the row fixes the opcode, and the operand fills the argument. -/
theorem encode_of_spells {c : CmdWord} {i : Instr} (h : Spells c i) : encode i = .cmd12 c := by
  cases i with
  | nop => exact cmd12_commandWord_eq ((Pattern.nop_fits_iff c).1 h)
  | init => exact cmd12_commandWord_eq ((Pattern.init_fits_iff c).1 h)
  | data b =>
    obtain ⟨hfits, rfl⟩ := h
    exact cmd12_commandWord_eq ⟨(Pattern.data_fits_iff c).1 hfits, rfl⟩
  | final => exact cmd12_commandWord_eq ((Pattern.final_fits_iff c).1 h)
  | rdw i =>
    obtain ⟨hfits, rfl⟩ := h
    exact cmd12_commandWord_eq (((Pattern.rdw_fits_iff c).1 hfits).imp_right (arg_eq_setWidth_extractLsb' (by decide)))
  | rdb i =>
    obtain ⟨hfits, rfl⟩ := h
    exact cmd12_commandWord_eq (((Pattern.rdb_fits_iff c).1 hfits).imp_right (arg_eq_setWidth_extractLsb' (by decide)))
  | rdx i =>
    obtain ⟨hfits, rfl⟩ := h
    exact cmd12_commandWord_eq (((Pattern.rdx_fits_iff c).1 hfits).imp_right (arg_eq_setWidth_extractLsb' (by decide)))
  | rds => exact cmd12_commandWord_eq ((Pattern.rds_fits_iff c).1 h)
  | illegal d => exact congrArg Code.cmd12 h.1
  | pad | load | expand | round | accum => exact h.elim

/-- Encoding what a word decodes to gives the word back (R64, R70). -/
theorem encode_decodeCmd (c : CmdWord) : encode (decodeCmd c) = .cmd12 c := encode_of_spells (spells_decodeCmd c)

end Sys2Proof
end

section
/-! SUPPORT. The fault registers: what the fault entry writes (R162), and what a step does to them (R165). -/

namespace Sys2Proof.Machine

/-- The first fault is recorded (R162). -/
theorem State.raiseFault_records_first {s : State} (herr : s.err = false) (k : Cause) (c : CmdWord) :
    (s.raiseFault k c).ecause = k.code ∧ (s.raiseFault k c).ecmd = c := by
  simp [herr]

/-- A later fault leaves the record of the first (R162). -/
theorem State.raiseFault_keeps_record {s : State} (herr : s.err = true) (k : Cause) (c : CmdWord) :
    (s.raiseFault k c).ecause = s.ecause ∧ (s.raiseFault k c).ecmd = s.ecmd := by
  simp [herr]

/-- A fault of another cause than 3 leaves `OVF` (R162). -/
theorem State.raiseFault_ovf_of_ne_overflow {k : Cause} (hk : k ≠ .overflow) (s : State) (c : CmdWord) :
    (s.raiseFault k c).ovf = s.ovf := by
  rw [State.raiseFault_ovf, beq_false_of_ne hk, Bool.or_false]

/-- Settles O10: the record of the first fault, `OVF` by the cause, and the frame of the fault entry. -/
theorem faultEntryRecordsTheFirstFault : Obligations.FaultEntryRecordsTheFirstFault := by
  unfold Obligations.FaultEntryRecordsTheFirstFault
  refine fun s k c => ⟨rfl, fun herr => State.raiseFault_records_first herr k c,
    fun herr => State.raiseFault_keeps_record herr k c, fun hk => ?_,
    fun hk => State.raiseFault_ovf_of_ne_overflow hk s c, rfl,
    ⟨rfl, rfl, rfl⟩, rfl, rfl, ⟨rfl, rfl, rfl, rfl, rfl⟩, rfl, rfl⟩
  rw [hk]
  exact Bool.or_true s.ovf

/-- What clears a recorded fault (R165) comes next: an accepted `INIT` or a Reset. -/
def clearsNext (s : State) : Prop := nextIs s .init ∨ nextIsReset s

/-- A Reset executes no instruction (R163). -/
theorem fetch_fst_of_nextIsReset {s : State} (h : nextIsReset s) : (fetch s).1 = none := by
  obtain ⟨rest, hin⟩ := h
  rw [fetch_reset hin]

theorem not_clearsNext_of_nextIs {s : State} {i : Instr} (h : nextIs s i) (hi : i ≠ .init) : ¬ clearsNext s := by
  rintro (hinit | hreset)
  · exact hi (Option.some.inj (h.symm.trans hinit))
  · cases h.symm.trans (fetch_fst_of_nextIsReset hreset)

/-- `INIT` is legal exactly when the engine is not busy (R141). -/
theorem opensSession_eq_not_busy (p : Phase) : opensSession p = !p.busy := by cases p <;> rfl

/-- A ready `INIT` does not fault: where it is ready it is legal (R141). -/
theorem ne_init_of_faultsWith {s : State} {c : CmdWord} {k : Cause} (hr : s.ready c = true)
    (h : faultsWith (decodeCmd c) s k) : decodeCmd c ≠ .init := by
  intro hi
  have hcode := encode_decodeCmd c
  rw [hi] at h hcode
  cases hcode
  have hlegal : opensSession s.phase = true := by
    rw [opensSession_eq_not_busy]
    exact (s.ready_commandWord (op := 1) (by decide) (by decide) 0).symm.trans hr
  cases k <;> simp [faultsWith, hlegal] at h

/-- What one step does to the fault registers. -/
inductive FaultEffect (s t : State) : Prop
  | keeps : ¬ clearsNext s → sameFaults s t → FaultEffect s t
  | raises (i : Instr) (k : Cause) (c : CmdWord) (rest : List Input) : ¬ clearsNext s → nextIs s i → faultsWith i s k →
      t = (s.withInputs rest).raiseFault k c → FaultEffect s t
  | clears : clearsNext s → sameFaults State.reset t → FaultEffect s t

/-- A step keeps the fault registers, raises a fault, or is what clears them (R165). -/
theorem step_faultEffect {s t : State} (h : step s = .next t) : FaultEffect s t := by
  cases step_kind h with
  | reset rest hin ht => subst ht; exact .clears (.inr ⟨rest, hin⟩) ⟨rfl, rfl, rfl, rfl⟩
  | wait is _ hf hin ht =>
    subst ht
    refine .keeps ?_ ⟨rfl, rfl, rfl, rfl⟩
    rintro (hinit | ⟨rest, hreset⟩)
    · cases hf.symm.trans hinit
    · rw [hreset] at hin
      rcases hin with ⟨rfl, hnil⟩ | hidle
      · cases hnil
      · cases hidle
  | engine i is _ hsel hf _ _ ht =>
    have hi := isStep_of_stepSelected hsel
    obtain ⟨u, hu, _, _, hfaults⟩ := exec_engineStep hi (s.withInputs is)
    cases ht.symm.trans hu
    exact .keeps (not_clearsNext_of_nextIs hf (by rintro rfl; cases hi)) hfaults
  | command c rest _ hr hf ht =>
    obtain ⟨u, hu, heffect⟩ := exec_command (s := s.withInputs rest) (encode_decodeCmd c) hr
    cases ht.symm.trans hu
    cases heffect with
    | answers d hi hu =>
      subst hu
      refine .keeps (not_clearsNext_of_nextIs hf ?_) ⟨rfl, rfl, rfl, rfl⟩
      rcases hi with hi | hi | ⟨_, ⟨_, hi⟩ | ⟨_, hi⟩ | ⟨_, hi⟩⟩ <;> rw [hi] <;> nofun
    | faults k w hk _ hu =>
      exact .raises _ k w rest (not_clearsNext_of_nextIs hf (ne_init_of_faultsWith hr hk)) hf hk hu
    | opens hi _ hu => subst hu; exact .clears (.inl (hi ▸ hf)) ⟨rfl, rfl, rfl, rfl⟩
    | takes b hi _ _ hu =>
      subst hu
      exact .keeps (not_clearsNext_of_nextIs hf (by rw [hi]; nofun)) ⟨rfl, rfl, rfl, rfl⟩
    | ends hi _ hu =>
      subst hu
      exact .keeps (not_clearsNext_of_nextIs hf (by rw [hi]; nofun)) ⟨rfl, rfl, rfl, rfl⟩

/-- Settles O14: a step that clears nothing keeps the record, and the one fault that sets `OVF` is the byte refused at
the length limit. -/
theorem faultsStickUntilInitOrReset : Obligations.FaultsStickUntilInitOrReset := by
  unfold Obligations.FaultsStickUntilInitOrReset
  intro s t h
  cases step_faultEffect h with
  | keeps hno hsame =>
    obtain ⟨herr, hecause, hecmd, hovf⟩ := hsame
    refine ⟨fun he _ _ => ⟨herr.trans he, hecause, hecmd, hovf.trans⟩, fun hc => absurd hc hno, fun h0 h1 => ?_⟩
    cases h1.symm.trans (hovf.trans h0)
  | raises i k c rest hno hi hk ht =>
    subst ht
    refine ⟨fun he _ _ => ?_, fun hc => absurd hc hno, fun h0 h1 => ?_⟩
    · obtain ⟨hecause, hecmd⟩ := State.raiseFault_keeps_record (s := s.withInputs rest) he k c
      exact ⟨rfl, hecause, hecmd, fun ho => by simp [ho]⟩
    · have hoverflow : k = .overflow := by simpa [h0] using h1
      subst hoverflow
      obtain ⟨⟨b, rfl⟩, habsorb, hlen⟩ := hk
      exact ⟨⟨b, hi⟩, habsorb, hlen, rfl⟩
  | clears hc hreset =>
    obtain ⟨herr, hecause, hecmd, hovf⟩ := hreset
    refine ⟨fun _ hinit hrst => absurd hc (not_or.2 ⟨hinit, hrst⟩), fun _ => ⟨herr, hecause, hecmd, hovf⟩,
      fun _ h1 => ?_⟩
    cases h1.symm.trans hovf

end Sys2Proof.Machine
end

section
/-! SUPPORT. The `Reset` event (R180): the step that takes it, and the outputs of the state it leads to. -/

namespace Sys2Proof.Machine

/-- A Reset that comes next is taken, whatever the phase (R163). -/
theorem step_reset {s : State} {rest : List Input} (h : s.inputs = .reset :: rest) :
    step s = .next (s.withInputs rest).resetEvent := by
  rw [step, fetch_reset h]

/-- In `IDLE` with clear fault registers every field of the status word is 0 (R23). -/
theorem State.status_eq_zero {s : State} (hp : s.phase = .idle) (hs : sameFaults State.reset s) : s.status = 0 := by
  obtain ⟨herr, hecause, hecmd, hovf⟩ := hs
  rw [State.status, State.busy, State.done, hp, herr, hecause, hecmd, hovf]
  rfl

theorem State.resetEvent_sameCounters (s : State) : sameCounters State.reset s.resetEvent := ⟨rfl, rfl, rfl, rfl, rfl⟩

theorem State.resetEvent_sameFaults (s : State) : sameFaults State.reset s.resetEvent := ⟨rfl, rfl, rfl, rfl⟩

@[simp] theorem State.resetEvent_busy (s : State) : s.resetEvent.busy = false := rfl

@[simp] theorem State.resetEvent_done (s : State) : s.resetEvent.done = false := rfl

@[simp] theorem State.resetEvent_status (s : State) : s.resetEvent.status = 0 :=
  State.status_eq_zero s.resetEvent_phase s.resetEvent_sameFaults

/-- Settles O37: the step is the `Reset` event, which writes the registers that `State.reset` names; its `STATUS` is that
of `IDLE` without a fault, and an engine that is not busy is ready for every word. -/
theorem resetClearsTheControlState : Obligations.ResetClearsTheControlState := by
  unfold Obligations.ResetClearsTheControlState
  refine ⟨fun s rest hin => ⟨(s.withInputs rest).resetEvent, step_reset hin, ?_⟩, rfl,
    State.resetEvent_sameCounters _, State.resetEvent_sameFaults _, State.status_eq_zero rfl ⟨rfl, rfl, rfl, rfl⟩⟩
  obtain ⟨ht, hbi, hlen, hmark, hlw⟩ := State.resetEvent_sameCounters (s.withInputs rest)
  obtain ⟨herr, hecause, hecmd, hovf⟩ := State.resetEvent_sameFaults (s.withInputs rest)
  exact ⟨State.resetEvent_phase _, ht, hbi, hlen, hmark, hlw, herr, hecause, hecmd, hovf, State.resetEvent_rsp _,
    State.resetEvent_inputs _, State.resetEvent_status _, State.resetEvent_busy _, State.resetEvent_done _,
    State.ready_of_not_busy (State.resetEvent_busy _)⟩

end Sys2Proof.Machine
end

section
/-! SUPPORT. Well-formed instructions and their codes: `isIllegal` (R67) is the decoder's `ILLEGAL`, so encoding and
decoding undo each other (R64, R69), and the assembler spells commands (R70, R71). -/

namespace Sys2Proof

/-- The must-be-zero bits of an argument are not all 0 exactly when its value does not fit below them (R63). -/
theorem extractLsb'_ne_zero_iff (x : Byte) {k n : Nat} (hkn : k + n = 8) :
    x.extractLsb' k n ≠ 0 ↔ 2 ^ k ≤ x.toNat := by
  have hx : x.toNat < 2 ^ k * 2 ^ n := by rw [← Nat.pow_add, hkn]; exact x.isLt
  rw [ne_eq, extractLsb'_eq_iff, Nat.mod_eq_of_lt (Nat.div_lt_of_lt_mul hx)]
  simp

/-- The check of well-formedness agrees with the decoder (R64, R67). -/
theorem CmdWord.isIllegal_iff (c : CmdWord) : CmdWord.isIllegal c = true ↔ decodeCmd c = .illegal c := by
  have hop (n : BitVec 4) : CmdWord.op c = n ↔ (CmdWord.op c).toNat = n.toNat := BitVec.toNat_inj.symm
  have hlt := (CmdWord.op c).isLt
  rw [decodeCmd_eq_illegal_iff, forall_commands_not_fits_iff, CmdWord.isIllegal]
  simp only [hop, BitVec.reduceToNat]
  split
  case h_6 h => simpa [h] using extractLsb'_ne_zero_iff (CmdWord.arg c) (k := 3) (n := 5) rfl
  case h_7 h => simpa [h] using extractLsb'_ne_zero_iff (CmdWord.arg c) (k := 5) (n := 3) rfl
  case h_8 h => simpa [h] using extractLsb'_ne_zero_iff (CmdWord.arg c) (k := 6) (n := 2) rfl
  case h_9 => grind
  all_goals rename_i h; simp [h]

theorem CmdWord.isIllegal_eq_false_iff (c : CmdWord) :
    CmdWord.isIllegal c = false ↔ decodeCmd c ≠ .illegal c := by
  rw [← Bool.not_eq_true, CmdWord.isIllegal_iff]

/-- A word that decodes to an illegal instruction is the word that the instruction keeps (R67). -/
theorem eq_of_decodeCmd_eq_illegal {c d : CmdWord} (h : decodeCmd c = .illegal d) : d = c :=
  (decodeCmd_eq_iff.1 h).1

/-- Settles O1: each word decodes to the command it is named after, an illegal word by `CmdWord.isIllegal_iff`, and the
phase codes of the steps are R69's. -/
theorem decodeOfEncodeIsTheInstruction : Obligations.DecodeOfEncodeIsTheInstruction := by
  unfold Obligations.DecodeOfEncodeIsTheInstruction
  intro i hwf
  cases i with
  | nop => exact congrArg Except.ok decodeCmd_nopWord
  | init => exact congrArg Except.ok decodeCmd_initWord
  | data b => exact congrArg Except.ok (decodeCmd_dataWord b)
  | final => exact congrArg Except.ok decodeCmd_finalWord
  | rdw i => exact congrArg Except.ok (decodeCmd_rdwWord i)
  | rdb i => exact congrArg Except.ok (decodeCmd_rdbWord i)
  | rdx i => exact congrArg Except.ok (decodeCmd_rdxWord i)
  | rds => exact congrArg Except.ok decodeCmd_rdsWord
  | illegal c => exact congrArg Except.ok ((CmdWord.isIllegal_iff c).1 hwf)
  | pad | load | expand | round | accum => rfl

/-- What a word decodes to is well formed (R64, R67). -/
theorem wf_decodeCmd (c : CmdWord) : (decodeCmd c).wf = true := by
  cases h : decodeCmd c with
  | illegal d =>
    have hd := eq_of_decodeCmd_eq_illegal h
    subst hd
    exact (CmdWord.isIllegal_iff d).2 h
  | _ => rfl

/-- Every phase code by what it selects (R15, R69). -/
theorem decodePhase_spec (p : PhaseCode) :
    (∀ i, decodePhase p = .ok i → i.wf = true ∧ encode i = .phase3 p) ∧
    (decodePhase p = .error .noStepSelected ↔ p = 0 ∨ p = 1 ∨ p = 7) := by
  have codes : ∀ p : PhaseCode, p = 0 ∨ p = 1 ∨ p = 2 ∨ p = 3 ∨ p = 4 ∨ p = 5 ∨ p = 6 ∨ p = 7 := by decide
  refine ⟨fun i hi => ?_, ?_⟩
  · rcases codes p with rfl | rfl | rfl | rfl | rfl | rfl | rfl | rfl <;> cases hi <;> exact ⟨rfl, rfl⟩
  · rcases codes p with rfl | rfl | rfl | rfl | rfl | rfl | rfl | rfl <;> decide

/-- Settles O2: `encode_decodeCmd` for the words, R69's table for the phase codes, and a count over all words. -/
theorem everyCodeHasOneMeaning : Obligations.EveryCodeHasOneMeaning := by
  unfold Obligations.EveryCodeHasOneMeaning
  exact ⟨fun c => ⟨wf_decodeCmd c, encode_decodeCmd c⟩, decodePhase_spec, by decide +kernel⟩

/-- Settles O4: words of R63 and R67 and phase codes of R69, each decoded. -/
theorem specWordsDecode : Obligations.SpecWordsDecode := by
  unfold Obligations.SpecWordsDecode
  decide

/-- Settles O57: a command word is two digits to the base 256 (`toNat_commandWord`). -/
theorem commandWordsAreOpcodeAndOperand : Obligations.CommandWordsAreOpcodeAndOperand := by
  unfold Obligations.CommandWordsAreOpcodeAndOperand
  exact ⟨rfl, rfl, rfl, rfl, toNat_commandWord 2, toNat_commandWord_setWidth (by decide) 4,
    toNat_commandWord_setWidth (by decide) 5, toNat_commandWord_setWidth (by decide) 6⟩

/-! ### Pseudo-commands -/

/-- A word that decodes to a command other than `ILLEGAL` is not illegal. -/
theorem isIllegal_eq_false_of_decodeCmd {c : CmdWord} {i : Instr} (h : decodeCmd c = i) (hi : i ≠ .illegal c) :
    CmdWord.isIllegal c = false := by
  rw [CmdWord.isIllegal_eq_false_iff, h]
  exact hi

theorem isIllegal_dataWord (b : Byte) : CmdWord.isIllegal (dataWord b) = false :=
  isIllegal_eq_false_of_decodeCmd (decodeCmd_dataWord b) nofun

theorem isIllegal_of_mem_digestWords {c : CmdWord} (h : c ∈ Asm.digestWords) : CmdWord.isIllegal c = false := by
  obtain ⟨n, -, rfl⟩ := List.mem_map.1 h
  exact isIllegal_eq_false_of_decodeCmd (decodeCmd_rdwWord _) nofun

theorem isIllegal_of_mem_digestByteWords {c : CmdWord} (h : c ∈ Asm.digestByteWords) : CmdWord.isIllegal c = false := by
  obtain ⟨n, -, rfl⟩ := List.mem_map.1 h
  exact isIllegal_eq_false_of_decodeCmd (decodeCmd_rdbWord _) nofun

theorem isIllegal_of_mem_hexWords {c : CmdWord} (h : c ∈ Asm.hexWords) : CmdWord.isIllegal c = false := by
  obtain ⟨n, -, rfl⟩ := List.mem_map.1 h
  exact isIllegal_eq_false_of_decodeCmd (decodeCmd_rdxWord _) nofun

theorem isIllegal_of_mem_map_dataWord {bs : List Byte} {c : CmdWord} (h : c ∈ bs.map dataWord) :
    CmdWord.isIllegal c = false := by
  obtain ⟨b, -, rfl⟩ := List.mem_map.1 h
  exact isIllegal_dataWord b

/-- Settles O58: each expansion is made of command words, and that of `HASH` ends with the reads. -/
theorem pseudoCommandsSpellCommands : Obligations.PseudoCommandsSpellCommands := by
  unfold Obligations.PseudoCommandsSpellCommands
  constructor
  · intro item c hcommand hword hc
    cases item with
    | command w => exact absurd rfl (hcommand w)
    | word w => exact absurd rfl (hword w)
    | msg text => exact isIllegal_of_mem_map_dataWord hc
    | bytes bs => exact isIllegal_of_mem_map_dataWord hc
    | fill b n => rw [List.eq_of_mem_replicate hc]; exact isIllegal_dataWord b
    | digest => exact isIllegal_of_mem_digestWords hc
    | digestb => exact isIllegal_of_mem_digestByteWords hc
    | hex => exact isIllegal_of_mem_hexWords hc
    | hash text =>
      simp only [Asm.Item.expand, List.mem_append, List.mem_singleton] at hc
      rcases hc with ((rfl | hc) | rfl) | hc
      · exact isIllegal_eq_false_of_decodeCmd decodeCmd_initWord nofun
      · exact isIllegal_of_mem_map_dataWord hc
      · exact isIllegal_eq_false_of_decodeCmd decodeCmd_finalWord nofun
      · exact isIllegal_of_mem_hexWords hc
  · refine fun text => ⟨Asm.hexWords, ?_, ?_⟩
    · simp [Asm.Item.expand, Machine.script, Function.comp_def]
    · simp only [Asm.hexWords, List.map_map, Function.comp_def, decodeCmd_rdxWord]

end Sys2Proof
end

section
/-! SUPPORT. The sum (R80), choose and majority (R104, R105), the padding (R88 to R92), and the forms of the digest
(R132 to R135). -/

namespace Sys2Proof

/-! ### The functions of the datapath -/

theorem add32_append (xs ys : List Word) : add32 (xs ++ ys) = add32 xs + add32 ys := by
  induction xs with
  | nil => simp
  | cons x xs ih => rw [List.cons_append, add32_cons, add32_cons, ih, BitVec.add_assoc]

/-- Settles O49: `add32` is the sum of a list in a commutative monoid. -/
theorem additionIsModular : Obligations.AdditionIsModular := by
  unfold Obligations.AdditionIsModular
  refine ⟨fun xs => BitVec.toNat_ofNat _ _, fun xs ys h => ?_, fun xs ys => ?_, fun x => ?_⟩
  · rw [add32, add32, (h.map BitVec.toNat).sum_eq]
  · rw [add32_cons, add32_append]
  · simp

/-- Settles O51, by the bits of the logical operations. -/
theorem chooseAndMajorityBitByBit : Obligations.ChooseAndMajorityBitByBit := by
  unfold Obligations.ChooseAndMajorityBitByBit
  intro x y z i hi
  simp only [ch, maj, BitVec.getLsbD_xor, BitVec.getLsbD_and, BitVec.getLsbD_not, hi, decide_true, Bool.true_and]
  cases x.getLsbD i <;> cases y.getLsbD i <;> cases z.getLsbD i <;> decide

/-! ### The padding -/

theorem length_be64 (v : BitVec 64) : (be64 v).length = 8 := rfl

/-- The zeros fill the padded message up to a multiple of 64 bytes (R88, R89). -/
theorem add_padZeros (len : Nat) : len + 1 + padZeros len + 8 = 64 * numBlocks len := by
  unfold padZeros numBlocks
  omega

theorem length_padBytes (m : List Byte) : (padBytes m).length = 64 * numBlocks m.length := by
  rw [← add_padZeros]
  simp only [padBytes, List.length_append, List.length_replicate, List.length_singleton, length_be64]

theorem pad_eq_some_iff {m p : List Byte} : pad m = some p ↔ m.length ≤ Config.maxMsgBytes ∧ padBytes m = p := by
  unfold pad
  split <;> simp_all

theorem numBlocks_eq (len : Nat) :
    numBlocks len = if len % 64 ≤ 55 then len / 64 + 1 else len / 64 + 2 := by
  unfold numBlocks
  split <;> omega

/-- Bit `i` of a 64-bit number is bit `i mod 8` of byte `7 - i div 8` of its image (R87). -/
theorem getLsbD_imageByte (v : BitVec 64) {i : Nat} (hi : i < 64) :
    (imageByte 8 v.toNat (7 - i / 8)).getLsbD (i % 8) = v.getLsbD i := by
  have hsum : 8 * (8 - 1 - (7 - i / 8)) + i % 8 = i := by omega
  rw [imageByte, BitVec.getLsbD_ofNat, Nat.testBit_shiftRight, hsum, decide_eq_true (Nat.mod_lt i (by decide)),
    Bool.true_and, BitVec.getLsbD]

/-- The eight bytes fix the number (R87). -/
theorem be64_injective {v w : BitVec 64} (h : be64 v = be64 w) : v = w := by
  have hbyte : ∀ k ∈ List.range 8, imageByte 8 v.toNat k = imageByte 8 w.toNat k := List.map_inj_left.1 h
  apply BitVec.eq_of_getLsbD_eq
  intro i hi
  rw [← getLsbD_imageByte v hi, hbyte _ (List.mem_range.2 (by omega)), getLsbD_imageByte w hi]

/-- The padding fixes the message: its last eight bytes give the length (R90). -/
theorem padBytes_injective {m n : List Byte} (hm : m.length ≤ Config.maxMsgBytes) (hn : n.length ≤ Config.maxMsgBytes)
    (h : padBytes m = padBytes n) : m = n := by
  obtain ⟨hfront, hlast⟩ := List.append_inj' h rfl
  have hlen : m.length = n.length := by
    have := be64_injective hlast
    rw [← BitVec.toNat_inj, BitVec.toNat_ofNat, BitVec.toNat_ofNat] at this
    simp only [Config.maxMsgBytes] at hm hn
    omega
  rw [List.append_assoc, List.append_assoc] at hfront
  exact (List.append_inj hfront hlen).1

/-- Settles O54: the length by `length_padBytes`, the injectivity by `padBytes_injective`. -/
theorem paddingIsExactAndInjective : Obligations.PaddingIsExactAndInjective := by
  unfold Obligations.PaddingIsExactAndInjective
  refine ⟨fun m p h => ?_, fun m n p hm hn => ?_, fun m => ?_⟩
  · obtain ⟨-, rfl⟩ := pad_eq_some_iff.1 h
    have hlen := length_padBytes m
    refine ⟨?_, ?_, ?_, ?_, ?_, hlen, numBlocks_eq m.length⟩ <;> rw [hlen] <;> unfold numBlocks <;> omega
  · obtain ⟨hlm, rfl⟩ := pad_eq_some_iff.1 hm
    obtain ⟨hln, heq⟩ := pad_eq_some_iff.1 hn
    exact padBytes_injective hlm hln heq.symm
  · simp [pad_eq_some_iff, Config.maxMsgBytes]

/-! ### The digest -/

/-- A list whose pieces have one length (R132, R134). -/
theorem length_flatMap_of_length_eq {α β : Type} {f : α → List β} {n : Nat} (hf : ∀ x, (f x).length = n) (l : List α) :
    (l.flatMap f).length = l.length * n := by
  rw [List.length_flatMap, List.map_congr_left (fun x _ => hf x), List.map_const', List.sum_replicate, smul_eq_mul]

theorem length_digestBytes (h : Words8) : (digestBytes h).length = 32 := by
  rw [digestBytes, length_flatMap_of_length_eq (n := 4) (fun _ => rfl), Vector.length_toList]

theorem length_digestHex (h : Words8) : (digestHex h).length = 64 := by
  rw [digestHex, List.length_map, length_flatMap_of_length_eq (n := 8) (fun _ => rfl), Vector.length_toList]

/-- The code of a digit is that of `0` to `9` or of `a` to `f` (R133). -/
theorem hexCode_range (n : BitVec 4) :
    (0x30 ≤ (hexCode n).toNat ∧ (hexCode n).toNat ≤ 0x39) ∨ (0x61 ≤ (hexCode n).toNat ∧ (hexCode n).toNat ≤ 0x66) := by
  revert n; decide

/-- A field of a field is a field. -/
theorem extractLsb'_extractLsb' {w j k n l : Nat} (x : BitVec w) (h : j + n ≤ l) :
    (x.extractLsb' k l).extractLsb' j n = x.extractLsb' (k + j) n := by
  apply BitVec.eq_of_getLsbD_eq
  intro i hi
  rw [BitVec.getLsbD_extractLsb', BitVec.getLsbD_extractLsb', BitVec.getLsbD_extractLsb',
    decide_eq_true (by omega : j + i < l), Bool.true_and, Nat.add_assoc]

/-- The nibbles of byte `k` of the digest are its nibbles `2 k` and `2 k + 1` (R132, R134). -/
theorem digestNibble_eq_extractLsb'_digestByte (h : Words8) {k : Nat} (hk : k < 32) {r : Nat} (hr : r < 2) :
    Machine.digestNibble h (BitVec.ofNatLT (2 * k + r) (by omega)) =
      (Machine.digestByte h (BitVec.ofNatLT k hk)).extractLsb' (4 - 4 * r) 4 := by
  have hword : (2 * k + r) / 8 = k / 4 := by omega
  have hplace : 28 - 4 * ((2 * k + r) % 8) = 24 - 8 * (k % 4) + (4 - 4 * r) := by omega
  simp only [Machine.digestNibble, Machine.digestByte, BitVec.toNat_ofNatLT, hword, hplace]
  exact (extractLsb'_extractLsb' _ (by omega)).symm

/-- Settles O56: byte `k` is byte `k mod 4` of word `k div 4`, and characters `2 k`, `2 k + 1` are nibbles
`2 (k mod 4)`, `2 (k mod 4) + 1` of the same word. -/
theorem digestFormsAgree : Obligations.DigestFormsAgree := by
  unfold Obligations.DigestFormsAgree
  refine fun h => ⟨length_digestBytes h, length_digestHex h, fun c hc => ?_, Machine.getElem?_digestBytes h,
    fun k b hb => ?_⟩
  · obtain ⟨n, -, rfl⟩ := List.mem_map.1 hc
    exact hexCode_range n
  · have hk : k < 32 := (length_digestBytes h) ▸ (List.getElem?_eq_some_iff.1 hb).1
    have hbyte := Machine.getElem?_digestBytes h (BitVec.ofNatLT k hk)
    rw [BitVec.toNat_ofNatLT, hb, Option.some.injEq] at hbyte
    have hchar (r : Nat) (hr : r < 2) : (digestHex h)[2 * k + r]? = some (hexCode (b.extractLsb' (4 - 4 * r) 4)) := by
      rw [hbyte, ← digestNibble_eq_extractLsb'_digestByte h hk hr]
      exact Machine.getElem?_digestHex h (BitVec.ofNatLT (2 * k + r) (by omega))
    exact ⟨hchar 0 (by decide), hchar 1 (by decide)⟩

end Sys2Proof
end

section
/-! SUPPORT. The meaning of a command as a function (R139): the cause with which it faults, if any, and its effect if it
does not. From it: that nothing stops the machine, what is answered, and the order of the fault checks. -/

namespace Sys2Proof.Machine

/-- The cause with which a ready command faults in a state, none when it does not (R139, R160). -/
def faultOf (s : State) : Instr → Option Cause
  | .illegal _ => some .illegal
  | .init => if opensSession s.phase then none else some .phase
  | .data _ =>
    if takesMessage s.phase then (if s.len.toNat = Config.maxMsgBytes then some .overflow else none) else some .phase
  | .final => if takesMessage s.phase then none else some .phase
  | .rdw _ | .rdb _ | .rdx _ => if showsDigest s.phase then none else some .phase
  | .nop | .rds | .pad | .load | .expand | .round | .accum => none

/-- What a ready command does where it does not fault (R140 to R148). -/
def effectOf (s : State) : Instr → State
  | .nop => s.respond 0
  | .init => (openSession s).respond 0
  | .data b => (appendByte b s).respond 0
  | .final => ({ s with phase := .pad } : State).respond 0
  | .rdw i => s.respond (digestWord s.h i)
  | .rdb i => s.respond (zext32 (digestByte s.h i))
  | .rdx i => s.respond (zext32 (digestCharCode s.h i))
  | .rds => s.respond s.status
  | .illegal _ | .pad | .load | .expand | .round | .accum => s

/-- What a ready command with word `c` does. -/
def performed (s : State) (c : CmdWord) (i : Instr) : State :=
  match faultOf s i with
  | some k => s.raiseFault k c
  | none => effectOf s i

theorem performed_of_fault {s : State} {i : Instr} {k : Cause} (h : faultOf s i = some k) (c : CmdWord) :
    performed s c i = s.raiseFault k c := by rw [performed, h]

theorem performed_of_no_fault {s : State} {i : Instr} (h : faultOf s i = none) (c : CmdWord) :
    performed s c i = effectOf s i := by rw [performed, h]

/-- A command is accepted or held (R66), and `performed` says what it does when accepted. -/
theorem exec_eq_whenReady {i : Instr} {c : CmdWord} (h : encode i = .cmd12 c) (s : State) :
    exec i s = whenReady s c (performed s c i) := by
  cases i <;> cases h
  case nop | rds | illegal => rfl
  case init => cases hl : opensSession s.phase <;> simp [exec, execInit, whenLegal, performed, faultOf, effectOf, hl]
  case final => cases hl : takesMessage s.phase <;> simp [exec, execFinal, whenLegal, performed, faultOf, effectOf, hl]
  case data =>
    cases hl : takesMessage s.phase
    · simp [exec, execData, whenLegal, performed, faultOf, hl]
    · by_cases hfull : s.len.toNat = Config.maxMsgBytes <;>
        simp [exec, execData, whenLegal, performed, faultOf, effectOf, hl, hfull]
  case rdw | rdb | rdx =>
    cases hl : showsDigest s.phase <;>
      simp [exec, execRdw, execRdb, execRdx, readDigest, whenLegal, performed, faultOf, effectOf, hl]

/-- The meaning of a word (R64, R66, R139). -/
theorem exec_decodeCmd (c : CmdWord) (s : State) :
    exec (decodeCmd c) s = whenReady s c (performed s c (decodeCmd c)) := exec_eq_whenReady (encode_decodeCmd c) s

theorem exec_decodeCmd_of_ready {s : State} {c : CmdWord} (h : s.ready c = true) :
    exec (decodeCmd c) s = .next (performed s c (decodeCmd c)) := by
  rw [exec_decodeCmd, whenReady_of_ready h]

/-- `faultOf` is `faultsWith` as a function. -/
theorem faultOf_eq_some_iff {s : State} {i : Instr} {k : Cause} : faultOf s i = some k ↔ faultsWith i s k := by
  cases i with
  | nop | rds | pad | load | expand | round | accum | illegal => cases k <;> simp [faultOf, faultsWith]
  | init => cases k <;> simp [faultOf, faultsWith]
  | data b => cases k <;> cases hl : takesMessage s.phase <;> simp_all [faultOf, faultsWith, takesMessage]
  | final => cases k <;> cases hl : takesMessage s.phase <;> simp_all [faultOf, faultsWith, takesMessage]
  | rdw | rdb | rdx => cases k <;> simp [faultOf, faultsWith]

/-- A command faults or has its effect. -/
theorem performed_cases (s : State) (c : CmdWord) (i : Instr) :
    (∃ k, faultsWith i s k ∧ performed s c i = s.raiseFault k c) ∨
    ((∀ k, ¬ faultsWith i s k) ∧ performed s c i = effectOf s i) := by
  cases h : faultOf s i with
  | some k => exact .inl ⟨k, faultOf_eq_some_iff.1 h, performed_of_fault h c⟩
  | none =>
    refine .inr ⟨fun k hk => ?_, performed_of_no_fault h c⟩
    cases h.symm.trans (faultOf_eq_some_iff.2 hk)

/-- The cause depends on `PHASE` and `LEN` alone. -/
theorem faultOf_congr {s s' : State} (hp : s'.phase = s.phase) (hlen : s'.len = s.len) (i : Instr) :
    faultOf s' i = faultOf s i := by
  cases i <;> simp only [faultOf, hp, hlen]

/-! ### The step by the head of the inputs -/

theorem engineStep_of_selected {s : State} {i : Instr} (h : stepSelected s.phase = some i) : engineStep s = exec i s := by
  rw [engineStep, engineTurn, h]

theorem engineStep_of_none {s : State} (h : stepSelected s.phase = none) : engineStep s = .next s.silent := by
  rw [engineStep, engineTurn, h]

theorem step_of_fetch_eq_engineTurn {s u : State} (h : fetch s = engineTurn u) : step s = engineStep u := by
  rw [step, h]; rfl

theorem step_ready {s : State} {c : CmdWord} {rest : List Input} (hin : s.inputs = .present c :: rest)
    (hr : s.ready c = true) : step s = exec (decodeCmd c) (s.withInputs rest) := by
  rw [step, fetch_ready hin hr]

theorem step_nil {s : State} (hin : s.inputs = []) : step s = engineStep s :=
  step_of_fetch_eq_engineTurn (fetch_nil hin)

theorem step_idle {s : State} {rest : List Input} (hin : s.inputs = .idle :: rest) :
    step s = engineStep (s.withInputs rest) := step_of_fetch_eq_engineTurn (fetch_idle hin)

theorem step_held {s : State} {c : CmdWord} {rest : List Input} (hin : s.inputs = .present c :: rest)
    (hr : s.ready c = false) : step s = engineStep s := step_of_fetch_eq_engineTurn (fetch_held hin hr)

theorem stepSelected_eq_some_iff {p : Phase} {i : Instr} : stepSelected p = some i ↔ decodePhase p.code = .ok i := by
  cases p <;> simp [stepSelected, Phase.code, decodePhase]

theorem stepSelected_of_decodePhase_error {p : Phase} {r : Reject} (h : decodePhase p.code = .error r) :
    stepSelected p = none := by rw [stepSelected, h]

/-- Settles O5: the step by the head of the inputs, and the engine's step by `PHASE`. -/
theorem stepRunsTheSelectedTransition : Obligations.StepRunsTheSelectedTransition := by
  unfold Obligations.StepRunsTheSelectedTransition
  intro s
  refine ⟨fun c rest hin hr => step_ready hin hr, fun c rest i hin hr hi => ?_, fun i hin hi => ?_,
    fun i rest hin hi => ?_, fun rest hin => step_reset hin, fun r hin hn => ?_, fun r rest hin hn => ?_, fun c hr => ?_⟩
  · rw [step_held hin hr, engineStep_of_selected (stepSelected_eq_some_iff.2 hi)]
  · rw [step_nil hin, engineStep_of_selected (stepSelected_eq_some_iff.2 hi)]
  · rw [step_idle hin]
    exact engineStep_of_selected (s := s.withInputs rest) (stepSelected_eq_some_iff.2 hi)
  · rw [step_nil hin, engineStep_of_none (stepSelected_of_decodePhase_error hn)]
  · rw [step_idle hin]
    exact engineStep_of_none (s := s.withInputs rest) (stepSelected_of_decodePhase_error hn)
  · obtain ⟨i, hi⟩ := stepSelected_of_busy (State.busy_of_not_ready hr)
    exact ⟨i, stepSelected_eq_some_iff.1 hi⟩

/-- An instruction is an engine step, or a word encodes it. -/
theorem isStep_or_encode (i : Instr) : isStep i = true ∨ ∃ c, encode i = .cmd12 c := by
  cases i with
  | pad | load | expand | round | accum => exact .inl rfl
  | _ => exact .inr ⟨_, rfl⟩

/-- No instruction stops the machine (R160). -/
theorem exec_total (i : Instr) (s : State) : ∃ t, exec i s = .next t := by
  rcases isStep_or_encode i with hi | ⟨c, hc⟩
  · obtain ⟨t, ht, -⟩ := exec_engineStep hi s
    exact ⟨t, ht⟩
  · rw [exec_eq_whenReady hc, whenReady]
    split <;> exact ⟨_, rfl⟩

/-- No step stops the machine (R167). -/
theorem step_total (s : State) : ∃ t, step s = .next t := by
  rw [step]
  split
  · exact exec_total _ _
  · exact ⟨_, rfl⟩

/-- Settles O6. -/
theorem machineNeverStops : Obligations.MachineNeverStops := by
  unfold Obligations.MachineNeverStops
  exact ⟨exec_total, step_total⟩

/-! ### What is answered -/

/-- A command that does not fault answers with error bit 0, and those that read nothing answer 0 (R65). -/
theorem effectOf_rsp {s : State} {i : Instr} (hi : isStep i = false) (hf : ∀ k, ¬ faultsWith i s k) :
    ∃ d, (effectOf s i).rsp = some ⟨d, false⟩ ∧
      (i = .nop ∨ i = .init ∨ (∃ b, i = .data b) ∨ i = .final → d = 0) := by
  cases i with
  | nop | init | data | final => exact ⟨0, rfl, fun _ => rfl⟩
  | rdw | rdb | rdx | rds => exact ⟨_, rfl, by simp⟩
  | illegal c => exact absurd ⟨c, rfl⟩ (hf .illegal)
  | pad | load | expand | round | accum => cases hi

theorem takesMessage_eq_false_iff {p : Phase} : takesMessage p = false ↔ p ≠ .absorb := beq_eq_false_iff_ne

theorem showsDigest_eq_false_iff {p : Phase} : showsDigest p = false ↔ p ≠ .done := beq_eq_false_iff_ne

/-- The causes of a ready word's fault (R160): `INIT` is not among them, and the phase is checked before the length. -/
theorem exists_faultsWith_iff {s : State} {c : CmdWord} (hr : s.ready c = true) :
    (∃ k, faultsWith (decodeCmd c) s k) ↔
      CmdWord.isIllegal c = true ∨
      (((∃ b, decodeCmd c = .data b) ∨ decodeCmd c = .final) ∧ s.phase ≠ .absorb) ∨
      (((∃ i, decodeCmd c = .rdw i) ∨ (∃ i, decodeCmd c = .rdb i) ∨ (∃ i, decodeCmd c = .rdx i)) ∧ s.phase ≠ .done) ∨
      ((∃ b, decodeCmd c = .data b) ∧ s.len.toNat = Config.maxMsgBytes) := by
  rw [CmdWord.isIllegal_iff, ← takesMessage_eq_false_iff, ← showsDigest_eq_false_iff]
  constructor
  · rintro ⟨k, hk⟩
    have hinit := ne_init_of_faultsWith hr hk
    cases k with
    | illegal =>
      obtain ⟨d, hd⟩ := hk
      exact .inl (eq_of_decodeCmd_eq_illegal hd ▸ hd)
    | phase =>
      rcases hk with ⟨hi, -⟩ | hk | hk
      · exact absurd hi hinit
      · exact .inr (.inl hk)
      · exact .inr (.inr (.inl hk))
    | overflow =>
      obtain ⟨hd, -, hlen⟩ := hk
      exact .inr (.inr (.inr ⟨hd, hlen⟩))
  · rintro (hd | hk | hk | ⟨hd, hlen⟩)
    · exact ⟨.illegal, c, hd⟩
    · exact ⟨.phase, .inr (.inl hk)⟩
    · exact ⟨.phase, .inr (.inr hk)⟩
    · by_cases hp : s.phase = .absorb
      · exact ⟨.overflow, hd, hp, hlen⟩
      · exact ⟨.phase, .inr (.inl ⟨.inl hd, takesMessage_eq_false_iff.2 hp⟩)⟩

/-- Settles O9: a fault answers (0, 1), any other command as `effectOf_rsp` says, an engine step not at all. -/
theorem everyAcceptedCommandAnswersOnce : Obligations.EveryAcceptedCommandAnswersOnce := by
  unfold Obligations.EveryAcceptedCommandAnswersOnce
  refine ⟨fun s c hr => ?_, fun s t i hi h => ?_⟩
  · rw [exec_decodeCmd_of_ready hr, ← exists_faultsWith_iff hr]
    rcases performed_cases s c (decodeCmd c) with ⟨k, hk, heq⟩ | ⟨hno, heq⟩
    · exact ⟨_, ⟨0, true⟩, rfl, by rw [heq]; rfl, fun _ => rfl, ⟨fun _ => ⟨k, hk⟩, fun _ => rfl⟩, fun _ => rfl⟩
    · obtain ⟨d, hd, hzero⟩ := effectOf_rsp (not_isStep_decodeCmd c) hno
      exact ⟨_, ⟨d, false⟩, rfl, by rw [heq, hd], nofun, ⟨nofun, fun ⟨k, hk⟩ => absurd hk (hno k)⟩, hzero⟩
  · obtain ⟨u, hu, hrsp, -⟩ := exec_engineStep hi s
    cases h.symm.trans hu
    exact hrsp

/-! ### The order of the checks -/

/-- A word that is not illegal decodes by its opcode (R63). -/
theorem decodeCmd_of_op_two {c : CmdWord} (h : CmdWord.op c = 0x2) : ∃ b, decodeCmd c = .data b :=
  ⟨_, decodeCmd_of_spells ⟨(Pattern.data_fits_iff c).2 h, rfl⟩⟩

/-- A word with the opcode of a digest read is one, or is illegal (R63, R67). -/
theorem decodeCmd_of_op_read {c : CmdWord} (hlegal : CmdWord.isIllegal c = false)
    (h : CmdWord.op c = 0x4 ∨ CmdWord.op c = 0x5 ∨ CmdWord.op c = 0x6) :
    (∃ i, decodeCmd c = .rdw i) ∨ (∃ i, decodeCmd c = .rdb i) ∨ (∃ i, decodeCmd c = .rdx i) := by
  rw [CmdWord.isIllegal_eq_false_iff, ne_eq, decodeCmd_eq_illegal_iff, forall_commands_not_fits_iff] at hlegal
  rcases h with h | h | h
  · exact .inl ⟨_, decodeCmd_of_spells ⟨(Pattern.rdw_fits_iff c).2 ⟨h, by simp_all⟩, rfl⟩⟩
  · exact .inr (.inl ⟨_, decodeCmd_of_spells ⟨(Pattern.rdb_fits_iff c).2 ⟨h, by simp_all⟩, rfl⟩⟩)
  · exact .inr (.inr ⟨_, decodeCmd_of_spells ⟨(Pattern.rdx_fits_iff c).2 ⟨h, by simp_all⟩, rfl⟩⟩)

theorem performed_of_faultsWith {s : State} {i : Instr} {k : Cause} (h : faultsWith i s k) (c : CmdWord) :
    performed s c i = s.raiseFault k c := performed_of_fault (faultOf_eq_some_iff.2 h) c

/-- Settles O12: each clause is a cause of `faultsWith`, and `NOP`, `RDS` and `INIT` have their effects. -/
theorem faultChecksAreOrdered : Obligations.FaultChecksAreOrdered := by
  unfold Obligations.FaultChecksAreOrdered
  refine fun s c hr => ⟨_, exec_decodeCmd_of_ready hr, fun hill => ?_, fun hd hp => ?_, fun hleg hop hp => ?_,
    fun hop hp hlen => ?_, fun hc => ?_, fun hc => ?_⟩
  · exact performed_of_faultsWith (k := .illegal) ⟨c, (CmdWord.isIllegal_iff c).1 hill⟩ c
  · have hmessage : (∃ b, decodeCmd c = .data b) ∨ decodeCmd c = .final :=
      hd.imp decodeCmd_of_op_two (by rintro rfl; exact decodeCmd_finalWord)
    exact performed_of_faultsWith (k := .phase) (.inr (.inl ⟨hmessage, takesMessage_eq_false_iff.2 hp⟩)) c
  · exact performed_of_faultsWith (k := .phase)
      (.inr (.inr ⟨decodeCmd_of_op_read hleg hop, showsDigest_eq_false_iff.2 hp⟩)) c
  · exact performed_of_faultsWith (k := .overflow) ⟨decodeCmd_of_op_two hop, hp, hlen⟩ c
  · rcases hc with rfl | hc | rfl
    · rw [decodeCmd_nopWord]; exact .inl ⟨rfl, rfl, rfl, rfl⟩
    · exact .inr hc
    · rw [decodeCmd_rdsWord]; exact .inl ⟨rfl, rfl, rfl, rfl⟩
  · subst hc
    rcases performed_cases s initWord (decodeCmd initWord) with ⟨k, hk, -⟩ | ⟨-, heq⟩
    · exact absurd decodeCmd_initWord (ne_init_of_faultsWith hr hk)
    · rw [heq, decodeCmd_initWord]; rfl

/-- Settles O13: the byte is refused by the fault entry with cause 3. -/
theorem overflowRefusesTheByte : Obligations.OverflowRefusesTheByte := by
  unfold Obligations.OverflowRefusesTheByte
  refine fun s b hp hlen => ⟨_, exec_data_of_full hp hlen b, Bool.or_true _, rfl, rfl,
    fun herr => State.raiseFault_records_first herr _ _, fun herr => State.raiseFault_keeps_record herr _ _,
    ⟨rfl, rfl, rfl⟩, rfl, rfl, ⟨rfl, rfl, rfl, rfl, rfl⟩, rfl, rfl⟩

end Sys2Proof.Machine
end

section
/-! SUPPORT. The invariant (R30) is kept by every transition: what it says of the position in each phase, and each effect
of `CommandEffect` and each engine step in turn. -/

namespace Sys2Proof.Machine

/-- A block compressed before the marker is written ends at a block boundary of the message. -/
def State.atBlockEnd (s : State) : Prop := s.mark = false → s.len.toNat % 64 = 0

/-- What the invariant says of the position of the sequencer, phase by phase (R30 items 1 to 8). -/
def State.inPosition (s : State) : Prop :=
  match s.phase with
  | .idle => s.t = 0 ∧ s.bi = 0 ∧ s.len = 0 ∧ s.mark = false ∧ s.lw = false ∧ s.ovf = false
  | .absorb => s.t = 0 ∧ s.mark = false ∧ s.lw = false ∧ s.bi.toNat = s.len.toNat % 64
  | .pad => s.t = 0 ∧ s.lw = false ∧ (s.mark = false ∧ s.bi.toNat = s.len.toNat % 64 ∨ s.mark = true ∧ s.bi = 0)
  | .load | .accum => s.t = 0 ∧ s.bi = 0 ∧ s.atBlockEnd
  | .expand => 16 ≤ s.t.toNat ∧ s.bi = 0 ∧ s.atBlockEnd
  | .round => s.bi = 0 ∧ s.atBlockEnd
  | .done => s.t = 0 ∧ s.bi = 0 ∧ s.mark = true ∧ s.lw = true

/-- What the invariant says of the fault registers (R30 item 10). -/
def State.faultsOk (s : State) : Prop :=
  (s.err = false ↔ s.ecause = 0) ∧ (s.err = false → s.ecmd = 0) ∧ (s.ovf = true → s.err = true)

/-- The invariant, taken apart. -/
theorem State.inv_iff (s : State) : s.Inv ↔
    s.inPosition ∧ (s.lw = true → s.mark = true) ∧ s.faultsOk ∧ s.len.toNat ≤ Config.maxMsgBytes ∧ s.m.wf = true := by
  have ht := s.t.isLt
  constructor
  · rintro ⟨⟨hidle, habsorb, hpad, hload, hexpand, hround, haccum, hdone, hlw, hfault, hlen⟩, hend, hm⟩
    refine ⟨?_, hlw, hfault, hlen, hm⟩
    unfold inPosition atBlockEnd
    cases hp : s.phase <;> simp_all [Phase.compressing]
    tauto
  · rintro ⟨hpos, hlw, hfault, hlen, hm⟩
    unfold inPosition atBlockEnd at hpos
    cases hp : s.phase <;> rw [hp] at hpos <;> refine ⟨⟨?_, ?_, ?_, ?_, ?_, ?_, ?_, ?_, hlw, hfault, hlen⟩, ?_, hm⟩ <;>
      simp_all [Phase.compressing] <;> omega

/-- The invariant speaks of `PHASE`, the counters, the fault registers and `M` alone. -/
theorem State.Inv.congr {s t : State} (h : s.Inv) (hp : t.phase = s.phase) (hc : sameCounters s t)
    (hf : sameFaults s t) (hm : t.m = s.m) : t.Inv := by
  obtain ⟨ht, hbi, hlen, hmark, hlw⟩ := hc
  obtain ⟨herr, hecause, hecmd, hovf⟩ := hf
  rw [State.inv_iff] at h ⊢
  simpa only [State.inPosition, State.atBlockEnd, State.faultsOk, hp, ht, hbi, hlen, hmark, hlw, herr, hecause, hecmd,
    hovf, hm] using h

theorem State.Inv.withInputs {s : State} (h : s.Inv) (is : List Input) : (s.withInputs is).Inv :=
  h.congr rfl ⟨rfl, rfl, rfl, rfl, rfl⟩ ⟨rfl, rfl, rfl, rfl⟩ rfl

theorem State.Inv.silent {s : State} (h : s.Inv) : s.silent.Inv :=
  h.congr rfl ⟨rfl, rfl, rfl, rfl, rfl⟩ ⟨rfl, rfl, rfl, rfl⟩ rfl

theorem State.Inv.respond {s : State} (h : s.Inv) (d : Word) : (s.respond d).Inv :=
  h.congr rfl ⟨rfl, rfl, rfl, rfl, rfl⟩ ⟨rfl, rfl, rfl, rfl⟩ rfl

/-! ### The effects of the commands -/

/-- A fault has a cause that is not 0 (R160). -/
theorem Cause.code_ne_zero (k : Cause) : k.code ≠ 0 := by cases k <;> decide

/-- The fault entry leaves fault registers as R30 item 10 has them. -/
theorem State.faultsOk_raiseFault {s : State} (h : s.faultsOk) (k : Cause) (c : CmdWord) : (s.raiseFault k c).faultsOk := by
  refine ⟨?_, nofun, fun _ => rfl⟩
  cases herr : s.err with
  | false => simpa [herr] using k.code_ne_zero
  | true =>
    have hcause : s.ecause ≠ 0 := fun h0 => by rw [h.1.2 h0] at herr; cases herr
    simpa [herr] using hcause

/-- A refused byte is refused in `ABSORB`, so no fault sets `OVF` in `IDLE` (R30 item 1). -/
theorem State.Inv.raiseFault {s : State} (h : s.Inv) {i : Instr} {k : Cause} (hk : faultsWith i s k) (c : CmdWord) :
    (s.raiseFault k c).Inv := by
  rw [State.inv_iff] at h ⊢
  obtain ⟨hpos, hlw, hfaults, hlen, hm⟩ := h
  refine ⟨?_, hlw, State.faultsOk_raiseFault hfaults k c, hlen, hm⟩
  have hovf : s.phase = .idle → (s.raiseFault k c).ovf = s.ovf := by
    intro hp
    refine State.raiseFault_ovf_of_ne_overflow ?_ s c
    rintro rfl
    obtain ⟨-, habsorb, -⟩ := hk
    rw [hp] at habsorb; cases habsorb
  unfold State.inPosition at hpos ⊢
  rw [State.raiseFault_phase]
  cases hp : s.phase <;> rw [hp] at hpos
  case idle => rw [hovf hp]; exact hpos
  all_goals exact hpos

theorem State.Inv.openSession {s : State} (h : s.Inv) : (openSession s).Inv := by
  rw [State.inv_iff] at h ⊢
  obtain ⟨-, -, -, -, hm⟩ := h
  exact ⟨⟨rfl, rfl, rfl, rfl⟩, nofun, ⟨Iff.intro (fun _ => rfl) (fun _ => rfl), fun _ => rfl, nofun⟩, Nat.zero_le _, hm⟩

/-- A byte taken is counted in `BI` and in `LEN`; at the 64th both are at a block boundary (R142). -/
theorem State.Inv.appendByte {s : State} (h : s.Inv) (hp : s.phase = .absorb)
    (hroom : s.len.toNat < Config.maxMsgBytes) (b : Byte) : (appendByte b s).Inv := by
  rw [State.inv_iff] at h ⊢
  obtain ⟨hpos, hlw, hfaults, -, hm⟩ := h
  rw [State.inPosition, hp] at hpos
  obtain ⟨ht, hmark, hlw0, hbi⟩ := hpos
  simp only [Config.maxMsgBytes] at hroom
  have hlen : (s.len + 1).toNat = s.len.toNat + 1 := by bv_omega
  refine ⟨?_, hlw, hfaults, ?_, Memory.wf_write hm _ _⟩
  · rw [State.inPosition, appendByte_phase, appendByte_bi]
    by_cases h63 : s.bi.toNat = 63
    · rw [if_pos h63, if_pos h63]
      refine ⟨ht, rfl, fun _ => ?_⟩
      rw [appendByte_len, hlen]; omega
    · rw [if_neg h63, if_neg h63, hp]
      refine ⟨ht, hmark, hlw0, ?_⟩
      rw [appendByte_len, hlen]
      bv_omega
  · rw [appendByte_len, hlen]; exact hroom

theorem State.Inv.endMessage {s : State} (h : s.Inv) (hp : s.phase = .absorb) : ({ s with phase := .pad } : State).Inv := by
  rw [State.inv_iff] at h ⊢
  obtain ⟨hpos, hrest⟩ := h
  rw [State.inPosition, hp] at hpos
  obtain ⟨ht, hmark, hlw, hbi⟩ := hpos
  exact ⟨⟨ht, hlw, .inl ⟨hmark, hbi⟩⟩, hrest⟩

/-- Every accepted command keeps the invariant. -/
theorem State.Inv.command {s t : State} {i : Instr} (h : s.Inv) (heffect : CommandEffect i s t) : t.Inv := by
  cases heffect with
  | answers d _ ht => subst ht; exact h.respond d
  | faults k c hk _ ht => subst ht; exact h.raiseFault hk c
  | opens _ _ ht => subst ht; exact h.openSession.respond 0
  | takes b _ hp hroom ht => subst ht; exact (h.appendByte hp hroom b).respond 0
  | ends _ hp ht => subst ht; exact (h.endMessage hp).respond 0

/-! ### The engine steps and the Reset event -/

/-- What an engine step does in the phase that selects it (R110 to R113, R144), the counting of `T` by its two cases. -/
inductive EngineEffect (s t : State) : Instr → Prop
  | pad : s.phase = .pad → t = { s.silent with
        m := padMemory s.m s.bi s.len s.mark
        mark := true
        lw := if s.mark = false ∧ 55 < s.bi.toNat then s.lw else true
        bi := 0
        phase := .load } → EngineEffect s t .pad
  | load : s.phase = .load →
      t = { s.silent with w := loadWords s.m s.w, v := s.h, t := 16, phase := .expand } → EngineEffect s t .load
  | expand : s.phase = .expand → s.t.toNat < 63 →
      t = { s.silent with w := setWord s.w s.t (expandValue s.w s.t), t := s.t + 1 } → EngineEffect s t .expand
  | expandLast : s.phase = .expand → s.t.toNat = 63 →
      t = { s.silent with w := setWord s.w s.t (expandValue s.w s.t), t := 0, phase := .round } →
      EngineEffect s t .expand
  | round : s.phase = .round → s.t.toNat < 63 →
      t = { s.silent with v := roundFn s.v (roundConstant s.t) (wordAt s.w s.t), t := s.t + 1 } →
      EngineEffect s t .round
  | roundLast : s.phase = .round → s.t.toNat = 63 →
      t = { s.silent with v := roundFn s.v (roundConstant s.t) (wordAt s.w s.t), t := 0, phase := .accum } →
      EngineEffect s t .round
  | accum : s.phase = .accum →
      t = { s.silent with h := addWords s.h s.v, phase := afterAccum s.mark s.lw } → EngineEffect s t .accum

/-- The inversion lemma of an engine step. -/
theorem exec_engineEffect {s t : State} {i : Instr} (hi : stepSelected s.phase = some i) (ht : exec i s = .next t) :
    EngineEffect s t i := by
  have hlt : s.t.toNat < 63 ∨ s.t.toNat = 63 := by have := s.t.isLt; omega
  rw [stepSelected_eq] at hi
  cases hp : s.phase <;> rw [hp] at hi <;> cases hi <;> cases ht
  case pad => exact .pad hp rfl
  case load => exact .load hp rfl
  case accum => exact .accum hp rfl
  case expand =>
    rcases hlt with hlt | hlt
    · exact .expand hp hlt (by rw [if_neg hlt.ne, if_neg hlt.ne]; rfl)
    · exact .expandLast hp hlt (by rw [if_pos hlt, if_pos hlt])
  case round =>
    rcases hlt with hlt | hlt
    · exact .round hp hlt (by rw [if_neg hlt.ne, if_neg hlt.ne]; rfl)
    · exact .roundLast hp hlt (by rw [if_pos hlt, if_pos hlt])

/-- Every engine step keeps the invariant. -/
theorem State.Inv.engine {s t : State} {i : Instr} (h : s.Inv) (heffect : EngineEffect s t i) : t.Inv := by
  rw [State.inv_iff] at h ⊢
  obtain ⟨hpos, hlw, hfaults, hlen, hm⟩ := h
  unfold State.inPosition at hpos ⊢
  cases heffect with
  | pad hp ht =>
    subst ht; rw [hp] at hpos
    exact ⟨⟨hpos.1, rfl, nofun⟩, fun _ => rfl, hfaults, hlen, wf_padMemory hm _ _ _⟩
  | load hp ht =>
    subst ht; rw [hp] at hpos
    exact ⟨⟨le_refl 16, hpos.2⟩, hlw, hfaults, hlen, hm⟩
  | expand hp hlt ht =>
    subst ht; rw [hp] at hpos
    obtain ⟨hlo, hrest⟩ := hpos
    refine ⟨?_, hlw, hfaults, hlen, hm⟩
    rw [State.silent_phase, hp]
    exact ⟨by bv_omega, hrest⟩
  | expandLast hp hlt ht =>
    subst ht; rw [hp] at hpos
    exact ⟨hpos.2, hlw, hfaults, hlen, hm⟩
  | round hp hlt ht =>
    subst ht; rw [hp] at hpos
    refine ⟨?_, hlw, hfaults, hlen, hm⟩
    rw [State.silent_phase, hp]
    exact hpos
  | roundLast hp hlt ht =>
    subst ht; rw [hp] at hpos
    exact ⟨⟨rfl, hpos⟩, hlw, hfaults, hlen, hm⟩
  | accum hp ht =>
    subst ht; rw [hp] at hpos
    obtain ⟨ht, hbi, hend⟩ := hpos
    refine ⟨?_, hlw, hfaults, hlen, hm⟩
    cases hmark : s.mark with
    | false =>
      have hlw0 : s.lw = false := by
        cases h : s.lw with
        | false => rfl
        | true => rw [hlw h] at hmark; cases hmark
      exact ⟨ht, hmark, hlw0, by rw [State.silent_bi, hbi]; exact (hend hmark).symm⟩
    | true =>
      cases hl : s.lw with
      | false => exact ⟨ht, hl, .inr ⟨hmark, hbi⟩⟩
      | true => exact ⟨ht, hbi, hmark, hl⟩

/-- The Reset event leads to a state with the invariant from any state (R180). -/
theorem State.inv_resetEvent (s : State) : s.resetEvent.Inv := by
  rw [State.inv_iff]
  exact ⟨⟨rfl, rfl, rfl, rfl, rfl, rfl⟩, nofun, ⟨Iff.intro (fun _ => rfl) (fun _ => rfl), fun _ => rfl, nofun⟩,
    Nat.zero_le _, s.resetEvent_wf⟩

/-- Settles O33. -/
theorem invariantHoldsAtReset : Obligations.InvariantHoldsAtReset := by
  unfold Obligations.InvariantHoldsAtReset
  rw [State.inv_iff]
  exact ⟨⟨rfl, rfl, rfl, rfl, rfl, rfl⟩, nofun, ⟨Iff.intro (fun _ => rfl) (fun _ => rfl), fun _ => rfl, nofun⟩,
    Nat.zero_le _, Memory.wf_nil⟩

/-- An accepted word has an effect in the state it is accepted in. -/
theorem commandEffect_of_exec {s t : State} {c : CmdWord} (hr : s.ready c = true) (h : exec (decodeCmd c) s = .next t) :
    CommandEffect (decodeCmd c) s t := by
  obtain ⟨u, hu, heffect⟩ := exec_command (encode_decodeCmd c) hr
  cases h.symm.trans hu
  exact heffect

/-- Settles O34: each kind of step keeps the invariant. -/
theorem stepKeepsTheInvariant : Obligations.StepKeepsTheInvariant := by
  unfold Obligations.StepKeepsTheInvariant
  intro s t hinv h
  cases step_kind h with
  | reset rest _ ht => subst ht; exact State.inv_resetEvent _
  | command c rest _ hr _ ht => exact (hinv.withInputs rest).command (commandEffect_of_exec hr ht)
  | engine i is _ hi _ _ _ ht => exact (hinv.withInputs is).engine (exec_engineEffect hi ht)
  | wait is _ _ _ ht => subst ht; exact (hinv.withInputs is).silent

/-- Every reachable state has the invariant (R30). -/
theorem Reachable.inv {s : State} (h : Reachable s) : s.Inv := by
  induction h with
  | reset => exact invariantHoldsAtReset
  | host is _ ih => exact ih.withInputs is
  | step _ hstep ih => exact stepKeepsTheInvariant _ _ ih hstep

/-! ### A busy engine and the transition graph -/

/-- What a busy engine accepts: `NOP`, `RDS`, and illegal words (R66). -/
theorem decodeCmd_of_ready_of_busy {s : State} {c : CmdWord} (hb : s.busy = true) (hr : s.ready c = true) :
    decodeCmd c = .nop ∨ decodeCmd c = .rds ∨ decodeCmd c = .illegal c := by
  rw [State.ready_iff, hb] at hr
  rw [decodeCmd_eq_iff, decodeCmd_eq_iff, decodeCmd_eq_illegal_iff, forall_commands_not_fits_iff]
  simp only [Spells, Pattern.nop_fits_iff, Pattern.rds_fits_iff]
  tauto

theorem sameButFaults_respond (s : State) (d : Word) : sameButFaults s (s.respond d) :=
  ⟨⟨rfl, rfl, rfl⟩, rfl, rfl, ⟨rfl, rfl, rfl, rfl, rfl⟩, rfl, rfl⟩

theorem sameButFaults_raiseFault (s : State) (k : Cause) (c : CmdWord) : sameButFaults s (s.raiseFault k c) :=
  ⟨⟨rfl, rfl, rfl⟩, rfl, rfl, ⟨rfl, rfl, rfl, rfl, rfl⟩, rfl, rfl⟩

/-- A command accepted while busy answers, or is an illegal word's fault (R66, R139). -/
theorem exec_of_ready_of_busy {s : State} {c : CmdWord} (hb : s.busy = true) (hr : s.ready c = true) :
    (∃ d, exec (decodeCmd c) s = .next (s.respond d)) ∨ exec (decodeCmd c) s = .next (s.raiseFault .illegal c) := by
  rw [exec_decodeCmd_of_ready hr]
  rcases decodeCmd_of_ready_of_busy hb hr with h | h | h <;> rw [h]
  · exact .inl ⟨0, rfl⟩
  · exact .inl ⟨s.status, rfl⟩
  · exact .inr rfl

/-- A command accepted while busy writes the fault registers and the response alone (R30 item 12). -/
theorem sameButFaults_of_busy {s t : State} {c : CmdWord} (hb : s.busy = true) (hr : s.ready c = true)
    (h : exec (decodeCmd c) s = .next t) : sameButFaults s t := by
  rcases exec_of_ready_of_busy hb hr with ⟨d, hd⟩ | hf
  · cases h.symm.trans hd; exact sameButFaults_respond s d
  · cases h.symm.trans hf; exact sameButFaults_raiseFault s _ c

/-- Settles O35. -/
theorem reachableStatesAreConsistent : Obligations.ReachableStatesAreConsistent := by
  unfold Obligations.ReachableStatesAreConsistent
  refine fun s hs => ⟨hs.inv.consistent, fun hb c t hr h => ?_⟩
  obtain ⟨hdata, hm, hp, hcounters, -⟩ := sameButFaults_of_busy hb hr h
  exact ⟨hdata, hm, hcounters, hp⟩

/-- The row of R116 of an accepted command. -/
theorem phaseEdge_of_command {s t : State} {i : Instr} {is : List Input} (hinv : s.Inv) (hi : nextIs s i)
    (heffect : CommandEffect i (s.withInputs is) t) : PhaseEdge s t := by
  cases heffect with
  | answers d hread ht =>
    subst ht
    refine .other i hi ?_ ⟨rfl, rfl⟩
    rcases hread with h | h | ⟨_, h⟩
    · exact .inl h
    · exact .inr (.inl h)
    · exact .inr (.inr h)
  | faults k c _ _ ht => subst ht; exact .fault ⟨i, hi⟩ ⟨_, rfl, rfl⟩ ⟨rfl, rfl⟩
  | opens h hopen ht =>
    subst ht
    refine .init (h ▸ hi) ?_ ⟨rfl, rfl⟩
    change opensSession s.phase = true at hopen
    cases hp : s.phase <;> simp_all [opensSession]
  | takes b h hp hroom ht =>
    subst ht
    change s.phase = .absorb at hp
    have ht := (hinv.consistent.absorb hp).1
    by_cases h63 : s.bi.toNat = 63
    · exact .dataFull b (h ▸ hi) hp h63 hroom ⟨if_pos h63, ht⟩
    · exact .data b (h ▸ hi) hp (by have := s.bi.isLt; omega) hroom ⟨(if_neg h63).trans hp, ht⟩
  | ends h hp ht =>
    subst ht
    exact .final (h ▸ hi) hp ⟨rfl, (hinv.consistent.absorb hp).1⟩

/-- The row of R116 of an engine step. -/
theorem phaseEdge_of_engine {s t : State} {i : Instr} {is : List Input} (hinv : s.Inv) (hi : nextIs s i)
    (heffect : EngineEffect (s.withInputs is) t i) : PhaseEdge s t := by
  cases heffect with
  | pad hp ht => subst ht; exact .pad hi hp ⟨rfl, (hinv.consistent.pad hp).1⟩
  | load hp ht => subst ht; exact .load hi hp ⟨rfl, rfl⟩
  | expand hp hlt ht => subst ht; exact .expand hi hp hlt ⟨hp, rfl⟩
  | expandLast hp hlt ht => subst ht; exact .expandLast hi hp hlt ⟨rfl, rfl⟩
  | round hp hlt ht => subst ht; exact .round hi hp hlt ⟨hp, rfl⟩
  | roundLast hp hlt ht => subst ht; exact .roundLast hi hp hlt ⟨rfl, rfl⟩
  | accum hp ht =>
    subst ht
    have h0 := (hinv.consistent.accum hp).1
    cases hmark : s.mark with
    | false => exact .accumMore hi hp hmark ⟨by simp [hmark], h0⟩
    | true =>
      cases hlw : s.lw with
      | false => exact .accumPad hi hp hmark hlw ⟨by simp [hmark, hlw], h0⟩
      | true => exact .accumDone hi hp hmark hlw ⟨by simp [hmark, hlw], h0⟩

/-- Settles O36: each kind of step has its row. -/
theorem everyTransitionIsInTheGraph : Obligations.EveryTransitionIsInTheGraph := by
  unfold Obligations.EveryTransitionIsInTheGraph
  intro s t hinv h
  cases step_kind h with
  | reset rest hin ht => subst ht; exact .reset ⟨rest, hin⟩ ⟨rfl, rfl⟩
  | command c rest _ hr hf ht => exact phaseEdge_of_command hinv hf (commandEffect_of_exec (s := s.withInputs rest) hr ht)
  | engine i is _ hi hf _ _ ht => exact phaseEdge_of_engine hinv hf (exec_engineEffect (s := s.withInputs is) hi ht)
  | wait is hb hf hin ht =>
    subst ht
    refine .wait hf ?_ hb ⟨rfl, rfl⟩
    rintro ⟨rest, hreset⟩
    rw [hreset] at hin
    rcases hin with ⟨rfl, hnil⟩ | hidle
    · cases hnil
    · cases hidle

end Sys2Proof.Machine
end

section
/-! SUPPORT. Frames: what a command (R140 to R148) and an engine step (R110 to R113, R144) leave as it was, which
transitions write which store (R10 to R13, R19), and what a response can depend on (R32). -/

namespace Sys2Proof.Machine

/-! ### Frames -/

/-- A command is held, or accepted with its effect. -/
theorem exec_decodeCmd_cases {s t : State} {c : CmdWord} (h : exec (decodeCmd c) s = .next t) :
    (s.ready c = false ∧ t = s.hold c) ∨ (s.ready c = true ∧ CommandEffect (decodeCmd c) s t) := by
  cases hr : s.ready c with
  | true => exact .inr ⟨rfl, commandEffect_of_exec hr h⟩
  | false =>
    rw [exec_decodeCmd, whenReady_of_not_ready hr] at h
    cases h
    exact .inl ⟨rfl, rfl⟩

/-- What no accepted command writes, and which command writes each of the other stores. -/
theorem CommandEffect.frame {s t : State} {i : Instr} (h : CommandEffect i s t) :
    t.v = s.v ∧ t.w = s.w ∧ t.inputs = s.inputs ∧ t.draws = s.draws ∧ (i ≠ .init → t.h = s.h) ∧
    ((∀ b, i ≠ .data b) → t.m = s.m) ∧ (i ≠ .init → (∀ b, i ≠ .data b) → t.len = s.len) := by
  cases h with
  | answers d _ ht => subst ht; exact ⟨rfl, rfl, rfl, rfl, fun _ => rfl, fun _ => rfl, fun _ _ => rfl⟩
  | faults k c _ _ ht => subst ht; exact ⟨rfl, rfl, rfl, rfl, fun _ => rfl, fun _ => rfl, fun _ _ => rfl⟩
  | opens hi _ ht => subst ht; exact ⟨rfl, rfl, rfl, rfl, absurd hi, fun _ => rfl, fun h => absurd hi h⟩
  | takes b hi _ _ ht =>
    subst ht; exact ⟨rfl, rfl, rfl, rfl, fun _ => rfl, fun h => absurd hi (h b), fun _ h => absurd hi (h b)⟩
  | ends _ _ ht => subst ht; exact ⟨rfl, rfl, rfl, rfl, fun _ => rfl, fun _ => rfl, fun _ _ => rfl⟩

/-- Settles O29: the effects of the commands that drive no session are answers and faults. -/
theorem frameOfReadingCommands : Obligations.FrameOfReadingCommands := by
  unfold Obligations.FrameOfReadingCommands
  intro s t c hdata hinit hfinal h
  rcases exec_decodeCmd_cases h with ⟨hr, ht⟩ | ⟨hr, heffect⟩
  · subst ht
    exact ⟨⟨rfl, rfl, rfl⟩, rfl, rfl, ⟨rfl, rfl, rfl, rfl, rfl⟩, rfl,
      fun h => absurd (hr.symm.trans h) Bool.false_ne_true, fun _ => ⟨rfl, rfl⟩, fun _ => ⟨rfl, rfl, rfl, rfl⟩⟩
  · have hheld {p : Prop} (h : s.ready c = false) : p := absurd (h.symm.trans hr) Bool.false_ne_true
    cases heffect with
    | answers d _ ht =>
      subst ht
      exact ⟨⟨rfl, rfl, rfl⟩, rfl, rfl, ⟨rfl, rfl, rfl, rfl, rfl⟩, rfl, fun _ => rfl, hheld,
        fun _ => ⟨rfl, rfl, rfl, rfl⟩⟩
    | faults k w _ _ ht =>
      subst ht
      exact ⟨⟨rfl, rfl, rfl⟩, rfl, rfl, ⟨rfl, rfl, rfl, rfl, rfl⟩, rfl, fun _ => rfl, hheld, fun hno => nomatch hno _ rfl⟩
    | opens hi => exact absurd hi hinit
    | takes b hi => exact absurd hi (hdata b)
    | ends hi => exact absurd hi hfinal

/-- `INIT`'s frame. -/
theorem frame_init {s t : State} (h : exec .init s = .next t) :
    t.v = s.v ∧ t.w = s.w ∧ t.m = s.m ∧ t.draws = s.draws ∧
    (s.busy = true → t.h = s.h ∧ t.phase = s.phase ∧ sameCounters s t ∧ sameFaults s t) := by
  rw [← decodeCmd_initWord] at h
  rcases exec_decodeCmd_cases h with ⟨hr, ht⟩ | ⟨hr, heffect⟩
  · subst ht
    exact ⟨rfl, rfl, rfl, rfl, fun _ => ⟨rfl, rfl, ⟨rfl, rfl, rfl, rfl, rfl⟩, rfl, rfl, rfl, rfl⟩⟩
  · obtain ⟨hv, hw, -, hdraws, -, hm, -⟩ := heffect.frame
    refine ⟨hv, hw, hm (by rw [decodeCmd_initWord]; nofun), hdraws, fun hb => ?_⟩
    have hready : s.ready initWord = !s.busy := s.ready_commandWord (op := 1) (by decide) (by decide) 0
    rw [hr, hb] at hready; cases hready

/-- `DATA`'s frame. -/
theorem frame_data {s t : State} {b : Byte} (hm : s.m.wf = true) (h : exec (.data b) s = .next t) :
    sameDatapath s t ∧ t.t = s.t ∧ t.mark = s.mark ∧ t.lw = s.lw ∧ t.draws = s.draws ∧
    (∀ a : Index, a ≠ s.bi → t.readM a = s.readM a) ∧
    (s.phase ≠ .absorb ∨ s.len.toNat = Config.maxMsgBytes →
      sameMemory s t ∧ t.phase = s.phase ∧ t.bi = s.bi ∧ t.len = s.len) ∧
    ((∀ r, t.rsp = some r → r.err = false) → sameFaults s t) := by
  rw [← decodeCmd_dataWord] at h
  rcases exec_decodeCmd_cases h with ⟨-, ht⟩ | ⟨-, heffect⟩
  · subst ht
    exact ⟨⟨rfl, rfl, rfl⟩, rfl, rfl, rfl, rfl, fun _ _ => rfl, fun _ => ⟨fun _ => rfl, rfl, rfl, rfl⟩,
      fun _ => ⟨rfl, rfl, rfl, rfl⟩⟩
  · rw [decodeCmd_dataWord] at heffect
    cases heffect with
    | answers d hread _ => simp at hread
    | opens hi => cases hi
    | ends hi => cases hi
    | faults k w _ _ ht =>
      subst ht
      exact ⟨⟨rfl, rfl, rfl⟩, rfl, rfl, rfl, rfl, fun _ _ => rfl, fun _ => ⟨fun _ => rfl, rfl, rfl, rfl⟩,
        fun hno => nomatch hno _ rfl⟩
    | takes b' hi hp hroom ht =>
      subst ht; cases hi
      refine ⟨⟨rfl, rfl, rfl⟩, rfl, rfl, rfl, rfl, fun a ha => (Memory.read_write hm _ _ _).trans (if_neg ha), ?_,
        fun _ => ⟨rfl, rfl, rfl, rfl⟩⟩
      rintro (hne | hfull)
      · exact absurd hp hne
      · exact absurd hfull hroom.ne

/-- `FINAL`'s frame. -/
theorem frame_final {s t : State} (h : exec .final s = .next t) :
    sameDatapath s t ∧ t.m = s.m ∧ sameCounters s t ∧ t.draws = s.draws ∧
    (s.phase ≠ .absorb → t.phase = s.phase) ∧
    ((∀ r, t.rsp = some r → r.err = false) → sameFaults s t) := by
  rw [← decodeCmd_finalWord] at h
  rcases exec_decodeCmd_cases h with ⟨-, ht⟩ | ⟨-, heffect⟩
  · subst ht
    exact ⟨⟨rfl, rfl, rfl⟩, rfl, ⟨rfl, rfl, rfl, rfl, rfl⟩, rfl, fun _ => rfl, fun _ => ⟨rfl, rfl, rfl, rfl⟩⟩
  · rw [decodeCmd_finalWord] at heffect
    cases heffect with
    | answers d hread _ => simp at hread
    | opens hi => cases hi
    | takes b hi => cases hi
    | faults k w _ _ ht =>
      subst ht
      exact ⟨⟨rfl, rfl, rfl⟩, rfl, ⟨rfl, rfl, rfl, rfl, rfl⟩, rfl, fun _ => rfl, fun hno => nomatch hno _ rfl⟩
    | ends _ hp ht =>
      subst ht
      exact ⟨⟨rfl, rfl, rfl⟩, rfl, ⟨rfl, rfl, rfl, rfl, rfl⟩, rfl, absurd hp, fun _ => ⟨rfl, rfl, rfl, rfl⟩⟩

/-- Settles O30. -/
theorem frameOfSessionCommands : Obligations.FrameOfSessionCommands := by
  unfold Obligations.FrameOfSessionCommands
  exact ⟨fun _ _ => frame_init, fun _ _ _ => frame_data, fun _ _ => frame_final⟩

/-- Settles O31, step by step. -/
theorem frameOfEngineSteps : Obligations.FrameOfEngineSteps := by
  unfold Obligations.FrameOfEngineSteps
  intro s t i hi h
  cases i with
  | pad | load | expand | round | accum =>
    cases h
    refine ⟨⟨rfl, rfl, rfl, rfl⟩, ⟨rfl, rfl⟩, rfl, rfl, ?_, ?_, ?_, ?_, ?_⟩ <;> simp
  | nop | init | data | final | rdw | rdb | rdx | rds | illegal => cases hi

/-- Settles O32: a transition that is not named leaves the store, by the frames of the commands and of the steps. -/
theorem onlyTheseTransitionsWriteTheStores : Obligations.OnlyTheseTransitionsWriteTheStores := by
  unfold Obligations.OnlyTheseTransitionsWriteTheStores
  intro s t h
  cases step_kind h with
  | reset rest hin _ =>
    have hreset : nextIsReset s := ⟨rest, hin⟩
    simp [hreset]
  | wait is _ _ _ ht => subst ht; simp
  | command c rest _ hr hf ht =>
    obtain ⟨hv, hw, -, -, hh, hm, hlen⟩ := (commandEffect_of_exec (s := s.withInputs rest) hr ht).frame
    have hi : ∀ {i}, decodeCmd c = i → nextIs s i := by rintro _ rfl; exact hf
    refine ⟨fun hne => .inl ?_, fun hne => absurd hv hne, fun hne => absurd hw hne, fun hne => .inl ?_, fun hne => ?_⟩
    · by_contra hno
      exact hne (hh fun heq => hno (hi heq))
    · by_contra hno
      exact hne (hm fun b heq => hno ⟨b, hi heq⟩)
    · by_contra hno
      exact hne (hlen (fun heq => hno (.inl (hi heq))) fun b heq => hno (.inr (.inl ⟨b, hi heq⟩)))
  | engine i is _ hsel hf _ _ ht =>
    obtain ⟨-, -, hlen, -, hm, hh, hv, hw, -⟩ :=
      frameOfEngineSteps (s.withInputs is) t i (isStep_of_stepSelected hsel) ht
    have hi : ∀ {j}, i = j → nextIs s j := by rintro _ rfl; exact hf
    refine ⟨fun hne => .inr (.inl ?_), fun hne => ?_, fun hne => ?_, fun hne => .inr (.inl ?_), fun hne => absurd hlen hne⟩
    · by_contra hno
      exact hne (hh fun heq => hno (hi heq))
    · by_contra hno
      exact hne (hv (fun heq => hno (.inl (hi heq))) fun heq => hno (.inr (.inl (hi heq))))
    · by_contra hno
      exact hne (hw (fun heq => hno (.inl (hi heq))) fun heq => hno (.inr (.inl (hi heq))))
    · by_contra hno
      exact hne (hm fun heq => hno (hi heq)).1

/-! ### What a response depends on -/

theorem State.status_congr {s s' : State} (hp : s'.phase = s.phase) (hf : sameFaults s s') : s'.status = s.status := by
  obtain ⟨herr, hecause, hecmd, hovf⟩ := hf
  simp only [State.status, State.busy, State.done, hp, herr, hecause, hecmd, hovf]

theorem sameFaults_raiseFault {s s' : State} (h : sameFaults s s') (k : Cause) (c : CmdWord) :
    sameFaults (s.raiseFault k c) (s'.raiseFault k c) := by
  obtain ⟨herr, hecause, hecmd, hovf⟩ := h
  simp [sameFaults, herr, hecause, hecmd, hovf]

/-- Two states alike in what R32 lists answer a ready command alike and record the same fault. -/
theorem performed_alike {s s' : State} {i : Instr} (hp : s'.phase = s.phase) (hf : sameFaults s s')
    (hlen : s'.len = s.len) (hh : s.phase = .done → s'.h = s.h) (hi : isStep i = false) (c : CmdWord) :
    (performed s' c i).rsp = (performed s c i).rsp ∧ sameFaults (performed s c i) (performed s' c i) := by
  rw [performed, performed, faultOf_congr hp hlen]
  cases hfault : faultOf s i with
  | some k => exact ⟨rfl, sameFaults_raiseFault hf k c⟩
  | none =>
    have digest (hread : (∃ k, i = .rdw k) ∨ (∃ k, i = .rdb k) ∨ (∃ k, i = .rdx k)) : s'.h = s.h := by
      refine hh (by_contra fun hne => ?_)
      have hphase : faultsWith i s .phase := .inr (.inr ⟨hread, showsDigest_eq_false_iff.2 hne⟩)
      cases hfault.symm.trans (faultOf_eq_some_iff.2 hphase)
    cases i with
    | nop | data | final => exact ⟨rfl, hf⟩
    | init => exact ⟨rfl, rfl, rfl, rfl, rfl⟩
    | rds => exact ⟨by simp [effectOf, State.status_congr hp hf], hf⟩
    | rdw k => exact ⟨by simp [effectOf, digest (.inl ⟨k, rfl⟩)], hf⟩
    | rdb k => exact ⟨by simp [effectOf, digest (.inr (.inl ⟨k, rfl⟩))], hf⟩
    | rdx k => exact ⟨by simp [effectOf, digest (.inr (.inr ⟨k, rfl⟩))], hf⟩
    | illegal w => cases hfault
    | pad | load | expand | round | accum => cases hi

/-- Settles O48: both states accept the word or both hold it. -/
theorem responsesShowNoWorkingState : Obligations.ResponsesShowNoWorkingState := by
  unfold Obligations.ResponsesShowNoWorkingState
  intro s s' t t' c hp hf hlen hh h h'
  have hready := State.ready_congr hp c
  cases hr : s.ready c with
  | true =>
    rw [exec_decodeCmd_of_ready hr] at h
    rw [exec_decodeCmd_of_ready (hready.trans hr)] at h'
    cases h; cases h'
    exact performed_alike hp hf hlen hh (not_isStep_decodeCmd c) c
  | false =>
    rw [exec_decodeCmd, whenReady_of_not_ready hr] at h
    rw [exec_decodeCmd, whenReady_of_not_ready (hready.trans hr)] at h'
    cases h; cases h'
    exact ⟨rfl, hf⟩

end Sys2Proof.Machine
end

section
/-! SUPPORT. Orders and instances: a busy engine's command and step commute (R163), an edge of the clock binding is a run
(R188), instances are independent (R51, R169), and the digest stays (R191). -/

namespace Sys2Proof.Machine

/-! ### Commands and steps commute -/

/-- A word that a busy engine accepts does the same in every state: it answers, or it is an illegal word's fault. -/
theorem exec_of_accepted_while_busy {s : State} {c : CmdWord} (hb : s.busy = true) (hr : s.ready c = true) :
    (∀ u : State, ∃ d, exec (decodeCmd c) u = .next (u.respond d)) ∨
    (∀ u : State, exec (decodeCmd c) u = .next (u.raiseFault .illegal c)) := by
  have hready (u : State) : u.ready c = true := by
    rw [State.ready_iff] at hr ⊢
    rcases hr with h | h | h
    · exact .inl h
    · exact .inr (.inl h)
    · cases hb.symm.trans h
  rcases decodeCmd_of_ready_of_busy hb hr with h | h | h
  · exact .inl fun u => ⟨0, by rw [exec_decodeCmd_of_ready (hready u), h]; rfl⟩
  · exact .inl fun u => ⟨u.status, by rw [exec_decodeCmd_of_ready (hready u), h]; rfl⟩
  · exact .inr fun u => by rw [exec_decodeCmd_of_ready (hready u), h]; rfl

/-- An engine step neither reads nor writes the response or the fault registers. -/
theorem exec_engineStep_respond {i : Instr} (hi : isStep i = true) {s b t : State} {d : Word}
    (hb : exec i s = .next b) (ht : exec i (s.respond d) = .next t) (d' : Word) : sameButResponse t (b.respond d') := by
  cases i with
  | pad | load | expand | round | accum =>
    cases hb; cases ht
    exact ⟨⟨⟨rfl, rfl, rfl⟩, rfl, rfl, ⟨rfl, rfl, rfl, rfl, rfl⟩, rfl, rfl⟩, rfl, rfl, rfl, rfl⟩
  | nop | init | data | final | rdw | rdb | rdx | rds | illegal => cases hi

theorem exec_engineStep_raiseFault {i : Instr} (hi : isStep i = true) {s b t : State} {k : Cause} {c : CmdWord}
    (hb : exec i s = .next b) (ht : exec i (s.raiseFault k c) = .next t) : sameButResponse t (b.raiseFault k c) := by
  cases i with
  | pad | load | expand | round | accum =>
    cases hb; cases ht
    exact ⟨⟨⟨rfl, rfl, rfl⟩, rfl, rfl, ⟨rfl, rfl, rfl, rfl, rfl⟩, rfl, rfl⟩, rfl, rfl, rfl, rfl⟩
  | nop | init | data | final | rdw | rdb | rdx | rds | illegal => cases hi

/-- Settles O39: what a busy engine accepts touches the response and the fault registers alone, a step neither. -/
theorem busyCommandsAndStepsCommute : Obligations.BusyCommandsAndStepsCommute := by
  unfold Obligations.BusyCommandsAndStepsCommute
  intro s a b t u c i hb hr hi ha ht hstep hu
  have hstep' := isStep_of_stepSelected (stepSelected_eq_some_iff.2 hi)
  rcases exec_of_accepted_while_busy hb hr with hanswer | hfault
  · obtain ⟨d, hd⟩ := hanswer s
    obtain ⟨d', hd'⟩ := hanswer b
    cases ha.symm.trans hd; cases hu.symm.trans hd'
    exact exec_engineStep_respond hstep' hstep ht d'
  · cases ha.symm.trans (hfault s); cases hu.symm.trans (hfault b)
    exact exec_engineStep_raiseFault hstep' hstep ht

/-! ### The clock binding -/

/-- An accepted command neither reads nor writes the host's inputs. -/
theorem exec_decodeCmd_withInputs {s t : State} {c : CmdWord} (hr : s.ready c = true)
    (h : exec (decodeCmd c) s = .next t) (is : List Input) :
    exec (decodeCmd c) (s.withInputs is) = .next (t.withInputs is) := by
  have hi := not_isStep_decodeCmd c
  rw [exec_decodeCmd_of_ready hr] at h
  rw [exec_decodeCmd_of_ready (s := s.withInputs is) hr]
  cases h
  rw [performed, performed, faultOf_congr (s := s) (s' := s.withInputs is) rfl rfl]
  cases faultOf s (decodeCmd c) with
  | some k => rfl
  | none =>
    cases hd : decodeCmd c with
    | nop | init | data | final | rdw | rdb | rdx | rds | illegal => rfl
    | pad | load | expand | round | accum => rw [hd] at hi; cases hi

/-- The state with another response. -/
def State.withRsp (s : State) (r : Option Response) : State := { s with rsp := r }

/-- Nor does an engine step, which does not read the response either. -/
theorem exec_engineStep_withInputs {i : Instr} (hi : isStep i = true) {s t : State} (h : exec i s = .next t)
    (r : Option Response) (is : List Input) : exec i ((s.withRsp r).withInputs is) = .next (t.withInputs is) := by
  cases i with
  | pad | load | expand | round | accum => cases h; rfl
  | nop | init | data | final | rdw | rdb | rdx | rds | illegal => cases hi

/-- A busy engine that is left a turn takes the step that `PHASE` selects. -/
theorem step_idle_of_busy {s : State} (hb : s.busy = true) :
    ∃ t, engineStep s = .next t ∧ ∀ r, step ((s.withRsp r).withInputs [.idle]) = .next (t.withInputs []) := by
  obtain ⟨i, hi⟩ := stepSelected_of_busy hb
  have hstep := isStep_of_stepSelected hi
  obtain ⟨t, ht, -⟩ := exec_engineStep hstep s
  refine ⟨t, (engineStep_of_selected hi).trans ht, fun r => ?_⟩
  rw [step_idle (rest := []) rfl]
  exact (engineStep_of_selected (s := (s.withRsp r).withInputs []) hi).trans (exec_engineStep_withInputs hstep ht r [])

theorem sameButResponse_withRsp (s : State) (r r' : Option Response) : sameButResponse (s.withRsp r) (s.withRsp r') :=
  ⟨⟨⟨rfl, rfl, rfl⟩, rfl, rfl, ⟨rfl, rfl, rfl, rfl, rfl⟩, rfl, rfl⟩, rfl, rfl, rfl, rfl⟩

theorem sameButResponse_refl (s : State) : sameButResponse s s := sameButResponse_withRsp s s.rsp s.rsp

/-- The inputs of the second half of an edge: a turn, if the engine was busy (R188). -/
def turnOf (wasBusy : Bool) : List Input := if wasBusy then [.idle] else []

/-- The second half of an edge is a turn left to a busy engine, and nothing otherwise; the response stays (R188). -/
theorem stepHalf_run {wasBusy : Bool} {a : State} (hb : wasBusy = true → a.busy = true) :
    ∃ t, stepHalf wasBusy a = .next t ∧ t.rsp = a.rsp ∧
      ∀ r, ∃ u, runsTo (turnOf wasBusy).length ((a.withRsp r).withInputs (turnOf wasBusy)) u ∧ u.inputs = [] ∧
        sameButResponse u (t.withInputs []) := by
  cases wasBusy with
  | false =>
    exact ⟨a, rfl, rfl, fun r => ⟨_, runsTo_zero.2 rfl, rfl, sameButResponse_withRsp (a.withInputs []) r a.rsp⟩⟩
  | true =>
    obtain ⟨t, ht, hrun⟩ := step_idle_of_busy (hb rfl)
    refine ⟨t.withRsp a.rsp, ?_, rfl, fun r => ⟨_, runsTo_succ.2 ⟨_, hrun r, runsTo_zero.2 rfl⟩, rfl,
      sameButResponse_withRsp (t.withInputs []) t.rsp a.rsp⟩⟩
    rw [stepHalf, if_pos rfl, ht]; rfl

/-- A busy engine is as busy after it has accepted a command (R30 item 12). -/
theorem busy_of_accepted {s a : State} {c : CmdWord} (hr : s.ready c = true) (h : exec (decodeCmd c) s = .next a)
    (hb : s.busy = true) : a.busy = true := by
  obtain ⟨-, -, hp, -⟩ := sameButFaults_of_busy hb hr h
  rwa [State.busy, hp]

/-- The Reset event does not read the host's inputs (R180). -/
theorem step_reset_alone (s : State) : step (s.withInputs [.reset]) = .next (s.resetEvent.withInputs []) := by
  rw [step_reset (rest := []) rfl]
  simp only [State.resetEvent, State.withInputs]

/-- Settles O40: the first half of an edge is the accepted command's step or no step, the second is `stepHalf_run`. -/
theorem clockEdgeIsAnAdmissibleSchedule : Obligations.ClockEdgeIsAnAdmissibleSchedule := by
  unfold Obligations.ClockEdgeIsAnAdmissibleSchedule
  intro p s
  cases hrst : p.rst with
  | true =>
    have hno : p.accepts s = false := by rw [PinsIn.accepts, hrst]; rfl
    refine ⟨s.resetEvent, s.resetEvent.withInputs [], _, ?_, rfl, runsTo_succ.2 ⟨_, step_reset_alone s, runsTo_zero.2 rfl⟩,
      rfl, sameButResponse_refl _, fun h => ?_, fun _ => rfl⟩
    · rw [clockEdge, if_pos hrst]
    · cases hno.symm.trans h
  | false =>
    have hedge : ∀ a, commandHalf p s = .next a → clockEdge p s = stepHalf s.busy a := by
      intro a ha
      rw [clockEdge, if_neg (by rw [hrst]; exact Bool.false_ne_true), ha]
    cases hacc : p.accepts s with
    | true =>
      have hr : s.ready p.cmd = true := by
        rw [PinsIn.accepts, Bool.and_eq_true] at hacc
        exact hacc.2
      obtain ⟨a, ha⟩ := exec_total (decodeCmd p.cmd) s
      obtain ⟨t, ht, hrsp, hrun⟩ := stepHalf_run (busy_of_accepted hr ha)
      obtain ⟨u, hu, hinputs, hsame⟩ := hrun a.rsp
      have hfirst : step (s.withInputs (.present p.cmd :: turnOf s.busy)) = .next (a.withInputs (turnOf s.busy)) :=
        (step_ready (s := s.withInputs _) rfl hr).trans (exec_decodeCmd_withInputs hr ha _)
      refine ⟨t, u, _, ?_, rfl, runsTo_succ.2 ⟨_, hfirst, hu⟩, hinputs, hsame, fun _ a' ha' => ?_, nofun⟩
      · rw [hedge a (by rw [commandHalf, if_pos hacc, ha]), ht]
      · cases ha.symm.trans ha'
        exact hrsp
    | false =>
      obtain ⟨t, ht, hrsp, hrun⟩ := stepHalf_run (wasBusy := s.busy) (a := s.silent) id
      obtain ⟨u, hu, hinputs, hsame⟩ := hrun s.rsp
      refine ⟨t, u, _, ?_, rfl, hu, hinputs, hsame, nofun, fun _ => hrsp⟩
      rw [hedge s.silent (by rw [commandHalf, if_neg (by rw [hacc]; exact Bool.false_ne_true)]), ht]

/-! ### Instances -/

theorem Platform.move_eq {n : Nat} {p : Platform n} {i : Fin n} {t : State} (h : step p[i] = .next t) :
    p.move i = .next (p.set i.val t i.isLt) := by
  rw [Platform.move, h]

/-- A move of one engine of the platform leaves every other (R51). -/
theorem Platform.getElem_set_of_ne {n : Nat} (p : Platform n) {i k : Fin n} (h : k ≠ i) (t : State) :
    (p.set i.val t i.isLt)[k] = p[k] :=
  Vector.getElem_set_ne i.isLt k.isLt fun heq => h (Fin.ext heq.symm)

/-- Settles O41: each move is a step of its own engine, and sets of two components commute. -/
theorem instancesAreIndependent : Obligations.InstancesAreIndependent := by
  unfold Obligations.InstancesAreIndependent
  intro n p i j hij
  obtain ⟨ti, hti⟩ := step_total p[i]
  obtain ⟨tj, htj⟩ := step_total p[j]
  refine ⟨_, _, _, Platform.move_eq hti, Platform.move_eq htj, Platform.move_eq (t := tj) ?_, ?_,
    fun k hk => p.getElem_set_of_ne hk ti, ?_⟩
  · rw [Platform.getElem_set_of_ne p hij.symm, htj]
  · rw [Platform.move_eq (t := ti) (by rw [Platform.getElem_set_of_ne p hij, hti])]
    rw [Vector.set_comm _ _ (fun heq => hij (Fin.ext heq.symm))]
  · rw [hti]
    exact congrArg _ (Vector.getElem_set_self i.isLt).symm

/-! ### Runs -/

/-- What every step keeps, every run keeps. -/
theorem runsTo_preserves {P : State → Prop} (hP : ∀ s t, P s → step s = .next t → P t) {n : Nat} {s t : State}
    (h : P s) (hrun : runsTo n s t) : P t := by
  induction n generalizing s with
  | zero => rw [runsTo_zero] at hrun; exact hrun ▸ h
  | succ n ih =>
    obtain ⟨u, hu, hrest⟩ := runsTo_succ.1 hrun
    exact ih (hP s u h hu) hrest

/-- A step takes inputs from the head, or none (R47). -/
theorem inputs_suffix_of_step {s t : State} (h : step s = .next t) : t.inputs <:+ s.inputs := by
  cases step_kind h with
  | reset rest hin ht => subst ht; rw [hin]; exact List.suffix_cons _ _
  | command c rest hin hr _ ht =>
    obtain ⟨-, -, hinputs, -⟩ := (commandEffect_of_exec (s := s.withInputs rest) hr ht).frame
    rw [hinputs, hin]; exact List.suffix_cons _ _
  | engine i is _ hsel _ hin _ ht =>
    obtain ⟨-, ⟨hinputs, -⟩, -⟩ := frameOfEngineSteps (s.withInputs is) t i (isStep_of_stepSelected hsel) ht
    rw [hinputs]
    rcases hin with hin | hin <;> rw [hin]
    · exact List.suffix_rfl
    · exact List.suffix_cons _ _
  | wait is _ _ hin ht =>
    subst ht
    rcases hin with ⟨hin, -⟩ | hin <;> rw [hin]
    · exact List.suffix_rfl
    · exact List.suffix_cons _ _

/-- The host never asserts reset: a step leaves it so. -/
theorem noReset_of_step {s t : State} (h : step s = .next t) (hs : noReset s.inputs) : noReset t.inputs :=
  fun i hi => hs i ((inputs_suffix_of_step h).subset hi)

/-- A word that decodes to `INIT` is `INIT`'s (R64). -/
theorem eq_initWord_of_decodeCmd {c : CmdWord} (h : decodeCmd c = .init) : c = initWord := by
  have hc := encode_decodeCmd c
  rw [h] at hc
  cases hc; rfl

/-- In `DONE` every step but `INIT` and reset leaves the phase and `H` (R191). -/
theorem done_of_step {s t : State} (h : step s = .next t) (hp : s.phase = .done) (hreset : noReset s.inputs)
    (hinit : Input.present initWord ∉ s.inputs) : t.phase = .done ∧ t.h = s.h := by
  have hb : s.busy = false := by rw [State.busy, hp]; rfl
  cases step_kind h with
  | reset rest hin _ => exact absurd rfl (hreset .reset (by rw [hin]; exact List.mem_cons_self))
  | engine i is hbusy => cases hb.symm.trans hbusy
  | wait is _ _ _ ht => subst ht; exact ⟨hp, rfl⟩
  | command c rest hin hr _ ht =>
    cases commandEffect_of_exec (s := s.withInputs rest) hr ht with
    | answers d _ ht => subst ht; exact ⟨hp, rfl⟩
    | faults k w _ _ ht => subst ht; exact ⟨hp, rfl⟩
    | opens hi =>
      rw [hin, eq_initWord_of_decodeCmd hi] at hinit
      exact absurd List.mem_cons_self hinit
    | takes b _ habsorb => cases hp.symm.trans habsorb
    | ends _ habsorb => cases hp.symm.trans habsorb

/-- Settles O38: `done_of_step` along the run, and a digest read in `DONE` answers from `H`. -/
theorem digestStaysUntilInitOrReset : Obligations.DigestStaysUntilInitOrReset := by
  unfold Obligations.DigestStaysUntilInitOrReset
  intro n s t hp hreset hinit hrun
  obtain ⟨hp', hh, -, -⟩ := runsTo_preserves
    (P := fun u => u.phase = .done ∧ u.h = s.h ∧ noReset u.inputs ∧ Input.present initWord ∉ u.inputs)
    (fun u v ⟨hpu, hhu, hru, hiu⟩ huv =>
      have ⟨hpv, hhv⟩ := done_of_step huv hpu hru hiu
      ⟨hpv, hhv.trans hhu, noReset_of_step huv hru, fun hmem => hiu ((inputs_suffix_of_step huv).subset hmem)⟩)
    ⟨hp, rfl, hreset, hinit⟩ hrun
  exact ⟨hp', hh, fun i => hh ▸ readDigest_of_done hp' _ _, fun i => hh ▸ readDigest_of_done hp' _ _,
    fun i => hh ▸ readDigest_of_done hp' _ _⟩

end Sys2Proof.Machine
end

section
/-! SUPPORT. Two engines in the same phase with like inputs take like steps (R47), and what follows: nothing depends on
the fault registers (R21, R164), timing depends on the length alone (R190), and sessions do not leak (R154). -/

namespace Sys2Proof.Machine

/-! ### Lockstep -/

/-- Two steps of one kind, on inputs that `ρ` relates. -/
inductive Lockstep (ρ : Input → Input → Prop) (s s' t t' : State) : Prop
  | reset (rest rest' : List Input) : List.Forall₂ ρ rest rest' → nextIsReset s →
      t = (s.withInputs rest).resetEvent → t' = (s'.withInputs rest').resetEvent → Lockstep ρ s s' t t'
  | command (c c' : CmdWord) (rest rest' : List Input) : List.Forall₂ ρ rest rest' → ρ (.present c) (.present c') →
      s.ready c = true → s'.ready c' = true → nextIs s (decodeCmd c) → nextIs s' (decodeCmd c') →
      exec (decodeCmd c) (s.withInputs rest) = .next t → exec (decodeCmd c') (s'.withInputs rest') = .next t' →
      Lockstep ρ s s' t t'
  | engine (i : Instr) (is is' : List Input) : List.Forall₂ ρ is is' → stepSelected s.phase = some i →
      nextIs s i → nextIs s' i → exec i (s.withInputs is) = .next t → exec i (s'.withInputs is') = .next t' →
      Lockstep ρ s s' t t'
  | wait (is is' : List Input) : List.Forall₂ ρ is is' → (fetch s).1 = none → (fetch s').1 = none →
      t = (s.withInputs is).silent → t' = (s'.withInputs is').silent → Lockstep ρ s s' t t'

/-- Words of one shape are ready alike (R66). -/
theorem ready_of_sameShape {s s' : State} {c c' : CmdWord} (hp : s'.phase = s.phase)
    (h : Input.sameShape (.present c) (.present c')) : s'.ready c' = s.ready c := by
  rcases h with h | ⟨a, b, ha, hb⟩
  · cases h; exact State.ready_congr hp c
  · cases ha; cases hb
    rw [dataWord, dataWord, State.ready_commandWord _ (by decide) (by decide),
      State.ready_commandWord _ (by decide) (by decide), State.busy, State.busy, hp]

/-- An input of the shape of a reset or of an idle turn is one. -/
theorem Input.sameShape_left {i j : Input} (h : i.sameShape j) (hi : ∀ c, i ≠ .present c) : j = i := by
  rcases h with h | ⟨a, b, ha, -⟩
  · exact h.symm
  · exact absurd ha (hi _)

/-- An input of the shape of a word is a word. -/
theorem Input.sameShape_present {c : CmdWord} {j : Input} (h : Input.sameShape (.present c) j) : ∃ c', j = .present c' := by
  rcases h with h | ⟨a, b, -, hb⟩
  · exact ⟨c, h.symm⟩
  · exact ⟨_, hb⟩

section
variable {ρ : Input → Input → Prop} (hρ : ∀ i j, ρ i j → i.sameShape j) {s s' t t' : State}
  (hp : s'.phase = s.phase)
include hp

/-- Two turns of the engine in one phase are of one kind. -/
theorem lockstep_of_turns {is is' : List Input} (his : List.Forall₂ ρ is is')
    (hf : fetch s = engineTurn (s.withInputs is)) (hf' : fetch s' = engineTurn (s'.withInputs is'))
    (h : step s = .next t) (h' : step s' = .next t') : Lockstep ρ s s' t t' := by
  rw [step_of_fetch_eq_engineTurn hf] at h
  rw [step_of_fetch_eq_engineTurn hf'] at h'
  have hfst : (fetch s).1 = stepSelected s.phase := by rw [hf, fst_engineTurn]; rfl
  have hfst' : (fetch s').1 = stepSelected s.phase := by rw [hf', fst_engineTurn, State.withInputs_phase, hp]
  cases hsel : stepSelected s.phase with
  | some i =>
    rw [engineStep_of_selected (s := s.withInputs is) hsel] at h
    rw [engineStep_of_selected (s := s'.withInputs is') (hp ▸ hsel)] at h'
    exact .engine i is is' his hsel (hfst.trans hsel) (hfst'.trans hsel) h h'
  | none =>
    rw [engineStep_of_none (s := s.withInputs is) hsel] at h
    rw [engineStep_of_none (s := s'.withInputs is') (hp ▸ hsel)] at h'
    cases h; cases h'
    exact .wait is is' his (hfst.trans hsel) (hfst'.trans hsel) rfl rfl

include hρ

/-- The inversion lemma of two steps. -/
theorem step_lockstep (hin : List.Forall₂ ρ s.inputs s'.inputs) (h : step s = .next t) (h' : step s' = .next t') :
    Lockstep ρ s s' t t' := by
  have turns (hf : fetch s = engineTurn s) (hf' : fetch s' = engineTurn s') : Lockstep ρ s s' t t' :=
    lockstep_of_turns hp hin hf hf' h h'
  cases hi : s.inputs with
  | nil =>
    rw [hi, List.forall₂_nil_left_iff] at hin
    exact turns (fetch_nil hi) (fetch_nil hin)
  | cons i rest =>
    rw [hi, List.forall₂_cons_left_iff] at hin
    obtain ⟨j, rest', hij, hrest, hj⟩ := hin
    cases i with
    | idle =>
      rw [Input.sameShape_left (hρ _ _ hij) nofun] at hj
      exact lockstep_of_turns hp hrest (fetch_idle hi) (fetch_idle hj) h h'
    | reset =>
      rw [Input.sameShape_left (hρ _ _ hij) nofun] at hj
      rw [step_reset hi] at h
      rw [step_reset hj] at h'
      cases h; cases h'
      exact .reset rest rest' hrest ⟨rest, hi⟩ rfl rfl
    | present c =>
      obtain ⟨c', rfl⟩ := Input.sameShape_present (hρ _ _ hij)
      have hready := ready_of_sameShape hp (hρ _ _ hij)
      cases hr : s.ready c with
      | true =>
        rw [hr] at hready
        rw [step_ready hi hr] at h
        rw [step_ready hj hready] at h'
        exact .command c c' rest rest' hrest hij hr hready (by rw [nextIs, fetch_ready hi hr])
          (by rw [nextIs, fetch_ready hj hready]) h h'
      | false => exact turns (fetch_held hi hr) (fetch_held hj (hready.trans hr))

end

/-- The same inputs are like inputs. -/
theorem forall₂_eq {is is' : List Input} (h : is' = is) : List.Forall₂ (· = ·) is is' :=
  List.forall₂_eq_eq_eq ▸ h.symm

theorem eq_of_forall₂_eq {is is' : List Input} (h : List.Forall₂ (· = ·) is is') : is' = is := by
  rw [List.forall₂_eq_eq_eq] at h
  exact h.symm

theorem sameShape_of_eq (i j : Input) (h : i = j) : i.sameShape j := .inl h

theorem performed_inputs (s : State) (c : CmdWord) (i : Instr) : (performed s c i).inputs = s.inputs := by
  rcases performed_cases s c i with ⟨k, -, h⟩ | ⟨-, h⟩ <;> rw [h]
  · rfl
  · cases i <;> rfl

/-! ### The fault registers influence nothing -/

/-- The state with other fault registers and another response. -/
def State.withFaults (s : State) (err : Bool) (ecause : BitVec 2) (ecmd : CmdWord) (ovf : Bool)
    (rsp : Option Response) : State :=
  { s with err := err, ecause := ecause, ecmd := ecmd, ovf := ovf, rsp := rsp }

theorem sameButFaults_withFaults (s : State) (err : Bool) (ecause : BitVec 2) (ecmd : CmdWord) (ovf : Bool)
    (rsp : Option Response) : sameButFaults s (s.withFaults err ecause ecmd ovf rsp) :=
  ⟨⟨rfl, rfl, rfl⟩, rfl, rfl, ⟨rfl, rfl, rfl, rfl, rfl⟩, rfl, rfl⟩

theorem eq_withFaults_of_sameButFaults {s s' : State} (h : sameButFaults s s') :
    s' = s.withFaults s'.err s'.ecause s'.ecmd s'.ovf s'.rsp := by
  obtain ⟨⟨hh, hv, hw⟩, hm, hp, ⟨ht, hbi, hlen, hmark, hlw⟩, hinputs, hdraws⟩ := h
  cases s; cases s'
  simp_all [State.withFaults]

/-- A ready command reads the fault registers only to answer `RDS` and to record a fault. -/
theorem performed_sameButFaults {s s' : State} (h : sameButFaults s s') (c : CmdWord) (i : Instr) :
    sameButFaults (performed s c i) (performed s' c i) ∧
    (isStep i = false → i ≠ .rds → (performed s' c i).rsp = (performed s c i).rsp) := by
  obtain ⟨-, -, hp, ⟨-, -, hlen, -⟩, -⟩ := id h
  rw [performed, performed, faultOf_congr hp hlen, eq_withFaults_of_sameButFaults h]
  cases hf : faultOf s i with
  | some k => exact ⟨⟨⟨rfl, rfl, rfl⟩, rfl, rfl, ⟨rfl, rfl, rfl, rfl, rfl⟩, rfl, rfl⟩, fun _ _ => rfl⟩
  | none =>
    cases i with
    | nop | init | data | final | rdw | rdb | rdx =>
      exact ⟨⟨⟨rfl, rfl, rfl⟩, rfl, rfl, ⟨rfl, rfl, rfl, rfl, rfl⟩, rfl, rfl⟩, fun _ _ => rfl⟩
    | rds => exact ⟨⟨⟨rfl, rfl, rfl⟩, rfl, rfl, ⟨rfl, rfl, rfl, rfl, rfl⟩, rfl, rfl⟩, fun _ h => absurd rfl h⟩
    | illegal w => cases hf
    | pad | load | expand | round | accum => exact ⟨sameButFaults_withFaults s _ _ _ _ _, nofun⟩

/-- Nor does an engine step read them. -/
theorem exec_engineStep_sameButFaults {i : Instr} (hi : isStep i = true) {s s' t t' : State} (h : sameButFaults s s')
    (ht : exec i s = .next t) (ht' : exec i s' = .next t') : sameButFaults t t' ∧ t'.rsp = t.rsp := by
  rw [eq_withFaults_of_sameButFaults h] at ht'
  cases i with
  | pad | load | expand | round | accum =>
    cases ht; cases ht'
    exact ⟨⟨⟨rfl, rfl, rfl⟩, rfl, rfl, ⟨rfl, rfl, rfl, rfl, rfl⟩, rfl, rfl⟩, rfl⟩
  | nop | init | data | final | rdw | rdb | rdx | rds | illegal => cases hi

theorem sameButFaults_withInputs {s s' : State} (h : sameButFaults s s') (is : List Input) :
    sameButFaults (s.withInputs is) (s'.withInputs is) := by
  obtain ⟨hdata, hm, hp, hcounters, -, hdraws⟩ := h
  exact ⟨hdata, hm, hp, hcounters, rfl, hdraws⟩

/-- The Reset event reads the count of resets and the inputs alone (R180). -/
theorem sameButFaults_resetEvent {s s' : State} (h : sameHost s s') : sameButFaults s.resetEvent s'.resetEvent := by
  obtain ⟨hinputs, hdraws⟩ := h
  simp [sameButFaults, sameDatapath, sameCounters, sameHost, hinputs, hdraws]

/-- Settles O15: the two engines take steps of one kind, and no meaning reads the fault registers but those of `RDS` and
of the fault entry. -/
theorem faultRegistersDoNotInfluence : Obligations.FaultRegistersDoNotInfluence := by
  unfold Obligations.FaultRegistersDoNotInfluence
  intro s s' t hsame h
  obtain ⟨t', h'⟩ := step_total s'
  refine ⟨t', h', ?_⟩
  have hboth := sameButFaults_withInputs hsame
  obtain ⟨-, -, hp, -, hinputs, -⟩ := hsame
  cases step_lockstep sameShape_of_eq hp (forall₂_eq hinputs) h h' with
  | reset rest rest' hrest _ ht ht' =>
    obtain ⟨-, -, -, -, hhost⟩ := hboth rest
    rw [eq_of_forall₂_eq hrest] at ht'
    subst ht; subst ht'
    exact ⟨sameButFaults_resetEvent hhost, fun _ => rfl⟩
  | command c c' rest rest' hrest hc hr hr' hi _ ht ht' =>
    cases hc
    rw [eq_of_forall₂_eq hrest, exec_decodeCmd_of_ready (s := s'.withInputs rest) hr'] at ht'
    rw [exec_decodeCmd_of_ready (s := s.withInputs rest) hr] at ht
    cases ht; cases ht'
    obtain ⟨hdata, hrsp⟩ := performed_sameButFaults (hboth rest) c (decodeCmd c)
    refine ⟨hdata, fun hno => hrsp (not_isStep_decodeCmd c) fun hrds => hno ?_⟩
    rw [← hrds]; exact hi
  | engine i is is' his hsel _ _ ht ht' =>
    rw [eq_of_forall₂_eq his] at ht'
    obtain ⟨hdata, hrsp⟩ := exec_engineStep_sameButFaults (isStep_of_stepSelected hsel) (hboth is) ht ht'
    exact ⟨hdata, fun _ => hrsp⟩
  | wait is is' his _ _ ht ht' =>
    rw [eq_of_forall₂_eq his] at ht'
    subst ht; subst ht'
    exact ⟨hboth is, fun _ => rfl⟩

/-! ### Timing depends on the length alone -/

/-- Two instructions that differ at most in the value of a message byte. -/
def sameShapeInstr (i i' : Instr) : Prop := i' = i ∨ ∃ a b, i = .data a ∧ i' = .data b

theorem sameShapeInstr_decodeCmd {c c' : CmdWord} (h : Input.sameShape (.present c) (.present c')) :
    sameShapeInstr (decodeCmd c) (decodeCmd c') := by
  rcases h with h | ⟨a, b, ha, hb⟩
  · cases h; exact .inl rfl
  · cases ha; cases hb
    exact .inr ⟨a, b, decodeCmd_dataWord a, decodeCmd_dataWord b⟩

theorem faultOf_of_sameShapeInstr {i i' : Instr} (h : sameShapeInstr i i') (s : State) : faultOf s i' = faultOf s i := by
  rcases h with rfl | ⟨a, b, rfl, rfl⟩ <;> rfl

/-- The position of the sequencer: `PHASE`, `T`, `BI`, `LEN`, `MK`, `LW`. -/
def samePosition (s s' : State) : Prop := s'.phase = s.phase ∧ sameCounters s s'

/-- Where a ready command leads depends on the position and not on the byte. -/
theorem performed_samePosition {s s' : State} (h : samePosition s s') {i i' : Instr} (hi : sameShapeInstr i i')
    (c c' : CmdWord) : samePosition (performed s c i) (performed s' c' i') := by
  obtain ⟨hp, hc⟩ := h
  have hfault : faultOf s' i' = faultOf s i :=
    (faultOf_of_sameShapeInstr hi s').trans (faultOf_congr hp hc.2.2.1 i)
  rw [performed, performed, hfault]
  cases faultOf s i with
  | some k => exact ⟨hp, hc⟩
  | none =>
    have hbyte (a b : Byte) : samePosition (effectOf s (.data a)) (effectOf s' (.data b)) := by
      obtain ⟨ht, hbi, hlen, hmark, hlw⟩ := hc
      simp [samePosition, sameCounters, effectOf, hp, ht, hbi, hlen, hmark, hlw]
    rcases hi with rfl | ⟨a, b, rfl, rfl⟩
    · cases i' with
      | data b => exact hbyte b b
      | init => exact ⟨rfl, rfl, rfl, rfl, rfl, rfl⟩
      | final => exact ⟨rfl, hc⟩
      | _ => exact ⟨hp, hc⟩
    · exact hbyte a b

/-- Where an engine step leads depends on the position. -/
theorem exec_engineStep_samePosition {i : Instr} (hi : isStep i = true) {s s' t t' : State} (h : samePosition s s')
    (hs : exec i s = .next t) (hs' : exec i s' = .next t') : samePosition t t' := by
  obtain ⟨hp, ht, hbi, hlen, hmark, hlw⟩ := h
  cases i with
  | pad | load | expand | round | accum =>
    cases hs; cases hs'
    simp [samePosition, sameCounters, hp, ht, hbi, hlen, hmark, hlw]
  | nop | init | data | final | rdw | rdb | rdx | rds | illegal => cases hi

theorem exec_engineStep_inputs {i : Instr} (hi : isStep i = true) {s t : State} (h : exec i s = .next t) :
    t.inputs = s.inputs := by
  obtain ⟨u, hu, -, hinputs, -⟩ := exec_engineStep hi s
  cases h.symm.trans hu
  exact hinputs

/-- Two engines in one position, with inputs of one shape, keep to one position and take engine steps together. -/
theorem samePosition_of_step {s s' t t' : State} (hpos : samePosition s s')
    (hin : List.Forall₂ Input.sameShape s.inputs s'.inputs) (h : step s = .next t) (h' : step s' = .next t') :
    samePosition t t' ∧ List.Forall₂ Input.sameShape t.inputs t'.inputs ∧
      ((fetch s').1.toList.filter isStep).length = ((fetch s).1.toList.filter isStep).length := by
  cases step_lockstep (fun _ _ => id) hpos.1 hin h h' with
  | reset rest rest' hrest hreset ht ht' =>
    have hreset' : nextIsReset s' := by
      obtain ⟨rest, hr⟩ := hreset
      rw [hr, List.forall₂_cons_left_iff] at hin
      obtain ⟨j, rest', hj, -, hr'⟩ := hin
      exact ⟨rest', (Input.sameShape_left hj nofun) ▸ hr'⟩
    subst ht; subst ht'
    exact ⟨⟨rfl, rfl, rfl, rfl, rfl, rfl⟩, hrest,
      by rw [fetch_fst_of_nextIsReset hreset, fetch_fst_of_nextIsReset hreset']⟩
  | command c c' rest rest' hrest hc hr hr' hi hi' ht ht' =>
    rw [exec_decodeCmd_of_ready (s := s.withInputs rest) hr] at ht
    rw [exec_decodeCmd_of_ready (s := s'.withInputs rest') hr'] at ht'
    cases ht; cases ht'
    refine ⟨performed_samePosition (s := s.withInputs rest) (s' := s'.withInputs rest') hpos
      (sameShapeInstr_decodeCmd hc) c c', ?_, ?_⟩
    · rw [performed_inputs, performed_inputs]; exact hrest
    · rw [hi, hi']
      simp [not_isStep_decodeCmd]
  | engine i is is' his hsel hi hi' ht ht' =>
    have hstep := isStep_of_stepSelected hsel
    refine ⟨exec_engineStep_samePosition (s := s.withInputs is) (s' := s'.withInputs is') hstep hpos ht ht', ?_,
      by rw [hi, hi']⟩
    rw [exec_engineStep_inputs hstep ht, exec_engineStep_inputs hstep ht']; exact his
  | wait is is' his hi hi' ht ht' =>
    subst ht; subst ht'
    exact ⟨hpos, his, by rw [hi, hi']⟩

/-- Settles O47, by `samePosition_of_step` along the run. -/
theorem timingDependsOnTheLengthAlone : Obligations.TimingDependsOnTheLengthAlone := by
  unfold Obligations.TimingDependsOnTheLengthAlone
  intro n
  induction n with
  | zero =>
    intro s s' t t' hp hc hin hrun hrun'
    rw [runsTo_zero] at hrun hrun'
    subst hrun; subst hrun'
    exact ⟨hp, hc, hin, rfl⟩
  | succ n ih =>
    intro s s' t t' hp hc hin hrun hrun'
    obtain ⟨u, hu, hrest⟩ := runsTo_succ.1 hrun
    obtain ⟨u', hu', hrest'⟩ := runsTo_succ.1 hrun'
    obtain ⟨hpos, hin', hsteps⟩ := samePosition_of_step ⟨hp, hc⟩ hin hu hu'
    obtain ⟨hp', hc', hin'', hlen⟩ := ih u u' t t' hpos.1 hpos.2 hin' hrest hrest'
    refine ⟨hp', hc', hin'', ?_⟩
    rw [engineSteps_succ hu, engineSteps_succ hu', List.length_append, List.length_append, hsteps, hlen]

end Sys2Proof.Machine
end

section
/-! SUPPORT. One block (R107 to R115): what the stores hold at each point of a compression, the engine steps that are
left, and runs until a condition holds (R186, R187). -/

namespace Sys2Proof

/-! ### The schedule and the rounds -/

/-- The recurrence reads below its own index (R107). -/
theorem scheduleWord_congr {w w' : Schedule} {j : Index} (hlo : 16 ≤ j.toNat)
    (h : ∀ i : Index, i.toNat < j.toNat → wordAt w' i = wordAt w i) : scheduleWord w' j = scheduleWord w j := by
  rw [scheduleWord, scheduleWord, h (j - 16) (by bv_omega), h (j - 15) (by bv_omega), h (j - 7) (by bv_omega),
    h (j - 2) (by bv_omega)]

theorem schedule_ext {w w' : Schedule} (h : ∀ i : Index, wordAt w' i = wordAt w i) : w' = w :=
  Vector.ext fun i hi => h (BitVec.ofNatLT i hi)

/-- The block and the recurrence fix the schedule (R107). -/
theorem ScheduledBelow.eq_schedule {b : Block} {w : Schedule} (h : ScheduledBelow b 64 w) : w = schedule b := by
  have hb := scheduledBelow_schedule b
  have key : ∀ (n : Nat) (i : Index), i.toNat = n → wordAt w i = wordAt (schedule b) i := by
    intro n
    induction n using Nat.strongRecOn with
    | ind n ih =>
      rintro i rfl
      by_cases hlo : i.toNat < 16
      · rw [h.block i hlo, hb.block i hlo]
      · have hlo : 16 ≤ i.toNat := by omega
        rw [h.recurrence i hlo i.isLt, hb.recurrence i hlo i.isLt]
        exact scheduleWord_congr hlo fun k hk => ih k.toNat hk k rfl
  exact schedule_ext fun i => key i.toNat i rfl

/-- The working registers after the first `n` rounds (R109). -/
def roundsBelow (h : Words8) (w : Schedule) (n : Nat) : Words8 :=
  ((List.range n).map fun k => BitVec.ofNat 6 k).foldl (fun v j => roundFn v (roundConstant j) (wordAt w j)) h

theorem roundsBelow_succ (h : Words8) (w : Schedule) (j : Index) :
    roundsBelow h w (j.toNat + 1) = roundFn (roundsBelow h w j.toNat) (roundConstant j) (wordAt w j) := by
  simp [roundsBelow, List.range_succ]

theorem roundsBelow_all (h : Words8) (w : Schedule) : roundsBelow h w 64 = rounds h w := rfl

namespace Machine

/-- The words that `LOAD` fills are those of the block (R107, R110). -/
theorem scheduledBelow_loadWords (m : Memory) (w : Schedule) : ScheduledBelow m.block 16 (loadWords m w) where
  block i hi := by
    have hbyte (k : Nat) (hk : k < 4) : m.block[4 * i.toNat + k] = m.read (4 * i + BitVec.ofNat 6 k) := by
      rw [Memory.block, Vector.getElem_ofFn]
      congr 1
      apply BitVec.eq_of_toNat_eq
      simp
    have hfirst : m.block[4 * i.toNat] = m.read (4 * i) := by simpa using hbyte 0 (by decide)
    rw [wordAt_loadWords, if_pos hi]
    exact (congr (congr (congr (congrArg bytesToWord hfirst) (hbyte 1 (by decide))) (hbyte 2 (by decide)))
      (hbyte 3 (by decide))).symm
  recurrence i hlo hhi := by omega

/-! ### A block in work -/

/-- The engine is compressing block `b` into the hash state `h`: what the stores hold in each phase (R110 to R113). -/
def Compresses (h : Words8) (b : Block) (s : State) : Prop :=
  match s.phase with
  | .load => s.h = h ∧ s.m.block = b
  | .expand => s.h = h ∧ s.v = h ∧ 16 ≤ s.t.toNat ∧ ScheduledBelow b s.t.toNat s.w
  | .round => s.h = h ∧ s.w = schedule b ∧ s.v = roundsBelow h (schedule b) s.t.toNat
  | .accum => s.h = h ∧ s.w = schedule b ∧ s.v = rounds h (schedule b) ∧ s.t = 0
  | .idle | .absorb | .pad | .done => False

/-- The block is compressed, and the sequencer is where `ACCUM` goes (R113, R115). -/
structure Compressed (h : Words8) (b : Block) (s : State) : Prop where
  hash : s.h = compress h b
  words : s.w = schedule b
  position : s.t = 0 ∧ s.phase = afterAccum s.mark s.lw

theorem Compresses.compressing {h : Words8} {b : Block} {s : State} (hs : Compresses h b s) :
    s.phase.compressing = true := by
  unfold Compresses at hs
  cases hp : s.phase <;> rw [hp] at hs <;> trivial

theorem compressing_afterAccum (mark lw : Bool) : (afterAccum mark lw).compressing = false := by
  cases mark <;> cases lw <;> rfl

/-- It depends on `PHASE`, `T` and the stores alone. -/
theorem Compresses.congr {h : Words8} {b : Block} {s t : State} (hs : Compresses h b s) (hsame : sameButFaults s t) :
    Compresses h b t := by
  obtain ⟨⟨hh, hv, hw⟩, hm, hp, ⟨ht, -⟩, -⟩ := hsame
  simpa only [Compresses, hh, hv, hw, hm, hp, ht] using hs

/-- Each engine step carries the compression on, and `ACCUM` completes it. -/
theorem Compresses.engine {h : Words8} {b : Block} {s t : State} {i : Instr} (hs : Compresses h b s)
    (heffect : EngineEffect s t i) : Compresses h b t ∨ Compressed h b t := by
  unfold Compresses at hs
  cases heffect with
  | pad hp => rw [hp] at hs; exact hs.elim
  | load hp ht =>
    rw [hp] at hs; subst ht
    obtain ⟨hh, rfl⟩ := hs
    exact .inl ⟨hh, hh, le_refl 16, scheduledBelow_loadWords s.m s.w⟩
  | expand hp hlt ht =>
    rw [hp] at hs; subst ht
    obtain ⟨hh, hv, hlo, hw⟩ := hs
    left
    rw [Compresses, State.silent_phase, hp, expandValue_eq_scheduleWord s.w hlo]
    have hnext : (s.t + 1).toNat = s.t.toNat + 1 := by bv_omega
    exact ⟨hh, hv, by rw [hnext]; omega, by rw [hnext]; exact hw.extend hlo⟩
  | expandLast hp hlast ht =>
    rw [hp] at hs; subst ht
    obtain ⟨hh, hv, hlo, hw⟩ := hs
    have hall := hw.extend hlo
    rw [hlast] at hall
    refine .inl ⟨hh, ?_, hv⟩
    rw [expandValue_eq_scheduleWord s.w hlo]
    exact hall.eq_schedule
  | round hp hlt ht =>
    rw [hp] at hs; subst ht
    obtain ⟨hh, hw, hv⟩ := hs
    left
    rw [Compresses, State.silent_phase, hp]
    have hnext : (s.t + 1).toNat = s.t.toNat + 1 := by bv_omega
    exact ⟨hh, hw, by rw [hnext, roundsBelow_succ, hv, hw]⟩
  | roundLast hp hlast ht =>
    rw [hp] at hs; subst ht
    obtain ⟨hh, hw, hv⟩ := hs
    refine .inl ⟨hh, hw, ?_, rfl⟩
    rw [← roundsBelow_all, show 64 = s.t.toNat + 1 by omega, roundsBelow_succ, hv, hw]
  | accum hp ht =>
    rw [hp] at hs; subst ht
    obtain ⟨hh, hw, hv, h0⟩ := hs
    exact .inr ⟨by rw [compress, hh, hv], hw, h0, rfl⟩

/-- The engine steps left of the block in work (R115). -/
def State.blockSteps (s : State) : List Instr :=
  match s.phase with
  | .load => [.load] ++ List.replicate 48 .expand ++ List.replicate 64 .round ++ [.accum]
  | .expand => List.replicate (64 - s.t.toNat) .expand ++ List.replicate 64 .round ++ [.accum]
  | .round => List.replicate (64 - s.t.toNat) .round ++ [.accum]
  | .accum => [.accum]
  | .idle | .absorb | .pad | .done => []

theorem State.blockSteps_of_not_compressing {s : State} (h : s.phase.compressing = false) : s.blockSteps = [] := by
  unfold State.blockSteps
  cases hp : s.phase <;> rw [hp] at h <;> trivial

theorem State.blockSteps_congr {s t : State} (hp : t.phase = s.phase) (ht : t.t = s.t) : t.blockSteps = s.blockSteps := by
  simp only [State.blockSteps, hp, ht]

/-- An engine step of a block in work is the first of those left. -/
theorem blockSteps_eq_cons {s t : State} {i : Instr} (hs : s.phase.compressing = true) (heffect : EngineEffect s t i) :
    s.blockSteps = i :: t.blockSteps := by
  cases heffect with
  | pad hp => rw [hp] at hs; cases hs
  | load hp ht => subst ht; rw [State.blockSteps, hp]; rfl
  | expand hp hlt ht =>
    subst ht
    have hleft : 64 - s.t.toNat = (64 - (s.t + 1).toNat) + 1 := by bv_omega
    simp only [State.blockSteps, hp, State.silent_phase]
    rw [hleft, List.replicate_succ]; rfl
  | expandLast hp hlast ht => subst ht; rw [State.blockSteps, hp, hlast]; rfl
  | round hp hlt ht =>
    subst ht
    have hleft : 64 - s.t.toNat = (64 - (s.t + 1).toNat) + 1 := by bv_omega
    simp only [State.blockSteps, hp, State.silent_phase]
    rw [hleft, List.replicate_succ]; rfl
  | roundLast hp hlast ht => subst ht; rw [State.blockSteps, hp, hlast]; rfl
  | accum hp ht =>
    subst ht
    rw [State.blockSteps, hp, State.blockSteps_of_not_compressing (compressing_afterAccum _ _)]

/-! ### Runs until a condition holds -/

theorem runsTo_snoc {n : Nat} {s u t : State} (h : runsTo n s u) (hu : step u = .next t) : runsTo (n + 1) s t :=
  runsTo_add h (runsTo_succ.2 ⟨t, hu, runsTo_zero.2 rfl⟩)

/-- The engine step that comes next, if any. -/
def stepsOf (s : State) : List Instr := (fetch s).1.toList.filter isStep

theorem engineSteps_snoc {n : Nat} {s u t : State} (h : runsTo n s u) (hu : step u = .next t) :
    engineSteps (n + 1) s = engineSteps n s ++ stepsOf u := by
  rw [engineSteps_add h, engineSteps_succ hu, engineSteps, List.append_nil, stepsOf]

theorem State.stepsLeft_congr {s t : State} (hp : t.phase = s.phase) (hc : sameCounters s t) :
    t.stepsLeft = s.stepsLeft := by
  obtain ⟨ht, hbi, -, hmark, hlw⟩ := hc
  simp only [State.stepsLeft, hp, ht, hbi, hmark, hlw]

/-- Every step of an engine that is busy or has inputs takes an input, or takes none and is one of the steps left. -/
theorem step_decreases {s t : State} (h : step s = .next t) (hlive : s.busy = true ∨ s.inputs ≠ []) :
    Prod.Lex (· < ·) (· < ·) (t.inputs.length, t.stepsLeft) (s.inputs.length, s.stepsLeft) := by
  have shorter {i : Input} {rest : List Input} (hin : s.inputs = i :: rest) (ht : t.inputs = rest) :
      Prod.Lex (· < ·) (· < ·) (t.inputs.length, t.stepsLeft) (s.inputs.length, s.stepsLeft) := by
    refine .left _ _ ?_
    rw [hin, ht]; exact Nat.lt_succ_self _
  cases step_kind h with
  | reset rest hin ht => exact shorter hin (by rw [ht]; rfl)
  | command c rest hin hr _ ht =>
    obtain ⟨-, -, hinputs, -⟩ := (commandEffect_of_exec (s := s.withInputs rest) hr ht).frame
    exact shorter hin hinputs
  | engine i is _ hsel _ hin _ ht =>
    have hinputs := exec_engineStep_inputs (isStep_of_stepSelected hsel) ht
    rcases hin with hin | hin
    · have hleft : s.stepsLeft = t.stepsLeft + 1 := stepsLeft_eq_succ_of_engineStep (s := s.withInputs is) hsel ht
      rw [hinputs, hin, hleft]
      exact .right _ (Nat.lt_succ_self _)
    · exact shorter hin hinputs
  | wait is hb _ hin ht =>
    rcases hin with ⟨hin, hnil⟩ | hin
    · rcases hlive with hbusy | hne
      · cases hb.symm.trans hbusy
      · exact absurd (hin.trans hnil) hne
    · exact shorter hin (by rw [ht]; rfl)

section
variable {s : State} {stop : State → Prop} {Q : Nat → State → Prop}
  (hstep : ∀ n u t, runsTo n s u → Q n u → ¬ stop u → step u = .next t → Q (n + 1) t)
  (hlive : ∀ n u, Q n u → ¬ stop u → u.busy = true ∨ u.inputs ≠ [])
include hstep hlive

theorem exists_run_until_from {n : Nat} {u : State} (hrun : runsTo n s u) (hu : Q n u) :
    ∃ m t, runsTo m s t ∧ Q m t ∧ stop t := by
  by_cases hstop : stop u
  · exact ⟨n, u, hrun, hu, hstop⟩
  · obtain ⟨v, hv⟩ := step_total u
    have hless := step_decreases hv (hlive n u hu hstop)
    exact exists_run_until_from (runsTo_snoc hrun hv) (hstep n u v hrun hu hstop hv)
termination_by (u.inputs.length, u.stepsLeft)
decreasing_by exact hless

/-- A run goes on until `stop` holds, and keeps what its steps keep, as long as the engine is busy or has inputs. -/
theorem exists_run_until (h0 : Q 0 s) : ∃ n t, runsTo n s t ∧ Q n t ∧ stop t :=
  exists_run_until_from hstep hlive (runsTo_zero.2 rfl) h0

end

/-! ### A busy engine -/

/-- What a step of a busy engine is, when the host asserts no reset: an accepted command, which changes the fault
registers at most, or the engine step that `PHASE` selects. -/
inductive BusyStep (s t : State) : Prop
  | command (rest : List Input) : stepsOf s = [] → sameButFaults (s.withInputs rest) t → BusyStep s t
  | engine (i : Instr) (is : List Input) : stepsOf s = [i] → stepSelected s.phase = some i →
      exec i (s.withInputs is) = .next t → BusyStep s t

theorem stepsOf_command {s : State} {c : CmdWord} (h : nextIs s (decodeCmd c)) : stepsOf s = [] := by
  rw [stepsOf, h]
  simp [not_isStep_decodeCmd]

theorem stepsOf_engine {s : State} {i : Instr} (h : nextIs s i) (hi : isStep i = true) : stepsOf s = [i] := by
  rw [stepsOf, h]
  simp [hi]

theorem busyStep_of_step {s t : State} (hb : s.busy = true) (hreset : noReset s.inputs) (h : step s = .next t) :
    BusyStep s t := by
  cases step_kind h with
  | reset rest hin _ => exact absurd rfl (hreset .reset (by rw [hin]; exact List.mem_cons_self))
  | command c rest _ hr hf ht =>
    exact .command rest (stepsOf_command hf) (sameButFaults_of_busy (s := s.withInputs rest) hb hr ht)
  | engine i is _ hsel hf _ _ ht => exact .engine i is (stepsOf_engine hf (isStep_of_stepSelected hsel)) hsel ht
  | wait is hnot => cases hb.symm.trans hnot

/-- Settles O8: engine steps are counted down from `stepsLeft`, commands leave it, and it is at most 230. -/
theorem busyEndsWithin230Steps : Obligations.BusyEndsWithin230Steps := by
  unfold Obligations.BusyEndsWithin230Steps
  intro s hinv _ hreset
  obtain ⟨n, t, hrun, ⟨-, hcount⟩, hstop⟩ := exists_run_until (s := s) (stop := fun u => u.busy = false)
    (Q := fun n u => noReset u.inputs ∧ (engineSteps n s).length + u.stepsLeft = s.stepsLeft)
    (fun n u v hrun ⟨hr, hcount⟩ hbusy hv => by
      refine ⟨noReset_of_step hv hr, ?_⟩
      rw [engineSteps_snoc hrun hv, List.length_append, ← hcount]
      cases busyStep_of_step (Bool.eq_true_of_not_eq_false hbusy) hr hv with
      | command rest hno hsame =>
        obtain ⟨-, -, hp, hc, -⟩ := hsame
        rw [hno, State.stepsLeft_congr hp hc]; rfl
      | engine i is hone hsel ht =>
        have hleft : u.stepsLeft = v.stepsLeft + 1 := stepsLeft_eq_succ_of_engineStep (s := u.withInputs is) hsel ht
        rw [hone, hleft, List.length_singleton, Nat.add_assoc, Nat.add_comm 1])
    (fun n u _ hbusy => .inl (Bool.eq_true_of_not_eq_false hbusy)) ⟨hreset, Nat.zero_add _⟩
  have hbound := State.stepsLeft_le hinv
  exact ⟨n, t, hrun, hstop, by omega⟩

/-! ### One block -/

/-- `M`, `BI`, `LEN`, `MK`, `LW` as before: what a compression leaves (R115). -/
def sameMessage (s t : State) : Prop := t.m = s.m ∧ t.bi = s.bi ∧ t.len = s.len ∧ t.mark = s.mark ∧ t.lw = s.lw

theorem sameMessage_of_engine {s t : State} {i : Instr} (hs : s.phase.compressing = true) (heffect : EngineEffect s t i) :
    sameMessage s t := by
  cases heffect with
  | pad hp => rw [hp] at hs; cases hs
  | load _ ht | expand _ _ ht | expandLast _ _ ht | round _ _ ht | roundLast _ _ ht | accum _ ht =>
    subst ht; exact ⟨rfl, rfl, rfl, rfl, rfl⟩

theorem busy_of_compressing {s : State} (h : s.phase.compressing = true) : s.busy = true := by
  rw [State.busy]
  cases hp : s.phase <;> rw [hp] at h <;> trivial

/-- A point of the run from `s` that compresses `s`'s block: the steps so far and those left are the block's 114, and the
block is in work or done. -/
structure BlockRun (s : State) (n : Nat) (u : State) : Prop where
  reset : noReset u.inputs
  steps : engineSteps n s ++ u.blockSteps = s.blockSteps
  message : sameMessage s u
  work : Compresses s.h s.m.block u ∨ Compressed s.h s.m.block u

theorem BlockRun.step {s u v : State} {n : Nat} (hu : BlockRun s n u) (hrun : runsTo n s u)
    (hs : ¬ u.phase.compressing = false) (hv : step u = .next v) : BlockRun s (n + 1) v := by
  obtain ⟨hreset, hsteps, ⟨hm, hbi, hlen, hmark, hlw⟩, hwork⟩ := hu
  have hc : u.phase.compressing = true := Bool.eq_true_of_not_eq_false hs
  have hwork : Compresses s.h s.m.block u := by
    refine hwork.resolve_right fun hdone => hs ?_
    rw [hdone.position.2]; exact compressing_afterAccum _ _
  cases busyStep_of_step (busy_of_compressing hc) hreset hv with
  | command rest hno hsame =>
    have hwork' := Compresses.congr (s := u.withInputs rest) hwork hsame
    obtain ⟨-, hm', hp, ⟨ht, hbi', hlen', hmark', hlw'⟩, -⟩ := hsame
    refine ⟨noReset_of_step hv hreset, ?_,
      ⟨hm'.trans hm, hbi'.trans hbi, hlen'.trans hlen, hmark'.trans hmark, hlw'.trans hlw⟩, .inl hwork'⟩
    rw [engineSteps_snoc hrun hv, hno, List.append_nil, State.blockSteps_congr hp ht]
    exact hsteps
  | engine i is hone hsel ht =>
    have heffect := exec_engineEffect (s := u.withInputs is) hsel ht
    have hcons : u.blockSteps = i :: v.blockSteps := blockSteps_eq_cons (s := u.withInputs is) hc heffect
    obtain ⟨hm', hbi', hlen', hmark', hlw'⟩ := sameMessage_of_engine (s := u.withInputs is) hc heffect
    refine ⟨noReset_of_step hv hreset, ?_,
      ⟨hm'.trans hm, hbi'.trans hbi, hlen'.trans hlen, hmark'.trans hmark, hlw'.trans hlw⟩,
      Compresses.engine (s := u.withInputs is) hwork heffect⟩
    rw [engineSteps_snoc hrun hv, hone, List.append_assoc, List.singleton_append, ← hcons, hsteps]

/-- Settles O42: the run until the engine has left the block, along which `BlockRun` holds. -/
theorem oneBlockIsCompressed : Obligations.OneBlockIsCompressed := by
  unfold Obligations.OneBlockIsCompressed
  refine ⟨fun s c hb hr => ?_, fun s hp hreset => ?_⟩
  · rw [State.ready_iff, hb] at hr
    simpa using hr
  · obtain ⟨n, t, hrun, ⟨-, hsteps, ⟨hm, hbi, hlen, hmark, hlw⟩, hwork⟩, hstop⟩ :=
      exists_run_until (stop := fun u => u.phase.compressing = false) (Q := BlockRun s)
        (fun n u v hrun hu hs hv => hu.step hrun hs hv)
        (fun n u _ hs => .inl (busy_of_compressing (Bool.eq_true_of_not_eq_false hs)))
        ⟨hreset, rfl, ⟨rfl, rfl, rfl, rfl, rfl⟩, .inl (by rw [Compresses, hp]; exact ⟨rfl, rfl⟩)⟩
    have hdone : Compressed s.h s.m.block t :=
      hwork.resolve_left fun h => absurd (h.compressing.symm.trans hstop) (by decide)
    obtain ⟨h0, hphase⟩ := hdone.position
    rw [hmark, hlw] at hphase
    rw [State.blockSteps_of_not_compressing hstop, List.append_nil] at hsteps
    refine ⟨n, t, hrun, hsteps.trans (by rw [State.blockSteps, hp]), hdone.hash, hdone.words, h0, hm, hbi, hlen, hmark, hlw,
      fun h1 => ?_, fun h1 h2 => ?_, fun h1 h2 => ?_⟩
    · rw [hphase, h1, afterAccum_no_mark]
    · rw [hphase, h1, h2, afterAccum_mark_no_length]
    · rw [hphase, h1, h2, afterAccum_mark_length]

end Machine
end Sys2Proof
end

section
/-! SUPPORT. Sessions do not leak (R154): two engines that agree on the session's registers and on the parts of `V`, `W`
and `M` that the rest of the block reads go on agreeing (R31). -/

namespace Sys2Proof.Machine

/-- The parts of `V`, `W`, `M` that are read before they are written (R31) are equal: in `M` the bytes taken, or the whole
block at `LOAD`; in `W` the words computed. -/
def sameWork (s s' : State) : Prop :=
  match s.phase with
  | .idle | .done => True
  | .absorb => ∀ a : Index, a.toNat < s.bi.toNat → s'.readM a = s.readM a
  | .pad => s.mark = false → ∀ a : Index, a.toNat < s.bi.toNat → s'.readM a = s.readM a
  | .load => ∀ a : Index, s'.readM a = s.readM a
  | .expand => s'.v = s.v ∧ ∀ i : Index, i.toNat < s.t.toNat → wordAt s'.w i = wordAt s.w i
  | .round => s'.v = s.v ∧ s'.w = s.w
  | .accum => s'.v = s.v

/-- Two engines in the same session. -/
structure Alike (s s' : State) : Prop where
  inv : s.Inv
  inv' : s'.Inv
  session : sameSession s s'
  inputs : s'.inputs = s.inputs
  work : sameWork s s'

/-! ### Commands -/

/-- A byte taken in both buffers at the same place. -/
theorem sameWork_appendByte {s s' : State} (hm : s.m.wf = true) (hm' : s'.m.wf = true) (hp : s.phase = .absorb)
    (hbi : s'.bi = s.bi) (h : sameWork s s') (b : Byte) : sameWork (appendByte b s) (appendByte b s') := by
  rw [sameWork, hp] at h
  have hread (a : Index) (ha : a.toNat ≤ s.bi.toNat) : (appendByte b s').readM a = (appendByte b s).readM a := by
    simp only [State.readM, appendByte_m, hbi, Memory.read_write hm, Memory.read_write hm']
    split
    · rfl
    · exact h a (by bv_omega)
  rw [sameWork, appendByte_phase, hp, appendByte_bi]
  by_cases h63 : s.bi.toNat = 63
  · rw [if_pos h63]
    exact fun a => hread a (by have := a.isLt; omega)
  · rw [if_neg h63, if_neg h63]
    exact fun a ha => hread a (by have := s.bi.isLt; bv_omega)

theorem phase_of_data_no_fault {s : State} {b : Byte} (h : ∀ k, ¬ faultsWith (.data b) s k) : s.phase = .absorb :=
  by_contra fun hne => h .phase (.inr (.inl ⟨.inl ⟨b, rfl⟩, takesMessage_eq_false_iff.2 hne⟩))

theorem phase_of_final_no_fault {s : State} (h : ∀ k, ¬ faultsWith .final s k) : s.phase = .absorb :=
  by_contra fun hne => h .phase (.inr (.inl ⟨.inr rfl, takesMessage_eq_false_iff.2 hne⟩))

/-- What a ready command does to `H` and to the work is the same in both. -/
theorem performed_sameWork {s s' : State} (h : Alike s s') (i : Instr) (c : CmdWord) :
    (performed s' c i).h = (performed s c i).h ∧ sameWork (performed s c i) (performed s' c i) := by
  obtain ⟨hinv, hinv', ⟨hh, hp, hc, -⟩, -, hwork⟩ := h
  obtain ⟨ht, hbi, hlen, hmark, hlw⟩ := hc
  have hfault := faultOf_congr hp hlen i
  rcases performed_cases s c i with ⟨k, hk, heq⟩ | ⟨hno, heq⟩
  · rw [heq, performed_of_fault (hfault.trans (faultOf_eq_some_iff.2 hk))]
    exact ⟨hh, hwork⟩
  · have hnone : faultOf s i = none := Option.eq_none_iff_forall_ne_some.2 fun k hk => hno k (faultOf_eq_some_iff.1 hk)
    rw [heq, performed_of_no_fault (hfault.trans hnone)]
    cases i with
    | init => exact ⟨rfl, fun a ha => absurd ha (Nat.not_lt_zero _)⟩
    | data b =>
      exact ⟨hh, sameWork_appendByte hinv.memory hinv'.memory (phase_of_data_no_fault hno) hbi hwork b⟩
    | final =>
      have hp := phase_of_final_no_fault hno
      rw [sameWork, hp] at hwork
      exact ⟨hh, fun _ => hwork⟩
    | _ => exact ⟨hh, hwork⟩

/-- Two engines in the same session stay so over an accepted command, and answer alike. -/
theorem Alike.command {s s' t t' : State} {c : CmdWord} (h : Alike s s') (hr : s.ready c = true)
    (ht : exec (decodeCmd c) s = .next t) (ht' : exec (decodeCmd c) s' = .next t') : Alike t t' ∧ t'.rsp = t.rsp := by
  obtain ⟨hinv, hinv', ⟨hh, hp, hc, hf⟩, hinputs, -⟩ := id h
  have hr' : s'.ready c = true := (State.ready_congr hp c).trans hr
  have hinvt := hinv.command (commandEffect_of_exec hr ht)
  have hinvt' := hinv'.command (commandEffect_of_exec hr' ht')
  rw [exec_decodeCmd_of_ready hr] at ht
  rw [exec_decodeCmd_of_ready hr'] at ht'
  cases ht; cases ht'
  obtain ⟨hp', hc'⟩ := performed_samePosition ⟨hp, hc⟩ (.inl rfl) c c (i := decodeCmd c)
  obtain ⟨hrsp, hf'⟩ := performed_alike hp hf hc.2.2.1 (fun _ => hh) (not_isStep_decodeCmd c) c
  obtain ⟨hh', hwork⟩ := performed_sameWork h (decodeCmd c) c
  exact ⟨⟨hinvt, hinvt', ⟨hh', hp', hc', hf'⟩, by rw [performed_inputs, performed_inputs, hinputs], hwork⟩, hrsp⟩

/-! ### Engine steps -/

/-- What step `PAD` leaves in `M` depends on the bytes taken alone (R144). -/
theorem read_padMemory_congr {m m' : Memory} (hm : m.wf = true) (hm' : m'.wf = true) (bi : Index) (len : Length)
    (mark : Bool) (h : mark = false → ∀ a : Index, a.toNat < bi.toNat → m'.read a = m.read a) (a : Index) :
    (padMemory m' bi len mark).read a = (padMemory m bi len mark).read a := by
  rw [read_padMemory hm, read_padMemory hm']
  cases mark with
  | true => rfl
  | false =>
    by_cases ha : a.toNat < bi.toNat
    · simp only [Bool.false_eq_true, if_false, if_pos ha, h rfl a ha]
    · simp only [Bool.false_eq_true, if_false, if_neg ha]

/-- What step `EXPAND` writes depends on the words computed alone (R111). -/
theorem expandValue_congr {w w' : Schedule} {j : Index} (hlo : 16 ≤ j.toNat)
    (h : ∀ i : Index, i.toNat < j.toNat → wordAt w' i = wordAt w i) : expandValue w' j = expandValue w j := by
  rw [expandValue_eq_scheduleWord w hlo, expandValue_eq_scheduleWord w' hlo, scheduleWord_congr hlo h]

/-- An engine step does the same to `H` and to the work in both. -/
theorem engine_sameWork {s s' t t' : State} {i : Instr} (h : Alike s s') (heffect : EngineEffect s t i)
    (heffect' : EngineEffect s' t' i) : t'.h = t.h ∧ sameWork t t' := by
  obtain ⟨hinv, hinv', ⟨hh, hp, ⟨ht, hbi, hlen, hmark, hlw⟩, -⟩, -, hwork⟩ := h
  unfold sameWork at hwork
  cases heffect with
  | pad hs hst =>
    cases heffect' with
    | pad hs' hst' =>
      subst hst; subst hst'
      rw [hs] at hwork
      refine ⟨hh, fun a => ?_⟩
      simp only [State.readM, hbi, hlen, hmark]
      exact read_padMemory_congr hinv.memory hinv'.memory _ _ _ hwork a
  | load hs hst =>
    cases heffect' with
    | load hs' hst' =>
      subst hst; subst hst'
      rw [hs] at hwork
      refine ⟨hh, hh, fun i hi => ?_⟩
      have hread (a : Index) : s'.m.read a = s.m.read a := hwork a
      simp only [wordAt_loadWords, if_pos (show i.toNat < 16 from hi), hread]
  | expand hs hlt hst =>
    cases heffect' with
    | expandLast _ hlast => rw [ht] at hlast; omega
    | expand hs' _ hst' =>
      subst hst; subst hst'
      rw [hs] at hwork
      obtain ⟨hv, hw⟩ := hwork
      have hlo := (hinv.consistent.expand hs).1
      rw [sameWork, State.silent_phase, hs]
      refine ⟨hh, hv, fun i hi => ?_⟩
      simp only [ht, wordAt_setWord, expandValue_congr hlo hw]
      split
      · rfl
      · exact hw i (by bv_omega)
  | expandLast hs hlast hst =>
    cases heffect' with
    | expand _ hlt => rw [ht] at hlt; omega
    | expandLast hs' _ hst' =>
      subst hst; subst hst'
      rw [hs] at hwork
      obtain ⟨hv, hw⟩ := hwork
      have hlo := (hinv.consistent.expand hs).1
      refine ⟨hh, hv, schedule_ext fun i => ?_⟩
      simp only [ht, wordAt_setWord, expandValue_congr hlo hw]
      split
      · rfl
      · exact hw i (by bv_omega)
  | round hs hlt hst =>
    cases heffect' with
    | roundLast _ hlast => rw [ht] at hlast; omega
    | round hs' _ hst' =>
      subst hst; subst hst'
      rw [hs] at hwork
      obtain ⟨hv, hw⟩ := hwork
      rw [sameWork, State.silent_phase, hs]
      exact ⟨hh, by simp only [hv, hw, ht], hw⟩
  | roundLast hs hlast hst =>
    cases heffect' with
    | round _ hlt => rw [ht] at hlt; omega
    | roundLast hs' _ hst' =>
      subst hst; subst hst'
      rw [hs] at hwork
      obtain ⟨hv, hw⟩ := hwork
      exact ⟨hh, by simp only [sameWork, hv, hw, ht]⟩
  | accum hs hst =>
    cases heffect' with
    | accum hs' hst' =>
      subst hst; subst hst'
      rw [hs] at hwork
      refine ⟨by simp only [hh, hwork], ?_⟩
      have hbi0 := (hinv.consistent.accum hs).2
      unfold sameWork
      cases hm : s.mark with
      | false => exact fun a ha => absurd (hbi0 ▸ ha) (Nat.not_lt_zero _)
      | true => cases hl : s.lw <;> simp [hm]

/-- Two engines in the same session stay so over an engine step, and neither answers. -/
theorem Alike.engine {s s' t t' : State} {i : Instr} (h : Alike s s') (hi : stepSelected s.phase = some i)
    (ht : exec i s = .next t) (ht' : exec i s' = .next t') : Alike t t' ∧ t'.rsp = t.rsp := by
  obtain ⟨hinv, hinv', ⟨hh, hp, hc, hf⟩, hinputs, -⟩ := id h
  have hstep := isStep_of_stepSelected hi
  have heffect := exec_engineEffect hi ht
  have heffect' := exec_engineEffect (hp ▸ hi) ht'
  obtain ⟨hh', hwork⟩ := engine_sameWork h heffect heffect'
  obtain ⟨hp', hc'⟩ := exec_engineStep_samePosition hstep ⟨hp, hc⟩ ht ht'
  obtain ⟨u, hu, hrsp, hin, herr, hecause, hecmd, hovf⟩ := exec_engineStep hstep s
  obtain ⟨u', hu', hrsp', hin', herr', hecause', hecmd', hovf'⟩ := exec_engineStep hstep s'
  cases ht.symm.trans hu; cases ht'.symm.trans hu'
  obtain ⟨herr0, hecause0, hecmd0, hovf0⟩ := hf
  exact ⟨⟨hinv.engine heffect, hinv'.engine heffect', ⟨hh', hp', hc', by rw [herr', herr, herr0],
    by rw [hecause', hecause, hecause0], by rw [hecmd', hecmd, hecmd0], by rw [hovf', hovf, hovf0]⟩,
    by rw [hin', hin, hinputs], hwork⟩, hrsp'.trans hrsp.symm⟩

/-! ### Runs -/

theorem Alike.withInputs {s s' : State} (h : Alike s s') (is : List Input) : Alike (s.withInputs is) (s'.withInputs is) :=
  ⟨h.inv.withInputs is, h.inv'.withInputs is, h.session, rfl, h.work⟩

/-- Two engines in the same session stay so over every step but a Reset, and answer alike. -/
theorem Alike.step {s s' t t' : State} (h : Alike s s') (hreset : noReset s.inputs) (ht : step s = .next t)
    (ht' : step s' = .next t') : Alike t t' ∧ t'.rsp = t.rsp := by
  obtain ⟨-, hp, -⟩ := h.session
  cases step_lockstep sameShape_of_eq hp (forall₂_eq h.inputs) ht ht' with
  | reset rest rest' _ hr =>
    obtain ⟨rest, hin⟩ := hr
    exact absurd rfl (hreset .reset (by rw [hin]; exact List.mem_cons_self))
  | command c c' rest rest' hrest hc hr _ _ _ hu hu' =>
    cases hc
    rw [eq_of_forall₂_eq hrest] at hu'
    exact (h.withInputs rest).command hr hu hu'
  | engine i is is' his hi _ _ hu hu' =>
    rw [eq_of_forall₂_eq his] at hu'
    exact (h.withInputs is).engine hi hu hu'
  | wait is is' his _ _ hu hu' =>
    rw [eq_of_forall₂_eq his] at hu'
    subst hu; subst hu'
    exact ⟨⟨h.inv.withInputs is |>.silent, h.inv'.withInputs is |>.silent, h.session, rfl, h.work⟩, rfl⟩

theorem Alike.run {n : Nat} {s s' t t' : State} (h : Alike s s') (hreset : noReset s.inputs) (ht : runsTo n s t)
    (ht' : runsTo n s' t') : Alike t t' ∧ responses n s = responses n s' := by
  induction n generalizing s s' with
  | zero =>
    rw [runsTo_zero] at ht ht'
    subst ht; subst ht'
    exact ⟨h, rfl⟩
  | succ n ih =>
    obtain ⟨u, hu, hrest⟩ := runsTo_succ.1 ht
    obtain ⟨u', hu', hrest'⟩ := runsTo_succ.1 ht'
    obtain ⟨hnext, hrsp⟩ := h.step hreset hu hu'
    obtain ⟨hend, hresp⟩ := ih hnext (noReset_of_step hu hreset) hrest hrest'
    refine ⟨hend, ?_⟩
    rw [responses_succ hu, responses_succ hu', hrsp, hresp]

/-- An `INIT` that comes to an engine that is not busy is accepted (R66, R141). -/
theorem step_init {s : State} (hb : s.busy = false) {is : List Input} (hin : s.inputs = .present initWord :: is) :
    step s = .next ((openSession (s.withInputs is)).respond 0) := by
  rw [step_ready hin (State.ready_of_not_busy hb _), decodeCmd_initWord]
  refine exec_init_of_not_busy ?_
  rw [State.busy] at hb
  rw [State.withInputs_phase]
  cases hp : s.phase <;> rw [hp] at hb <;> simp [Phase.busy] at hb ⊢

/-- After `INIT` two engines are in the same session, whatever they held before. -/
theorem alike_openSession {s s' : State} (h : s.Inv) (h' : s'.Inv) (hin : s'.inputs = s.inputs) :
    Alike ((openSession s).respond 0) ((openSession s').respond 0) :=
  ⟨h.openSession.respond 0, h'.openSession.respond 0,
    ⟨rfl, rfl, ⟨rfl, rfl, rfl, rfl, rfl⟩, rfl, rfl, rfl, rfl⟩, hin, fun _ ha => absurd ha (Nat.not_lt_zero _)⟩

/-- Settles O46: `INIT` makes the engines alike, and they stay so. -/
theorem sessionsDoNotLeak : Obligations.SessionsDoNotLeak := by
  unfold Obligations.SessionsDoNotLeak
  intro s s' t t' is n hinv hinv' hb hb' hreset hn hrun hrun'
  obtain ⟨n, rfl⟩ : ∃ k, n = k + 1 := ⟨n - 1, by omega⟩
  have hu := step_init (s := s.withInputs (.present initWord :: is)) hb rfl
  have hu' := step_init (s := s'.withInputs (.present initWord :: is)) hb' rfl
  obtain ⟨u, hu1, hrest⟩ := runsTo_succ.1 hrun
  obtain ⟨u', hu1', hrest'⟩ := runsTo_succ.1 hrun'
  cases hu.symm.trans hu1; cases hu'.symm.trans hu1'
  have halike := alike_openSession (hinv.withInputs is) (hinv'.withInputs is) rfl
  obtain ⟨hend, hresp⟩ := halike.run hreset hrest hrest'
  refine ⟨hend.session, hend.inputs, ?_⟩
  rw [responses_succ hu1, responses_succ hu1']
  exact congrArg _ hresp

end Sys2Proof.Machine
end

section
/-! SUPPORT. The padded message byte by byte (R88) and its blocks as the engine has them in `M` (R142, R144, R152). -/

namespace Sys2Proof

/-- Block `q` of the padded message (R91). -/
def paddedBlock (m : List Byte) (q : Nat) : Block := blockAt (padBytes m) q

/-- The hash state after the first `q` blocks (R131). -/
def hashed (m : List Byte) (q : Nat) : Words8 := hashBlocks ((List.range q).map (paddedBlock m))

theorem hashed_succ (m : List Byte) (q : Nat) : hashed m (q + 1) = compress (hashed m q) (paddedBlock m q) := by
  simp [hashed, hashBlocks, List.range_succ]

theorem blocks_padBytes (m : List Byte) : blocks (padBytes m) = (List.range (numBlocks m.length)).map (paddedBlock m) := by
  rw [blocks, length_padBytes, Nat.mul_div_cancel_left _ (by decide)]; rfl

/-- `Hash(m)` is the hash state after all blocks (R131). -/
theorem messageHash_eq {m : List Byte} (h : m.length ≤ Config.maxMsgBytes) :
    messageHash m = some (hashed m (numBlocks m.length)) := by
  rw [messageHash, pad_eq_some_iff.2 ⟨h, rfl⟩, Option.map_some, blocks_padBytes, hashed]

/-! ### The padded message, byte by byte -/

section
variable (m : List Byte) {i : Nat}

theorem getD_padBytes_message (h : i < m.length) : (padBytes m).getD i 0 = m.getD i 0 := by
  simp [padBytes, List.getD_eq_getElem?_getD, List.getElem?_append, h]

theorem getD_padBytes_marker (h : i = m.length) : (padBytes m).getD i 0 = 0x80 := by
  subst h
  simp [padBytes, List.getD_eq_getElem?_getD]

theorem getD_padBytes_zero (h : m.length < i) (hi : i + 8 < 64 * numBlocks m.length) : (padBytes m).getD i 0 = 0 := by
  rw [← add_padZeros] at hi
  rw [padBytes, List.getD_append _ _ _ _ (by simp; omega), List.getD_append_right _ _ _ _ (by simpa using h),
    List.getD_replicate _ (by simp; omega)]

theorem getD_padBytes_length {k : Nat} (hk : k < 8) (hi : i + 8 = 64 * numBlocks m.length + k) :
    (padBytes m).getD i 0 = imageByte 8 (BitVec.ofNat 64 (8 * m.length)).toNat k := by
  rw [← add_padZeros] at hi
  have hplace : i - (m ++ [0x80] ++ List.replicate (padZeros m.length) 0 : List Byte).length = k := by simp; omega
  rw [padBytes, List.getD_append_right _ _ _ _ (by simp; omega), hplace]
  simp [be64, List.getD_eq_getElem?_getD, hk]

end

theorem getElem_paddedBlock (m : List Byte) (q : Nat) {a : Nat} (ha : a < 64) :
    (paddedBlock m q)[a] = (padBytes m).getD (64 * q + a) 0 := by
  rw [paddedBlock, blockAt, Vector.getElem_ofFn]

namespace Machine

/-- A buffer holds a block when it reads as the block, byte by byte (R13, R115). -/
theorem Memory.block_eq {b : Block} {mem : Memory} (h : ∀ a : Index, mem.read a = b[a.toNat]'a.isLt) : mem.block = b := by
  apply Vector.ext
  intro i hi
  have hi' : (BitVec.ofNat 6 i).toNat = i := Nat.mod_eq_of_lt hi
  rw [Memory.block, Vector.getElem_ofFn, h]
  simp only [hi']

/-- The first `n` bytes of the buffer are those of the message from `64 q` on (R142). -/
def HoldsMessage (m : List Byte) (q : Nat) (mem : Memory) (n : Nat) : Prop :=
  ∀ a : Index, a.toNat < n → mem.read a = m.getD (64 * q + a.toNat) 0

theorem HoldsMessage.write {m : List Byte} {q : Nat} {mem : Memory} (hm : mem.wf = true) {bi : Index}
    (h : HoldsMessage m q mem bi.toNat) {b : Byte} (hb : m.getD (64 * q + bi.toNat) 0 = b) :
    HoldsMessage m q (mem.write bi b) (bi.toNat + 1) := by
  intro a ha
  rw [Memory.read_write hm]
  split
  next heq => rw [heq, hb]
  next hne => exact h a (by bv_omega)

/-- A full buffer inside the message is a block of the padded message (R142, R152). -/
theorem block_of_full {m : List Byte} {q : Nat} {mem : Memory} (h : HoldsMessage m q mem 64)
    (hlen : 64 * q + 64 ≤ m.length) : mem.block = paddedBlock m q := by
  refine Memory.block_eq fun a => ?_
  have ha := a.isLt
  rw [getElem_paddedBlock, getD_padBytes_message m (by omega), h a ha]

/-- What step `PAD` builds in the block with the message's end is that block of the padded message (R144, R152). -/
theorem block_padMemory_first {m : List Byte} {q : Nat} {mem : Memory} (hm : mem.wf = true) {bi : Index} {len : Length}
    (hlen : len.toNat = m.length) (hbi : len.toNat = 64 * q + bi.toNat) (h : HoldsMessage m q mem bi.toNat) :
    (padMemory mem bi len false).block = paddedBlock m q := by
  refine Memory.block_eq fun a => ?_
  have ha := a.isLt
  have hbits : bitLength len = BitVec.ofNat 64 (8 * m.length) := by rw [bitLength, hlen, Nat.mul_comm]
  have hblocks := numBlocks_eq m.length
  rw [getElem_paddedBlock, read_padMemory hm, if_neg Bool.false_ne_true]
  split
  next hlt => rw [h a hlt, getD_padBytes_message m (by omega)]
  next hge =>
    split
    next heq => rw [getD_padBytes_marker m (by omega)]
    next hne =>
      split
      next hroom =>
        rw [if_pos (by omega)] at hblocks
        rw [hbits, getD_padBytes_length m (k := a.toNat - 56) (by omega) (by omega)]
      next hnoroom =>
        refine (getD_padBytes_zero m (by omega) ?_).symm
        split at hblocks <;> omega

/-- What it builds in a second block is the last block of the padded message (R144, R152). -/
theorem block_padMemory_second {m : List Byte} {q : Nat} {mem : Memory} (hm : mem.wf = true) {bi : Index} {len : Length}
    (hlen : len.toNat = m.length) (hlast : q + 1 = numBlocks m.length) (hafter : m.length < 64 * q) :
    (padMemory mem bi len true).block = paddedBlock m q := by
  refine Memory.block_eq fun a => ?_
  have ha := a.isLt
  have hbits : bitLength len = BitVec.ofNat 64 (8 * m.length) := by rw [bitLength, hlen, Nat.mul_comm]
  rw [getElem_paddedBlock, read_padMemory hm, if_pos rfl]
  split
  next h56 => rw [hbits, getD_padBytes_length m (k := a.toNat - 56) (by omega) (by omega)]
  next h56 => rw [getD_padBytes_zero m (by omega) (by omega)]

end Machine
end Sys2Proof
end

section
/-! SUPPORT. A session (R151 to R153, R164): where the engine is in the padded message, what the host still has to send,
and that every step keeps to it. -/

namespace Sys2Proof.Machine

/-! ### What the host sends -/

theorem drivesSession_present_iff (c : CmdWord) : (Input.present c).drivesSession = true ↔
    decodeCmd c = .init ∨ (∃ b, decodeCmd c = .data b) ∨ decodeCmd c = .final := by
  cases hd : decodeCmd c <;> simp [Input.drivesSession, hd]

theorem drivesSession_initWord : (Input.present initWord).drivesSession = true :=
  (drivesSession_present_iff _).2 (.inl decodeCmd_initWord)

theorem drivesSession_dataWord (b : Byte) : (Input.present (dataWord b)).drivesSession = true :=
  (drivesSession_present_iff _).2 (.inr (.inl ⟨b, decodeCmd_dataWord b⟩))

theorem drivesSession_finalWord : (Input.present finalWord).drivesSession = true :=
  (drivesSession_present_iff _).2 (.inr (.inr decodeCmd_finalWord))

/-- The bytes and `FINAL` (R153). -/
def messageInputs (m : List Byte) : List Input := m.map (fun b => .present (dataWord b)) ++ [.present finalWord]

theorem script_eq (m : List Byte) : script m = .present initWord :: messageInputs m := by
  simp [script, messageInputs]

theorem drivesSession_of_mem_script {m : List Byte} {i : Input} (h : i ∈ script m) : i.drivesSession = true := by
  rw [script_eq, messageInputs, List.mem_cons, List.mem_append, List.mem_singleton] at h
  rcases h with rfl | h | rfl
  · exact drivesSession_initWord
  · obtain ⟨b, -, rfl⟩ := List.mem_map.1 h
    exact drivesSession_dataWord b
  · exact drivesSession_finalWord

/-- Inputs that R153 allows: harmless ones, and those that drive the session. -/
def benign (is : List Input) : Prop := ∀ i ∈ is, i.harmless = true ∨ i.drivesSession = true

/-- A harmless input drives no session (R153). -/
theorem not_harmless_of_drivesSession {i : Input} (h : i.drivesSession = true) : i.harmless = false := by
  cases i with
  | idle => cases h
  | reset => rfl
  | present c =>
    rw [drivesSession_present_iff] at h
    simp only [Input.harmless, Bool.or_eq_false_iff, beq_eq_false_iff_ne]
    constructor
    · rintro rfl
      rw [decodeCmd_nopWord] at h; simp at h
    · rintro rfl
      rw [decodeCmd_rdsWord] at h; simp at h

/-- A session without faulting words is one with any (R153, R164). -/
theorem carriesWithFaults_of_carries {is : List Input} {m : List Byte} (h : carries is m) : carriesWithFaults is m := by
  have hsub : is.filter Input.drivesSession = (is.filter fun i => !i.harmless).filter Input.drivesSession := by
    rw [List.filter_filter]
    refine List.filter_congr fun i _ => ?_
    cases hd : i.drivesSession with
    | false => rfl
    | true => rw [not_harmless_of_drivesSession hd]; rfl
  rw [carriesWithFaults, hsub, h]
  exact List.filter_eq_self.2 fun i hi => drivesSession_of_mem_script hi

theorem benign_of_carries {is : List Input} {m : List Byte} (h : carries is m) : benign is := by
  intro i hi
  cases hh : i.harmless with
  | true => exact .inl rfl
  | false =>
    refine .inr (drivesSession_of_mem_script (m := m) ?_)
    rw [← h, List.mem_filter]
    exact ⟨hi, by rw [hh]; rfl⟩

/-- `FINAL` has been accepted: the marker is coming or written. -/
def State.ended (s : State) : Bool := s.phase == .pad || s.mark

theorem State.ended_congr {s t : State} (hp : t.phase = s.phase) (hm : t.mark = s.mark) : t.ended = s.ended := by
  rw [State.ended, State.ended, hp, hm]

/-- What the host still has to send of a session. -/
def toCome (m : List Byte) (s : State) : List Input := if s.ended then [] else messageInputs (m.drop s.len.toNat)

/-! ### Where the engine is -/

/-- The engine has compressed the first `q` blocks of the padded message, and what it holds of the next one. -/
def InBlock (m : List Byte) (q : Nat) (s : State) : Prop :=
  match s.phase with
  | .idle => False
  | .absorb => s.len.toNat = 64 * q + s.bi.toNat ∧ s.h = hashed m q ∧ HoldsMessage m q s.m s.bi.toNat
  | .pad => s.h = hashed m q ∧
      (s.mark = false → s.len.toNat = 64 * q + s.bi.toNat ∧ HoldsMessage m q s.m s.bi.toNat) ∧
      (s.mark = true → q + 1 = numBlocks m.length ∧ m.length < 64 * q)
  | .load | .expand | .round | .accum => Compresses (hashed m q) (paddedBlock m q) s ∧
      (s.mark = false → s.len.toNat = 64 * (q + 1)) ∧
      (s.mark = true → s.lw = true → q + 1 = numBlocks m.length) ∧
      (s.mark = true → s.lw = false → q + 2 = numBlocks m.length ∧ m.length < 64 * (q + 1))
  | .done => q = numBlocks m.length ∧ s.h = hashed m q

/-- A session for `m` after `INIT`, with `q` blocks compressed. -/
structure Session (m : List Byte) (q : Nat) (s : State) : Prop where
  inv : s.Inv
  ovf : s.ovf = false
  length : s.len.toNat ≤ m.length
  whole : s.ended = true → s.len.toNat = m.length
  block : InBlock m q s

theorem compresses_of_load {h : Words8} {b : Block} {s : State} (hp : s.phase = .load) (hh : s.h = h)
    (hb : s.m.block = b) : Compresses h b s := by
  rw [Compresses, hp]
  exact ⟨hh, hb⟩

section
variable {m : List Byte} {q : Nat} {s t : State}

/-- The buffer is full, and its block is next (R142, R144). -/
theorem inBlock_of_load (hp : s.phase = .load) (hh : s.h = hashed m q) (hb : s.m.block = paddedBlock m q)
    (hopen : s.mark = false → s.len.toNat = 64 * (q + 1))
    (hlast : s.mark = true → s.lw = true → q + 1 = numBlocks m.length)
    (hmore : s.mark = true → s.lw = false → q + 2 = numBlocks m.length ∧ m.length < 64 * (q + 1)) : InBlock m q s := by
  rw [InBlock, hp]
  exact ⟨compresses_of_load hp hh hb, hopen, hlast, hmore⟩

/-- A session does not depend on the inputs, the response, or the fault registers but `OVF`. -/
theorem Session.congr (h : Session m q s) {is : List Input} (hsame : sameButFaults (s.withInputs is) t) (hinv : t.Inv)
    (hovf : t.ovf = s.ovf) : Session m q t := by
  obtain ⟨-, hovf0, hlength, hwhole, hblock⟩ := h
  have hwork {h b} : Compresses h b s → Compresses h b t := fun hc => Compresses.congr (s := s.withInputs is) hc hsame
  obtain ⟨⟨hh, -, -⟩, hm, hp, ⟨-, hbi, hlen, hmark, hlw⟩, -⟩ := hsame
  rw [State.withInputs_phase] at hp
  refine ⟨hinv, hovf.trans hovf0, by rw [hlen]; exact hlength, fun he => ?_, ?_⟩
  · rw [hlen]; exact hwhole (State.ended_congr hp hmark ▸ he)
  · unfold InBlock at hblock ⊢
    rw [hp]
    simp only [hh, hm, hbi, hlen, hmark, hlw, State.withInputs_h, State.withInputs_m, State.withInputs_bi,
      State.withInputs_len, State.withInputs_mark, State.withInputs_lw]
    cases hphase : s.phase <;> rw [hphase] at hblock
    case load | expand | round | accum => exact ⟨hwork hblock.1, hblock.2⟩
    all_goals exact hblock

theorem Session.withInputs (h : Session m q s) (is : List Input) : Session m q (s.withInputs is) :=
  h.congr (is := is) ⟨⟨rfl, rfl, rfl⟩, rfl, rfl, ⟨rfl, rfl, rfl, rfl, rfl⟩, rfl, rfl⟩ (h.inv.withInputs is) rfl

/-- While the message is open and the engine is not busy, it absorbs (R30). -/
theorem Session.absorb_of_open (h : Session m q s) (he : s.ended = false) (hb : s.busy = false) : s.phase = .absorb := by
  have hmark : s.mark = false := by rw [State.ended, Bool.or_eq_false_iff] at he; exact he.2
  have hblock := h.block
  unfold InBlock at hblock
  rw [State.busy] at hb
  cases hp : s.phase <;> rw [hp] at hb hblock
  case idle => exact hblock.elim
  case done =>
    obtain ⟨-, -, hm, -⟩ := h.inv.consistent.done hp
    cases hmark.symm.trans hm
  all_goals cases hb

/-- Once the message is ended and the engine is not busy, it is in `DONE` (R30). -/
theorem Session.done_of_ended (h : Session m q s) (he : s.ended = true) (hb : s.busy = false) : s.phase = .done := by
  have hblock := h.block
  unfold InBlock at hblock
  rw [State.busy] at hb
  cases hp : s.phase <;> rw [hp] at hb hblock
  case idle => exact hblock.elim
  case absorb =>
    obtain ⟨-, hmark, -⟩ := h.inv.consistent.absorb hp
    rw [State.ended, hp, hmark] at he; cases he
  all_goals cases hb

/-! ### Session commands -/

/-- A byte accepted in a session is the message's next (R142). -/
theorem Session.appendByte (h : Session m q s) (hp : s.phase = .absorb) (hroom : s.len.toNat < m.length)
    (hmax : m.length ≤ Config.maxMsgBytes) {b : Byte} (hb : m.getD s.len.toNat 0 = b) :
    Session m q ((appendByte b s).respond 0) ∧ ((Machine.appendByte b s).respond 0).ended = false ∧
      ((Machine.appendByte b s).respond 0).len.toNat = s.len.toNat + 1 := by
  have hinv' := (h.inv.appendByte hp (lt_of_lt_of_le hroom hmax) b).respond 0
  obtain ⟨-, hmark, hlw, -⟩ := h.inv.consistent.absorb hp
  obtain ⟨hinv, hovf, -, -, hblock⟩ := h
  rw [InBlock, hp] at hblock
  obtain ⟨hplace, hh, hholds⟩ := hblock
  have hlen : (s.len + 1).toNat = s.len.toNat + 1 := by simp only [Config.maxMsgBytes] at hmax; bv_omega
  have hnext := hholds.write hinv.memory (b := b) (by rw [← hplace, hb])
  have hopen : ((Machine.appendByte b s).respond 0).ended = false := by
    rw [State.ended, State.respond_phase, State.respond_mark, appendByte_phase, appendByte_mark, hmark, hp]
    split <;> rfl
  refine ⟨⟨hinv', hovf, hlen.trans_le hroom, fun he => (Bool.false_ne_true (hopen.symm.trans he)).elim, ?_⟩, hopen, hlen⟩
  by_cases h63 : s.bi.toNat = 63
  · have hload : ((Machine.appendByte b s).respond 0).phase = .load := if_pos h63
    rw [h63] at hnext hplace
    have hfull : (s.m.write s.bi b).block = paddedBlock m q := block_of_full hnext (by omega)
    refine inBlock_of_load hload hh hfull (fun _ => ?_) (fun hm => (Bool.false_ne_true (hmark.symm.trans hm)).elim)
      (fun hm => (Bool.false_ne_true (hmark.symm.trans hm)).elim)
    rw [State.respond_len, appendByte_len, hlen]; omega
  · have habsorb : ((Machine.appendByte b s).respond 0).phase = .absorb := (if_neg h63).trans hp
    have hbi : ((Machine.appendByte b s).respond 0).bi.toNat = s.bi.toNat + 1 := by
      have hlt := s.bi.isLt
      rw [State.respond_bi, appendByte_bi, if_neg h63]; bv_omega
    rw [InBlock, habsorb, hbi]
    exact ⟨by rw [State.respond_len, appendByte_len, hlen]; omega, hh, hnext⟩

/-- `FINAL` accepted after the last byte ends the message (R143). -/
theorem Session.endMessage (h : Session m q s) (hp : s.phase = .absorb) (hwhole : s.len.toNat = m.length) :
    Session m q (({ s with phase := .pad } : State).respond 0) := by
  obtain ⟨-, hmark, -⟩ := h.inv.consistent.absorb hp
  obtain ⟨hinv, hovf, hlength, -, hblock⟩ := h
  rw [InBlock, hp] at hblock
  obtain ⟨hplace, hh, hholds⟩ := hblock
  exact ⟨(hinv.endMessage hp).respond 0, hovf, hlength, fun _ => hwhole, hh, fun _ => ⟨hplace, hholds⟩,
    fun hm => (Bool.false_ne_true (hmark.symm.trans hm)).elim⟩

/-! ### Engine steps in a session -/

theorem ended_of_engine {i : Instr} (h : EngineEffect s t i) : t.ended = s.ended := by
  cases h with
  | pad hp ht => subst ht; rw [State.ended, State.ended, hp]; rfl
  | load hp ht | expandLast hp _ ht | roundLast hp _ ht => subst ht; rw [State.ended, State.ended, hp]; rfl
  | expand hp _ ht | round hp _ ht => subst ht; rfl
  | accum hp ht =>
    subst ht
    cases hm : s.mark <;> cases s.lw <;> simp [State.ended, hp, hm]

theorem frame_of_engine {i : Instr} (h : EngineEffect s t i) :
    t.len = s.len ∧ t.inputs = s.inputs ∧ t.err = s.err ∧ t.ovf = s.ovf := by
  cases h with
  | pad _ ht | load _ ht | expand _ _ ht | expandLast _ _ ht | round _ _ ht | roundLast _ _ ht | accum _ ht =>
    subst ht; exact ⟨rfl, rfl, rfl, rfl⟩

/-- Step `PAD` builds the next block of the padded message (R144, R152). -/
theorem InBlock.pad (h : Session m q s) (heffect : EngineEffect s t .pad) : InBlock m q t := by
  obtain ⟨hinv, -, -, hwhole, hblock⟩ := h
  cases heffect with
  | pad hp ht =>
    have hlen : s.len.toNat = m.length := hwhole (by rw [State.ended, hp]; rfl)
    have hbi := s.bi.isLt
    have hblocks := numBlocks_eq m.length
    rw [InBlock, hp] at hblock
    obtain ⟨hh, hfirst, hsecond⟩ := hblock
    subst ht
    cases hm : s.mark with
    | false =>
      obtain ⟨hplace, hholds⟩ := hfirst hm
      have hlw : s.lw = false := by
        obtain ⟨-, ⟨-, hlw, -⟩ | ⟨-, hlw, -⟩⟩ := hinv.consistent.pad hp <;> exact hlw
      have hbuilt := block_padMemory_first hinv.memory hlen hplace hholds
      refine inBlock_of_load rfl hh hbuilt nofun (fun _ hl => ?_) (fun _ hl => ?_)
      · by_cases hroom : 55 < s.bi.toNat
        · simp [hroom, hlw] at hl
        · rw [if_pos (by omega)] at hblocks; omega
      · by_cases hroom : 55 < s.bi.toNat
        · rw [if_neg (by omega)] at hblocks; omega
        · simp [hroom] at hl
    | true =>
      obtain ⟨hlast, hafter⟩ := hsecond hm
      have hbuilt : (padMemory s.m s.bi s.len true).block = paddedBlock m q :=
        block_padMemory_second hinv.memory hlen hlast hafter
      refine inBlock_of_load rfl hh ?_ nofun (fun _ _ => hlast) (fun _ hl => by simp at hl)
      dsimp only
      exact hbuilt

/-- Step `ACCUM` completes a block (R113). -/
theorem InBlock.accum (h : Session m q s) (heffect : EngineEffect s t .accum) : InBlock m (q + 1) t := by
  obtain ⟨hinv, -, -, -, hblock⟩ := h
  cases heffect with
  | accum hp ht =>
    obtain ⟨-, hbi⟩ := hinv.consistent.accum hp
    rw [InBlock, hp] at hblock
    obtain ⟨hwork, hopen, hlast, hmore⟩ := hblock
    rw [Compresses, hp] at hwork
    obtain ⟨hh, -, hv, -⟩ := hwork
    have hhash : addWords s.h s.v = hashed m (q + 1) := by rw [hashed_succ, compress, hh, hv]
    subst ht
    cases hm : s.mark with
    | false => exact ⟨by rw [State.silent_bi, hbi]; exact hopen hm, hhash, fun a ha => by simp [hbi] at ha⟩
    | true =>
      cases hl : s.lw with
      | false => exact ⟨hhash, fun hm' => (Bool.false_ne_true (hm'.symm.trans hm)).elim, fun _ => hmore hm hl⟩
      | true => exact ⟨hlast hm hl, hhash⟩

/-- While a block is compressed. -/
theorem inBlock_iff_of_compressing (hc : s.phase.compressing = true) : InBlock m q s ↔
    Compresses (hashed m q) (paddedBlock m q) s ∧ (s.mark = false → s.len.toNat = 64 * (q + 1)) ∧
      (s.mark = true → s.lw = true → q + 1 = numBlocks m.length) ∧
      (s.mark = true → s.lw = false → q + 2 = numBlocks m.length ∧ m.length < 64 * (q + 1)) := by
  unfold InBlock
  cases hp : s.phase <;> rw [hp] at hc
  all_goals cases hc

/-- Every step but `PAD` is a step of a compression, and every step but `ACCUM` leads to one (R116). -/
theorem compressing_of_engine {i : Instr} (heffect : EngineEffect s t i) :
    (i ≠ .pad → s.phase.compressing = true) ∧ (i ≠ .accum → t.phase.compressing = true) := by
  cases heffect with
  | pad _ ht => subst ht; exact ⟨absurd rfl, fun _ => rfl⟩
  | load hp ht | expandLast hp _ ht | roundLast hp _ ht =>
    subst ht; rw [hp]; exact ⟨fun _ => rfl, fun _ => rfl⟩
  | expand hp _ ht | round hp _ ht =>
    subst ht; rw [State.silent_phase, hp]; exact ⟨fun _ => rfl, fun _ => rfl⟩
  | accum hp ht => subst ht; rw [hp]; exact ⟨fun _ => rfl, absurd rfl⟩

/-- The other steps carry the compression of the block on (R110 to R112). -/
theorem InBlock.engine {i : Instr} (h : Session m q s) (heffect : EngineEffect s t i) (hpad : i ≠ .pad)
    (haccum : i ≠ .accum) : InBlock m q t := by
  have hs := (compressing_of_engine heffect).1 hpad
  have ht := (compressing_of_engine heffect).2 haccum
  obtain ⟨hwork, hopen, hlast, hmore⟩ := (inBlock_iff_of_compressing hs).1 h.block
  obtain ⟨-, -, hlen, hmark, hlw⟩ := sameMessage_of_engine hs heffect
  rw [inBlock_iff_of_compressing ht, hlen, hmark, hlw]
  refine ⟨(hwork.engine heffect).resolve_right fun hdone => ?_, hopen, hlast, hmore⟩
  rw [hdone.position.2, compressing_afterAccum] at ht
  cases ht

/-- Every engine step keeps to the session, and `ACCUM` completes a block. -/
theorem Session.engine {i : Instr} (h : Session m q s) (heffect : EngineEffect s t i) :
    Session m (if i = .accum then q + 1 else q) t := by
  obtain ⟨hinv, hovf, hlength, hwhole, -⟩ := id h
  obtain ⟨hlen, -, -, hovf'⟩ := frame_of_engine heffect
  have hended := ended_of_engine heffect
  refine ⟨hinv.engine heffect, hovf'.trans hovf, hlen ▸ hlength, fun he => hlen ▸ hwhole (hended ▸ he), ?_⟩
  by_cases haccum : i = .accum
  · subst haccum
    rw [if_pos rfl]
    exact InBlock.accum h heffect
  · rw [if_neg haccum]
    by_cases hpad : i = .pad
    · subst hpad
      exact InBlock.pad h heffect
    · exact InBlock.engine h heffect hpad haccum

end

end Sys2Proof.Machine
end

section
/-! SUPPORT. A whole session (R151 to R153, R164): every step takes it on, and with it the count of engine steps and the
list of blocks loaded; so it ends in `DONE` with the hash of the message. -/

namespace Sys2Proof.Machine

/-! ### A step by what the host sends -/

/-- What a step is to a session: it drives nothing, it is an engine step, or it takes an input that drives the session. -/
inductive HostStep (s t : State) : Prop
  | quiet (is : List Input) : stepsOf s = [] → is.filter Input.drivesSession = s.inputs.filter Input.drivesSession →
      sameButFaults (s.withInputs is) t → t.ovf = s.ovf →
      (benign s.inputs → t.err = s.err ∧ ∀ r, t.rsp = some r → r.err = false) → HostStep s t
  | engine (i : Instr) (is : List Input) : stepsOf s = [i] → s.busy = true → nextIs s i →
      is.filter Input.drivesSession = s.inputs.filter Input.drivesSession → EngineEffect (s.withInputs is) t i →
      s.stepsLeft = t.stepsLeft + 1 → t.rsp = none → HostStep s t
  | drives (i : Input) (rest : List Input) : stepsOf s = [] → i.drivesSession = true → s.inputs = i :: rest →
      (∀ c, i = .present c → s.ready c = true ∧ exec (decodeCmd c) (s.withInputs rest) = .next t) → HostStep s t

/-- An accepted word that drives no session answers or faults; `NOP` and `RDS` answer (R140, R148). -/
theorem quiet_of_command {s t : State} {c : CmdWord} (hc : (Input.present c).drivesSession = false)
    (h : CommandEffect (decodeCmd c) s t) : sameButFaults s t ∧ t.ovf = s.ovf ∧
      ((Input.present c).harmless = true → t.err = s.err ∧ ∀ r, t.rsp = some r → r.err = false) := by
  have hdrives : ¬ (decodeCmd c = .init ∨ (∃ b, decodeCmd c = .data b) ∨ decodeCmd c = .final) := by
    rw [← drivesSession_present_iff, hc]; exact Bool.false_ne_true
  cases h with
  | answers d _ ht =>
    subst ht
    exact ⟨sameButFaults_respond s d, rfl, fun _ => ⟨rfl, fun r hr => by cases hr; rfl⟩⟩
  | faults k w hk _ ht =>
    subst ht
    refine ⟨sameButFaults_raiseFault s k w, State.raiseFault_ovf_of_ne_overflow ?_ s w, fun hharmless => ?_⟩
    · rintro rfl
      exact hdrives (.inr (.inl hk.1))
    · rw [Input.harmless, Bool.or_eq_true, beq_iff_eq, beq_iff_eq] at hharmless
      rcases hharmless with rfl | rfl
      · rw [decodeCmd_nopWord] at hk; cases k <;> simp [faultsWith] at hk
      · rw [decodeCmd_rdsWord] at hk; cases k <;> simp [faultsWith] at hk
  | opens hi => exact absurd (.inl hi) hdrives
  | takes b hi => exact absurd (.inr (.inl ⟨b, hi⟩)) hdrives
  | ends hi => exact absurd (.inr (.inr hi)) hdrives

theorem hostStep_of_step {s t : State} (h : step s = .next t) : HostStep s t := by
  cases step_kind h with
  | reset rest hin ht =>
    exact .drives .reset rest (by rw [stepsOf, fetch_fst_of_nextIsReset ⟨rest, hin⟩]; rfl) rfl hin nofun
  | wait is _ hf hin ht =>
    subst ht
    have hfilter : is.filter Input.drivesSession = s.inputs.filter Input.drivesSession := by
      rcases hin with ⟨hin, -⟩ | hin <;> rw [hin]; rfl
    exact .quiet is (by rw [stepsOf, hf]; rfl) hfilter
      ⟨⟨rfl, rfl, rfl⟩, rfl, rfl, ⟨rfl, rfl, rfl, rfl, rfl⟩, rfl, rfl⟩ rfl fun _ => ⟨rfl, nofun⟩
  | engine i is hb hsel hf hin _ ht =>
    have hfilter : is.filter Input.drivesSession = s.inputs.filter Input.drivesSession := by
      rcases hin with hin | hin <;> rw [hin]; rfl
    have hstep := isStep_of_stepSelected hsel
    obtain ⟨u, hu, hrsp, -⟩ := exec_engineStep hstep (s.withInputs is)
    cases ht.symm.trans hu
    exact .engine i is (stepsOf_engine hf hstep) hb hf hfilter (exec_engineEffect (s := s.withInputs is) hsel ht)
      (stepsLeft_eq_succ_of_engineStep (s := s.withInputs is) hsel ht) hrsp
  | command c rest hin hr hf ht =>
    cases hd : (Input.present c).drivesSession with
    | true => exact .drives _ rest (stepsOf_command hf) hd hin fun c' hc => by cases hc; exact ⟨hr, ht⟩
    | false =>
      obtain ⟨hsame, hovf, hclean⟩ := quiet_of_command hd (commandEffect_of_exec (s := s.withInputs rest) hr ht)
      refine .quiet rest (stepsOf_command hf) (by rw [hin, List.filter_cons, hd]; rfl) hsame hovf fun hb => hclean ?_
      exact (hb _ (by rw [hin]; exact List.mem_cons_self)).resolve_right (by rw [hd]; exact Bool.false_ne_true)

/-! ### The count of engine steps and the list of blocks -/

/-- The engine steps that the bytes and the end of the message have called for so far (R153 (b)). -/
def State.work (s : State) : Nat := 114 * (s.len.toNat / 64) + if s.ended then 115 * padSteps s.len.toNat else 0

/-- A block has 114 steps, and each step `PAD` comes with a block (R115, R153). -/
theorem sessionSteps_eq (len : Nat) : sessionSteps len = 114 * (len / 64) + 115 * padSteps len := by
  rw [sessionSteps, numBlocks_eq, padSteps]
  split <;> omega

/-- How many blocks have been loaded, `q` of them being compressed. -/
def loadedOf (q : Nat) (s : State) : Nat :=
  match s.phase with
  | .expand | .round | .accum => q + 1
  | .idle | .absorb | .pad | .load | .done => q

theorem loadedOf_of_phase_eq_afterAccum (q : Nat) {mark lw : Bool} {s : State} (h : s.phase = afterAccum mark lw) :
    loadedOf q s = q := by
  rw [loadedOf, h]; cases mark <;> cases lw <;> rfl

/-- The block that is loaded next, if any. -/
def loadsOf (s : State) : List Block := if (fetch s).1 = some .load then [s.m.block] else []

theorem blocksLoaded_snoc {n : Nat} {s u t : State} (h : runsTo n s u) (hu : step u = .next t) :
    blocksLoaded (n + 1) s = blocksLoaded n s ++ loadsOf u := by
  rw [blocksLoaded_add h, blocksLoaded_succ hu, blocksLoaded, List.append_nil, loadsOf]

theorem loadsOf_of_no_steps {s : State} (h : stepsOf s = []) : loadsOf s = [] := by
  refine if_neg fun hload => ?_
  rw [stepsOf_engine hload rfl] at h
  cases h

theorem loadsOf_of_nextIs {s : State} {i : Instr} (h : nextIs s i) :
    loadsOf s = if i = .load then [s.m.block] else [] := by
  rw [loadsOf, h]
  simp only [Option.some.injEq]

/-- The first `n` blocks of the padded message. -/
def firstBlocks (m : List Byte) (n : Nat) : List Block := (List.range n).map (paddedBlock m)

theorem firstBlocks_succ (m : List Byte) (n : Nat) : firstBlocks m (n + 1) = firstBlocks m n ++ [paddedBlock m n] := by
  simp [firstBlocks, List.range_succ]

/-- A word of an opcode other than 0 and 7 waits until the engine is not busy (R66). -/
theorem State.not_busy_of_ready {s : State} {op : BitVec 4} {arg : Byte} (h0 : op ≠ 0) (h7 : op ≠ 7)
    (h : s.ready (commandWord op arg) = true) : s.busy = false := by
  rw [State.ready_commandWord s h0 h7] at h
  simpa using h

/-- A step takes a session on: where the engine is, what is to come, the count of steps, the blocks, and no fault if the
host sends what R153 allows. -/
structure Advances (m : List Byte) (q : Nat) (s : State) (q' : Nat) (t : State) : Prop where
  session : Session m q' t
  host : t.inputs.filter Input.drivesSession = toCome m t
  steps : (stepsOf s).length + t.stepsLeft + s.work = s.stepsLeft + t.work
  blocks : firstBlocks m (loadedOf q' t) = firstBlocks m (loadedOf q s) ++ loadsOf s
  clean : benign s.inputs → t.err = s.err ∧ ∀ r, t.rsp = some r → r.err = false

theorem toCome_congr {m : List Byte} {s t : State} (he : t.ended = s.ended) (hlen : t.len = s.len) :
    toCome m t = toCome m s := by rw [toCome, toCome, he, hlen]

theorem work_congr {s t : State} (he : t.ended = s.ended) (hlen : t.len = s.len) : t.work = s.work := by
  rw [State.work, State.work, he, hlen]

section
variable {m : List Byte} {q : Nat} {s t : State} (h : Session m q s)
include h

/-- A step that drives nothing. -/
theorem Session.advances_quiet (hhost : s.inputs.filter Input.drivesSession = toCome m s) (hinv : t.Inv) {is : List Input}
    (hsteps : stepsOf s = []) (his : is.filter Input.drivesSession = s.inputs.filter Input.drivesSession)
    (hsame : sameButFaults (s.withInputs is) t) (hovf : t.ovf = s.ovf)
    (hclean : benign s.inputs → t.err = s.err ∧ ∀ r, t.rsp = some r → r.err = false) : Advances m q s q t := by
  have hsession := h.congr hsame hinv hovf
  obtain ⟨-, -, hp, hc, hinputs, -⟩ := hsame
  obtain ⟨-, -, hlen, hmark, -⟩ := id hc
  have he : t.ended = s.ended := State.ended_congr hp hmark
  refine ⟨hsession, ?_, ?_, ?_, hclean⟩
  · rw [hinputs, toCome_congr he hlen]; exact his.trans hhost
  · rw [hsteps, State.stepsLeft_congr (s := s) hp hc, work_congr he hlen]; exact Nat.add_right_cancel_iff.2 (Nat.zero_add _)
  · rw [loadsOf_of_no_steps hsteps, List.append_nil, loadedOf, loadedOf, hp]; rfl

/-- An engine step. -/
theorem Session.advances_engine (hhost : s.inputs.filter Input.drivesSession = toCome m s) {i : Instr} {is : List Input}
    (hsteps : stepsOf s = [i]) (hi : nextIs s i)
    (his : is.filter Input.drivesSession = s.inputs.filter Input.drivesSession)
    (heffect : EngineEffect (s.withInputs is) t i) (hleft : s.stepsLeft = t.stepsLeft + 1) (hrsp : t.rsp = none) :
    Advances m q s (if i = .accum then q + 1 else q) t := by
  have he : t.ended = s.ended := ended_of_engine (s := s.withInputs is) heffect
  obtain ⟨hlen, hinputs, herr, -⟩ := frame_of_engine (s := s.withInputs is) heffect
  refine ⟨(h.withInputs is).engine heffect, ?_, ?_, ?_, fun _ => ⟨herr, by rw [hrsp]; nofun⟩⟩
  · rw [hinputs, toCome_congr (s := s) he hlen]; exact his.trans hhost
  · rw [hsteps, hleft, work_congr (s := s) he hlen, List.length_singleton, Nat.add_comm 1]
  · rw [loadsOf_of_nextIs hi]
    cases heffect with
    | load hp ht =>
      have hblock := h.block
      rw [State.withInputs_phase] at hp
      rw [InBlock, hp, Compresses, hp] at hblock
      obtain ⟨⟨-, hb⟩, -⟩ := hblock
      subst ht
      rw [loadedOf, loadedOf, hp, if_pos rfl, hb]
      exact firstBlocks_succ m q
    | pad hp ht | expandLast hp _ ht | roundLast hp _ ht =>
      subst ht
      rw [State.withInputs_phase] at hp
      simp only [loadedOf, hp, reduceCtorEq, if_false, List.append_nil]
    | expand hp _ ht | round hp _ ht =>
      subst ht
      rw [State.withInputs_phase] at hp
      simp only [loadedOf, hp, State.silent_phase, State.withInputs_phase, reduceCtorEq, if_false, List.append_nil]
    | accum hp ht =>
      have hnext : t.phase = afterAccum s.mark s.lw := by rw [ht]; rfl
      rw [State.withInputs_phase] at hp
      rw [if_pos rfl, loadedOf_of_phase_eq_afterAccum _ hnext]
      simp only [loadedOf, hp, reduceCtorEq, if_false, List.append_nil]

/-- The message's next byte. -/
theorem Session.advances_byte (hmax : m.length ≤ Config.maxMsgBytes) (hp : s.phase = .absorb)
    (hroom : s.len.toNat < m.length) {b : Byte} (hb : m.getD s.len.toNat 0 = b) {rest : List Input}
    (hrest : rest.filter Input.drivesSession = messageInputs (m.drop (s.len.toNat + 1))) (hsteps : stepsOf s = []) :
    Advances m q s q ((Machine.appendByte b (s.withInputs rest)).respond 0) := by
  obtain ⟨hsession, hopen', hlen⟩ := (h.withInputs rest).appendByte hp hroom hmax hb
  obtain ⟨-, hmark, -, hbi⟩ := h.inv.consistent.absorb hp
  have hopen : s.ended = false := by rw [State.ended, hp, hmark]; rfl
  have hlt := s.bi.isLt
  refine ⟨hsession, ?_, ?_, ?_, fun _ => ⟨rfl, fun r hr => by cases hr; rfl⟩⟩
  · rw [toCome, hopen', hlen]; exact hrest
  · have hs : s.stepsLeft = 0 := by rw [State.stepsLeft, hp]
    rw [hsteps, State.work, State.work, hopen, hopen', hlen, hs, State.withInputs_len]
    by_cases h63 : s.bi.toNat = 63
    · have hleft : ((Machine.appendByte b (s.withInputs rest)).respond 0).stepsLeft = 114 := by
        have hload : ((Machine.appendByte b (s.withInputs rest)).respond 0).phase = .load := if_pos h63
        rw [State.stepsLeft, hload, State.respond_mark, appendByte_mark, State.withInputs_mark, hmark]; rfl
      rw [hleft]; simp; omega
    · have hleft : ((Machine.appendByte b (s.withInputs rest)).respond 0).stepsLeft = 0 := by
        have habsorb : ((Machine.appendByte b (s.withInputs rest)).respond 0).phase = .absorb := (if_neg h63).trans hp
        rw [State.stepsLeft, habsorb]
      rw [hleft]; simp; omega
  · rw [loadsOf_of_no_steps hsteps, List.append_nil, loadedOf, loadedOf, State.respond_phase, appendByte_phase,
      State.withInputs_phase, hp]
    by_cases h63 : s.bi.toNat = 63 <;> simp [h63]

/-- The end of the message. -/
theorem Session.advances_final (hp : s.phase = .absorb) (hwhole : s.len.toNat = m.length) {rest : List Input}
    (hrest : rest.filter Input.drivesSession = []) (hsteps : stepsOf s = []) :
    Advances m q s q (({ s.withInputs rest with phase := .pad } : State).respond 0) := by
  obtain ⟨-, hmark, hlw, hbi⟩ := h.inv.consistent.absorb hp
  have hopen : s.ended = false := by rw [State.ended, hp, hmark]; rfl
  refine ⟨(h.withInputs rest).endMessage hp hwhole, hrest, ?_, ?_, fun _ => ⟨rfl, fun r hr => by cases hr; rfl⟩⟩
  · have hs : s.stepsLeft = 0 := by rw [State.stepsLeft, hp]
    have hleft : (({ s.withInputs rest with phase := .pad } : State).respond 0).stepsLeft = 115 * padSteps s.len.toNat := by
      simp only [State.stepsLeft, State.respond_phase, State.respond_mark, State.respond_bi, State.respond_lw,
        State.withInputs_mark, State.withInputs_bi, State.withInputs_lw, hmark, hlw, hbi, padSteps, stepsAfterAccum]
      by_cases hroom : s.len.toNat % 64 ≤ 55
      · simp [hroom, Nat.not_lt.2 hroom]
      · simp [hroom, Nat.not_le.1 hroom]
    rw [hsteps, hs, hleft, State.work, State.work, hopen]
    simp [State.ended]
    omega
  · rw [loadsOf_of_no_steps hsteps, List.append_nil, loadedOf, loadedOf, hp]; rfl

/-- An input that drives a session is the one that comes next, and takes it on. -/
theorem Session.advances_drives (hhost : s.inputs.filter Input.drivesSession = toCome m s)
    (hmax : m.length ≤ Config.maxMsgBytes) {i : Input} {rest : List Input} (hsteps : stepsOf s = [])
    (hi : i.drivesSession = true) (hin : s.inputs = i :: rest)
    (haccept : ∀ c, i = .present c → s.ready c = true ∧ exec (decodeCmd c) (s.withInputs rest) = .next t) :
    Advances m q s q t := by
  rw [hin, List.filter_cons_of_pos hi] at hhost
  have hopen : s.ended = false := by
    by_contra hended
    rw [toCome, if_pos (Bool.eq_true_of_not_eq_false hended)] at hhost
    cases hhost
  rw [toCome, hopen, if_neg Bool.false_ne_true] at hhost
  rcases h.length.lt_or_eq with hroom | hwhole
  · rw [List.drop_eq_getElem_cons hroom, messageInputs, List.map_cons, List.cons_append] at hhost
    obtain ⟨rfl, hrest⟩ := List.cons.inj hhost
    obtain ⟨hready, hexec⟩ := haccept _ rfl
    have hp := h.absorb_of_open hopen (State.not_busy_of_ready (by decide) (by decide) hready)
    rw [decodeCmd_dataWord, exec_data_of_room (s := s.withInputs rest) hp (lt_of_lt_of_le hroom hmax)] at hexec
    cases hexec
    exact h.advances_byte hmax hp hroom (List.getD_eq_getElem _ _ hroom) hrest hsteps
  · rw [hwhole, List.drop_length, messageInputs, List.map_nil, List.nil_append] at hhost
    obtain ⟨rfl, hrest⟩ := List.cons.inj hhost
    obtain ⟨hready, hexec⟩ := haccept _ rfl
    have hp := h.absorb_of_open hopen (State.not_busy_of_ready (by decide) (by decide) hready)
    have hlegal : exec .final (s.withInputs rest) = .next (({ s.withInputs rest with phase := .pad } : State).respond 0) :=
      whenReady_whenLegal_of_legal (s := s.withInputs rest) hp rfl rfl _ _
    rw [decodeCmd_finalWord, hlegal] at hexec
    cases hexec
    exact h.advances_final hp hwhole hrest hsteps

/-- Every step takes a session on. -/
theorem Session.step (hhost : s.inputs.filter Input.drivesSession = toCome m s) (hmax : m.length ≤ Config.maxMsgBytes)
    (ht : Machine.step s = .next t) : ∃ q', Advances m q s q' t := by
  cases hostStep_of_step ht with
  | quiet is hsteps his hsame hovf hclean =>
    exact ⟨q, h.advances_quiet hhost (stepKeepsTheInvariant s t h.inv ht) hsteps his hsame hovf hclean⟩
  | engine i is hsteps _ hi his heffect hleft hrsp =>
    exact ⟨_, h.advances_engine hhost hsteps hi his heffect hleft hrsp⟩
  | drives i rest hsteps hi hin haccept => exact ⟨q, h.advances_drives hhost hmax hsteps hi hin haccept⟩

end

/-! ### Before `INIT` is accepted -/

/-- `INIT` opens a session: no block yet, and no step counted. -/
structure Opens (m : List Byte) (t : State) : Prop where
  session : Session m 0 t
  host : t.inputs.filter Input.drivesSession = toCome m t
  idle : t.stepsLeft = 0 ∧ t.work = 0 ∧ loadedOf 0 t = 0
  clean : t.err = false ∧ ∀ r, t.rsp = some r → r.err = false

theorem opens_openSession {m : List Byte} {s : State} (hinv : s.Inv)
    (hin : s.inputs.filter Input.drivesSession = messageInputs m) : Opens m ((openSession s).respond 0) where
  session := ⟨hinv.openSession.respond 0, rfl, Nat.zero_le _, nofun, rfl, rfl, nofun⟩
  host := hin
  idle := ⟨rfl, by simp [State.work, State.ended, openSession], rfl⟩
  clean := ⟨rfl, fun r hr => by cases hr; rfl⟩

/-- A step while the whole session is still to be sent. -/
inductive WaitingStep (m : List Byte) (s t : State) : Prop
  | stays : t.inputs.filter Input.drivesSession = script m →
      (s.busy = false → t.busy = false ∧ stepsOf s = []) →
      (benign s.inputs → ∀ r, t.rsp = some r → r.err = false) → WaitingStep m s t
  | opens : stepsOf s = [] → Opens m t → WaitingStep m s t

theorem waitingStep_of_step {m : List Byte} {s t : State} (hinv : s.Inv)
    (hhost : s.inputs.filter Input.drivesSession = script m) (ht : step s = .next t) : WaitingStep m s t := by
  cases hostStep_of_step ht with
  | quiet is hsteps his hsame _ hclean =>
    obtain ⟨-, -, hp, -, hinputs, -⟩ := hsame
    refine .stays (by rw [hinputs]; exact his.trans hhost) (fun hb => ⟨?_, hsteps⟩) fun hbenign => (hclean hbenign).2
    rw [State.busy, hp]; exact hb
  | engine i is _ hbusy _ his heffect _ hrsp =>
    obtain ⟨-, hinputs, -⟩ := frame_of_engine (s := s.withInputs is) heffect
    exact .stays (by rw [hinputs]; exact his.trans hhost) (fun hb => (Bool.false_ne_true (hb.symm.trans hbusy)).elim)
      fun _ => by rw [hrsp]; nofun
  | drives i rest hsteps hi hin haccept =>
    rw [hin, List.filter_cons_of_pos hi, script_eq] at hhost
    obtain ⟨rfl, hrest⟩ := List.cons.inj hhost
    have hb := State.not_busy_of_ready (by decide) (by decide) (haccept _ rfl).1
    cases (step_init hb hin).symm.trans ht
    exact .opens hsteps (opens_openSession (s := s.withInputs rest) (hinv.withInputs rest) hrest)

/-! ### The run of a session -/

/-- A point of the run from `s` at which the session is open, `q` blocks being compressed. -/
structure OpenRun (m : List Byte) (s : State) (n : Nat) (u : State) (q : Nat) : Prop where
  session : Session m q u
  host : u.inputs.filter Input.drivesSession = toCome m u
  count : s.busy = false →
    (engineSteps n s).length + u.stepsLeft = u.work ∧ blocksLoaded n s = firstBlocks m (loadedOf q u)
  err : benign s.inputs → u.err = false

/-- A point of the run from `s`: the session is still to be sent, or it is open. -/
inductive Stage (m : List Byte) (s : State) (n : Nat) (u : State) : Prop
  | waiting : u.Inv → u.inputs.filter Input.drivesSession = script m →
      (s.busy = false → u.busy = false ∧ engineSteps n s = [] ∧ blocksLoaded n s = []) → Stage m s n u
  | running (q : Nat) : OpenRun m s n u q → Stage m s n u

/-- A point of the run from `s`, no word of which has faulted if the host sends what R153 allows. -/
structure SessionRun (m : List Byte) (s : State) (n : Nat) (u : State) : Prop where
  stage : Stage m s n u
  clean : benign s.inputs → benign u.inputs ∧ ∀ r ∈ responses n s, r.err = false

theorem responses_snoc {n : Nat} {s u t : State} (h : runsTo n s u) (hu : step u = .next t) :
    responses (n + 1) s = responses n s ++ t.rsp.toList := by
  rw [responses_add h, responses_succ hu, responses, List.append_nil]

theorem benign_of_step {s t : State} (h : step s = .next t) (hs : benign s.inputs) : benign t.inputs :=
  fun i hi => hs i ((inputs_suffix_of_step h).subset hi)

section
variable {m : List Byte} {s u v : State} {n : Nat}

/-- The responses stay without error as long as each step answers without. -/
theorem clean_snoc (hrun : runsTo n s u) (hv : step u = .next v)
    (hclean : benign s.inputs → benign u.inputs ∧ ∀ r ∈ responses n s, r.err = false)
    (hstep : benign u.inputs → ∀ r, v.rsp = some r → r.err = false) (hbenign : benign s.inputs) :
    benign v.inputs ∧ ∀ r ∈ responses (n + 1) s, r.err = false := by
  obtain ⟨hu, hresp⟩ := hclean hbenign
  refine ⟨benign_of_step hv hu, fun r hr => ?_⟩
  rw [responses_snoc hrun hv, List.mem_append, Option.mem_toList] at hr
  exact hr.elim (hresp r) (hstep hu r)

theorem OpenRun.step {q : Nat} (h : OpenRun m s n u q) (hbenign : benign s.inputs → benign u.inputs)
    (hrun : runsTo n s u) (hv : step u = .next v) {q' : Nat} (hnext : Advances m q u q' v) :
    OpenRun m s (n + 1) v q' where
  session := hnext.session
  host := hnext.host
  count hb := by
    obtain ⟨hcount, hblocks⟩ := h.count hb
    rw [engineSteps_snoc hrun hv, blocksLoaded_snoc hrun hv, hblocks, hnext.blocks, List.length_append]
    have hsteps := hnext.steps
    exact ⟨by omega, rfl⟩
  err hs := (hnext.clean (hbenign hs)).1.trans (h.err hs)

theorem openRun_of_opens (hopens : Opens m v) (hrun : runsTo n s u) (hv : step u = .next v) (hsteps : stepsOf u = [])
    (hcount : s.busy = false → engineSteps n s = [] ∧ blocksLoaded n s = []) : OpenRun m s (n + 1) v 0 where
  session := hopens.session
  host := hopens.host
  count hb := by
    obtain ⟨hnone, hno⟩ := hcount hb
    obtain ⟨hleft, hwork, hloaded⟩ := hopens.idle
    rw [engineSteps_snoc hrun hv, blocksLoaded_snoc hrun hv, hnone, hno, hsteps, loadsOf_of_no_steps hsteps, hleft, hwork,
      hloaded]
    exact ⟨rfl, rfl⟩
  err _ := hopens.clean.1

theorem SessionRun.step (hmax : m.length ≤ Config.maxMsgBytes) (h : SessionRun m s n u) (hrun : runsTo n s u)
    (hv : step u = .next v) : SessionRun m s (n + 1) v := by
  obtain ⟨hstage, hclean⟩ := h
  cases hstage with
  | waiting hinv hhost hcount =>
    cases waitingStep_of_step hinv hhost hv with
    | stays hhost' hidle hrsp =>
      refine ⟨.waiting (stepKeepsTheInvariant u v hinv hv) hhost' fun hb => ?_, clean_snoc hrun hv hclean hrsp⟩
      obtain ⟨hub, hnone, hno⟩ := hcount hb
      obtain ⟨hvb, hsteps⟩ := hidle hub
      rw [engineSteps_snoc hrun hv, blocksLoaded_snoc hrun hv, hnone, hno, hsteps, loadsOf_of_no_steps hsteps]
      exact ⟨hvb, rfl, rfl⟩
    | opens hsteps hopens =>
      exact ⟨.running 0 (openRun_of_opens hopens hrun hv hsteps fun hb => (hcount hb).2),
        clean_snoc hrun hv hclean fun _ => hopens.clean.2⟩
  | running q hq =>
    obtain ⟨q', hnext⟩ := hq.session.step hq.host hmax hv
    exact ⟨.running q' (hq.step (fun hs => (hclean hs).1) hrun hv hnext),
      clean_snoc hrun hv hclean fun hs => (hnext.clean hs).2⟩

/-- With no input left a session is open. -/
theorem SessionRun.exists_openRun (h : SessionRun m s n u) (hin : u.inputs = []) : ∃ q, OpenRun m s n u q := by
  cases h.stage with
  | waiting _ hhost => rw [hin, script_eq] at hhost; cases hhost
  | running q hq => exact ⟨q, hq⟩

theorem OpenRun.ended_of_nil {q : Nat} (h : OpenRun m s n u q) (hin : u.inputs = []) : u.ended = true := by
  have hhost := h.host
  rw [hin, toCome, messageInputs] at hhost
  by_contra hopen
  rw [if_neg hopen] at hhost
  exact List.append_ne_nil_of_right_ne_nil _ (List.cons_ne_nil _ _) hhost.symm

end

/-- What a session has come to at its end: `DONE`, all blocks compressed. -/
structure SessionEnd (m : List Byte) (s : State) (n : Nat) (t : State) : Prop where
  run : runsTo n s t
  inputs : t.inputs = []
  phase : t.phase = .done
  inv : t.Inv
  hash : messageHash m = some t.h
  ovf : t.ovf = false
  count : s.busy = false →
    (engineSteps n s).length = sessionSteps m.length ∧ blocksLoaded n s = blocks (padBytes m)
  clean : benign s.inputs → t.err = false ∧ ∀ r ∈ responses n s, r.err = false

theorem OpenRun.sessionEnd {m : List Byte} {s t : State} {n q : Nat} (hmax : m.length ≤ Config.maxMsgBytes)
    (h : OpenRun m s n t q) (hrun : runsTo n s t) (hin : t.inputs = []) (hp : t.phase = .done)
    (hclean : benign s.inputs → ∀ r ∈ responses n s, r.err = false) : SessionEnd m s n t := by
  have hended := h.ended_of_nil hin
  have hlen := h.session.whole hended
  have hblock := h.session.block
  rw [InBlock, hp] at hblock
  obtain ⟨rfl, hhash⟩ := hblock
  refine ⟨hrun, hin, hp, h.session.inv, by rw [messageHash_eq hmax, hhash], h.session.ovf, fun hb => ?_,
    fun hs => ⟨h.err hs, hclean hs⟩⟩
  obtain ⟨hcount, hblocks⟩ := h.count hb
  rw [State.stepsLeft, hp, State.work, if_pos hended, hlen] at hcount
  rw [loadedOf, hp] at hblocks
  refine ⟨?_, hblocks.trans (blocks_padBytes m).symm⟩
  rw [sessionSteps_eq]
  exact hcount

/-- A session that the host sends runs to its end (R152, R153, R164). -/
theorem exists_sessionEnd {m : List Byte} {s : State} (hinv : s.Inv) (hmax : m.length ≤ Config.maxMsgBytes)
    (hcarries : carriesWithFaults s.inputs m) : ∃ n t, SessionEnd m s n t := by
  obtain ⟨n, t, hrun, ht, hin, hp⟩ := exists_run_until (s := s) (stop := fun u => u.inputs = [] ∧ u.phase = .done)
    (Q := SessionRun m s) (fun n u v hrun hu _ hv => hu.step hmax hrun hv)
    (fun n u hu hstop => by
      by_contra hdead
      obtain ⟨hidle, hin⟩ := not_or.1 hdead
      rw [not_not] at hin
      obtain ⟨q, hq⟩ := hu.exists_openRun hin
      exact hstop ⟨hin, hq.session.done_of_ended (hq.ended_of_nil hin) (Bool.eq_false_of_not_eq_true hidle)⟩)
    ⟨.waiting hinv hcarries fun hb => ⟨hb, rfl, rfl⟩, fun hs => ⟨hs, fun r hr => by simp [responses] at hr⟩⟩
  obtain ⟨q, hq⟩ := ht.exists_openRun hin
  exact ⟨n, t, hq.sessionEnd hmax hrun hin hp fun hs => (ht.clean hs).2⟩

/-! ### The obligations -/

/-- The status word in `DONE` with no fault recorded (R23). -/
theorem status_of_done {s : State} (hinv : s.Inv) (hp : s.phase = .done) (herr : s.err = false) :
    s.status = 0x00000017 := by
  obtain ⟨hcause, hcmd, hovf⟩ := hinv.consistent.no_fault herr
  rw [State.status, State.busy, State.done, herr, hcause, hcmd, hovf, hp]
  rfl

/-- Settles O43: the blocks loaded at the end of the session. -/
theorem blocksAreThoseOfThePaddedMessage : Obligations.BlocksAreThoseOfThePaddedMessage := by
  unfold Obligations.BlocksAreThoseOfThePaddedMessage
  intro s m p is hinv hb hpad hcarries
  obtain ⟨hmax, rfl⟩ := pad_eq_some_iff.1 hpad
  obtain ⟨n, t, hend⟩ := exists_sessionEnd (hinv.withInputs is) hmax (carriesWithFaults_of_carries hcarries)
  refine ⟨n, t, hend.run, hend.inputs, hend.phase, (hend.count hb).2, ?_⟩
  rw [length_blocks, length_padBytes, Nat.mul_div_cancel_left _ (by decide)]

/-- Settles O44: the session's end, with what R153 lets the host send. -/
theorem sessionComputesTheHash : Obligations.SessionComputesTheHash := by
  unfold Obligations.SessionComputesTheHash
  intro s m is hinv hmax hcarries
  obtain ⟨n, t, hend⟩ := exists_sessionEnd (hinv.withInputs is) hmax (carriesWithFaults_of_carries hcarries)
  obtain ⟨herr, hresp⟩ := hend.clean (benign_of_carries hcarries)
  exact ⟨n, t, hend.run, hend.inputs, hend.phase, hend.hash, herr, hend.ovf, status_of_done hend.inv hend.phase herr,
    hresp, fun hb => (hend.count hb).1⟩

/-- Settles O45: the session's end, whatever else the host sends. -/
theorem faultsDoNotSpoilTheDigest : Obligations.FaultsDoNotSpoilTheDigest := by
  unfold Obligations.FaultsDoNotSpoilTheDigest
  intro s m is hinv hmax hcarries
  obtain ⟨n, t, hend⟩ := exists_sessionEnd (hinv.withInputs is) hmax hcarries
  exact ⟨n, t, hend.run, hend.inputs, hend.phase, hend.hash, hend.ovf⟩

end Sys2Proof.Machine
end
